-- ==== Sys2Proof/Word.lean ====
section
/-! DEFINITION. The widths of the block's values (`00_scope.md` section 5): a byte, a 16-bit value
(checksum, seed, count operand) and a 32-bit time in milliseconds.  Ring indices and lengths are
plain natural numbers, because the capacity is a parameter. -/

namespace Sys2Proof

/-- A byte: 8 bits, the only unit the storage moves (R40). -/
abbrev Byte := BitVec 8

/-- A 16-bit value: a checksum, a seed or a count operand. -/
abbrev Half := BitVec 16

/-- A millisecond time or delay: 32 bits, wrapping at 2^32 (R23, R56 e). -/
abbrev Time := BitVec 32

/-- Half of the time circle, 2^31 ms: the distance from which a time counts as ahead (R101). -/
abbrev Time.half : Time := 0x80000000#32

end Sys2Proof
end

