-- ==== Sys2Proof/Config.lean ====
section
/-! DEFINITION. What is fixed for a machine and is no state (`00_scope.md` R3 to R9), as plain data
that the launch puts into the state and no operation changes (log entry 1), and the two oracles of
which the spec gives no value: a checksum function other than the default (R6, R115) and a handler's
result (R133).  Both oracles are opaque constants: nothing can be proved about their values. -/

namespace Sys2Proof

/-- A command tag: 4 bytes, compared position by position and never read as a number (R41 b, R63). -/
structure Tag where
  b0 : Byte
  b1 : Byte
  b2 : Byte
  b3 : Byte
deriving DecidableEq, Repr

/-- One entry of the command table: tag, payload length `N`, and the handler's name `h` (R8, R125). -/
structure TableEntry where
  tag : Tag
  payloadLen : Nat
  handler : Nat
deriving DecidableEq, Repr

/-- Which checksum function `crc16` is: the default algorithm of R117, or any other pure function
of bytes and seed (R6), known by a name only. -/
inductive Checksum
  | modbus
  | custom (id : Nat)
deriving DecidableEq, Repr

/-- The parameters that all channels share. -/
structure Config where
  /-- `C`, the capacity of every Ring Buffer in bytes (R3). -/
  capacity : Nat
  /-- `IDLE_DELAY_MS` (R5). -/
  idleDelay : Time
  /-- The checksum function (R6). -/
  checksum : Checksum
  /-- `CRC_SEED` (R6). -/
  crcSeed : Half
  /-- `CRC_LSB_FIRST`: low checksum byte first on the wire (R6, R64). -/
  crcLsbFirst : Bool
deriving DecidableEq, Repr

/-- The parameters of one channel: its command table (R8) and whether a timer can be had (R9). -/
structure ChannelConfig where
  table : List TableEntry
  timerSlot : Bool
deriving DecidableEq, Repr

/-- One call of a handler, as the application saw it: the handler, the tag, the payload and the
result bytes it returned (R133). -/
structure HandlerCall where
  handler : Nat
  tag : Tag
  payload : List Byte
  response : List Byte
deriving DecidableEq, Repr

/-- The defaults of the summary table of `00_scope.md` section 4: `C` = 256, `IDLE_DELAY_MS` = 2000,
the algorithm of R117 with seed 0xFFFF, low checksum byte first. -/
def Config.default : Config where
  capacity := 256
  idleDelay := 2000#32
  checksum := .modbus
  crcSeed := 0xFFFF#16
  crcLsbFirst := true

/-- The default channel: `TIMER_SLOT_AVAILABLE` = true (R9) and, because the spec gives no table
(R8, default "none"), a table without entries (log entry 4). -/
def ChannelConfig.default : ChannelConfig where
  table := []
  timerSlot := true

/-- FREE VALUE (log entry 5): the checksum that the function named `id` gives for the bytes and the
seed.  Any pure function is allowed (R6, R115), so nothing about it is known. -/
opaque Config.customCrc16 : Nat → List Byte → Half → Half

/-- FREE VALUE (log entry 6): the bytes that handler `h` returns on a channel (its index comes first)
for a tag and a payload after the calls made on that channel so far, where the application's answers
are not written out in the state (R133: any length, any content). -/
opaque Config.handlerAnswer : Nat → Nat → Tag → List Byte → List HandlerCall → List Byte

end Sys2Proof
end

