-- ==== Sys2Proof/Machine/State.lean ====
section
/-! DEFINITION. The state of the block as plain data (`10_state.md`), the result an operation hands
back (R68), the reasons a step can stop, and the power-on state (R33, R185).  Beside the block's own
fields the state holds the launch's parameters, which no operation changes (log entry 1), the
requests the agents have issued and that wait their turn (R49, R55; log entry 2), the result of the
last operation (log entry 3) and, per channel, the application's own state (R28). -/

namespace Sys2Proof.Machine

/-- The storage of a Ring Buffer: the bytes that differ from what an unlisted index reads as, in
rising order of index (R10, R32, R40). -/
abbrev Memory := List Host.Cell

/-- A Ring Buffer instance, `RXF` or `TXF` (R10 to R15). -/
structure Fifo where
  /-- `F.storage`, indexed 0 to `C` - 1 (R10). -/
  storage : Memory
  /-- `F.length`, 0 to `C` (R11). -/
  length : Nat
  /-- `F.putIndex`, 0 to `C` - 1 (R12). -/
  putIndex : Nat
  /-- `F.getIndex`, 0 to `C` - 1 (R13). -/
  getIndex : Nat
  /-- `F.allowOverwrite`, the overwrite policy (R14). -/
  allowOverwrite : Bool
  /-- `F.inited` (R15). -/
  inited : Bool
deriving DecidableEq, Repr

/-- A timer entry (R19, R20, R22); the handler is a constant of the block (R21). -/
structure Timer where
  planned : Bool
  deadline : Time
  engaged : Bool
deriving DecidableEq, Repr

/-- The application's own state as the handlers of one channel see it, which only the handler oracle
touches (R28, R133): the answers the application has ready for that channel's next calls, and the
calls made on it so far.  Each channel has its own, so that channels share nothing but `now` and the
halt record (R54, D22; log entry 6). -/
structure App where
  answers : List (List Byte)
  calls : List HandlerCall
deriving DecidableEq, Repr

/-- A channel: its two Ring Buffers, its timer entry, the bytes handed to the peripheral so far
(R27), its own parameters (R176: "a reference to an immutable command table"), and the application's
state for its handlers (R28). -/
structure Channel where
  cfg : ChannelConfig
  rxf : Fifo
  txf : Fifo
  tmr : Timer
  wireOut : List Byte
  app : App
deriving DecidableEq, Repr

/-- The fault codes 1 to 6, in order (R165). -/
inductive FaultCode
  | assertUninit
  | assertBadChannel
  | timerAllocFail
  | configFrameTooLong
  | illegalRequest
  | illegalOperand
deriving DecidableEq, Repr

/-- The outcomes of `FP_PROCESS`, 0 to 3 in order (R68, R128). -/
inductive ParseOutcome
  | noFrame
  | dispatch
  | discard
  | resync
deriving DecidableEq, Repr

/-- The data after the status `OK` (R68). -/
inductive Answer
  /-- No data. -/
  | done
  /-- `GET`, `PEEK`: the byte. -/
  | byte (b : Byte)
  /-- `GETSPAN`: the bytes, oldest first. -/
  | span (bs : List Byte)
  /-- `SIZE`: the length. -/
  | size (n : Nat)
  /-- `TICK`: the number of channels whose timer fired, modulo 256. -/
  | fired (n : Byte)
  /-- `CRC16`: the checksum. -/
  | crc (v : Half)
  /-- `FP_PROCESS`: the outcome. -/
  | outcome (o : ParseOutcome)
  /-- `PUMP`: the number of bytes moved. -/
  | moved (m : Nat)
deriving DecidableEq, Repr

/-- The result of an operation (R30, R68). -/
inductive Result
  | ok (a : Answer)
  | fail
  | fault (code : FaultCode)
deriving DecidableEq, Repr

/-- The state of the block.  `NCH` is the length of `chans` (R7): a channel index is in range
exactly when the list has an entry for it. -/
structure State where
  /-- The parameters all channels share; no operation changes them. -/
  cfg : Config
  /-- `now`, the millisecond counter (R23). -/
  now : Time
  /-- `halted` (R24). -/
  halted : Bool
  /-- `faultCode` (R24). -/
  faultCode : FaultCode
  /-- The channels, index 0 first (R176). -/
  chans : List Channel
  /-- The result of the last operation, as its agent received it (R68); none before the first. -/
  result : Option Result
  /-- The requests issued and not yet performed, in the total order of R49. -/
  requests : List (List Byte)
deriving DecidableEq, Repr

/-- Why the machine stops with a fault.  The spec's own faults (R165) are NOT here: each is a next
state with `halted` set (R166). -/
inductive Fault
  /-- An operation would access a storage index outside 0 to `C` - 1, which does not exist (R32).
  Raised by `PUT`, `PUTSPAN`, `GET`, `PEEK`, `GETSPAN`, `FP_PROCESS`, `RXBYTE` and `PUMP` on a Ring
  Buffer whose indices break R16 (I2); no run from power-on reaches one.  Safe: it only stops (log entry 11). -/
  | storageIndexOutOfRange
deriving DecidableEq, Repr

/-- Why a step has no meaning. -/
inductive Refusal
  /-- An arm of `exec` without a meaning; none is left.  Safe: it only stops. -/
  | notModelled (mnemonic : String)
  /-- A byte sequence that is no request: shorter or longer than its format (R70, V7 "refuse").
  Raised by `perform`.  Safe: it only stops (log entry 10). -/
  | malformedRequest
  /-- A command table with two entries for one tag (R63, V11 "refuse").  Raised by `performNext`.  Safe: it
  only stops (log entry 12). -/
  | duplicateTag
deriving DecidableEq, Repr

/-- The outcome of a step or of an operation of this block. -/
abbrev Outcome := Host.Outcome State Fault Refusal

/-- A Ring Buffer at power-on: `inited` is false (R15, R33); the other fields are unspecified and
hold values the model names (log entry 7). -/
def Fifo.powerOn : Fifo where
  storage := []
  length := 0
  putIndex := 0
  getIndex := 0
  allowOverwrite := false
  inited := false

/-- A timer entry at power-on: `engaged` is false (R22, R33); the rest as in log entry 7. -/
def Timer.powerOn : Timer where
  planned := false
  deadline := 0
  engaged := false

/-- A channel at power-on: `wireOut` is empty (R27, R33); the application has the given answers ready
for it and has been called by nothing (V1; log entry 7). -/
def Channel.powerOn (cfg : ChannelConfig) (answers : List (List Byte)) : Channel where
  cfg := cfg
  rxf := Fifo.powerOn
  txf := Fifo.powerOn
  tmr := Timer.powerOn
  wireOut := []
  app := { answers := answers, calls := [] }

/-- The state right after power-on (R33, R185) of a machine with the given parameters, launched at
the given value of `now` (R23: "a parameter of the launch"); each channel comes with the answers the
application has ready for it, and the agents issue the given requests. -/
def State.powerOn (cfg : Config) (channels : List (ChannelConfig × List (List Byte))) (now : Time)
    (requests : List (List Byte)) : State where
  cfg := cfg
  now := now
  halted := false
  faultCode := .assertUninit
  chans := channels.map fun c => Channel.powerOn c.1 c.2
  result := none
  requests := requests

/-- Power-on with the default parameters (one channel) and no request issued.  `now` at power-on is
unspecified and must not be taken as 0 (R23): the model names 1000, the start value of the spec's
vector E1 (log entry 7); no statement rests on it. -/
def State.reset : State :=
  State.powerOn Config.default [(ChannelConfig.default, [])] 1000#32 []

end Sys2Proof.Machine
end

