-- ==== Sys2Proof/Machine/Flags.lean ====
section
/-! DEFINITION. The one-bit conditions that are computed and stored nowhere: the status outputs
`empty` and `full` of a Ring Buffer (R18), the comparison of times `reached` (R101) and the firing
condition of a timer (R104, R168).  The block has no condition-code register (R30). -/

namespace Sys2Proof.Machine

/-- `F.empty` (R18). -/
def Fifo.empty (F : Fifo) : Bool := F.length == 0

/-- `F.full` (R18): `length` is the capacity. -/
def Fifo.full (cap : Nat) (F : Fifo) : Bool := F.length == cap

/-- `reached(now, d)`: `(now - d) mod 2^32` is below 2^31 (R101). -/
def reached (now d : Time) : Bool := (now - d).ult Time.half

/-- The timer of a channel is due: engaged, planned, deadline reached (R104, R168). -/
def Timer.due (now : Time) (tmr : Timer) : Bool :=
  tmr.engaged && tmr.planned && reached now tmr.deadline

end Sys2Proof.Machine
end

