-- ==== Sys2Proof/Syntax.lean ====
section
/-! DEFINITION. The 18 operations of the block (`30_encoding.md` R69, `spec/opcode_table.json`),
one constructor per row.  An operation is what the spec reads the word "instruction" as (R1).
The internal event `FIRE` is no operation: it happens only inside `TICK` (R69, R106). -/

namespace Sys2Proof

/-- The FIFO select `f`, bit 4 of the opcode byte in the FIFO group: 0 is `RXF`, 1 is `TXF` (R67). -/
inductive FifoSel
  | rx
  | tx
deriving DecidableEq, Repr

/-- One operation with its operands.  `ch` is the channel byte of the request; `TICK` and `CRC16`
carry it and ignore it (R67). -/
inductive Instr
  /-- `FIFO_INIT f` (R80). -/
  | fifoInit (f : FifoSel) (ch : Byte)
  /-- `FIFO_RESET f` (R81). -/
  | fifoReset (f : FifoSel) (ch : Byte)
  /-- `FIFO_SETOVW f, b` (R82); `b` above 1 is a reserved operand (R70). -/
  | fifoSetOvw (f : FifoSel) (ch : Byte) (b : Byte)
  /-- `PUT f, b` (R83). -/
  | put (f : FifoSel) (ch : Byte) (b : Byte)
  /-- `PUTSPAN f, [d0 ... d(n-1)]` (R84); `n` is the number of data bytes. -/
  | putSpan (f : FifoSel) (ch : Byte) (d : List Byte)
  /-- `GET f` (R85). -/
  | get (f : FifoSel) (ch : Byte)
  /-- `PEEK f` (R86). -/
  | peek (f : FifoSel) (ch : Byte)
  /-- `GETSPAN f, n` (R87). -/
  | getSpan (f : FifoSel) (ch : Byte) (n : Half)
  /-- `SIZE f` (R88). -/
  | size (f : FifoSel) (ch : Byte)
  /-- `TMR_INIT` (R100). -/
  | tmrInit (ch : Byte)
  /-- `TMR_ARM delay` (R102); a delay of 2^31 or more is a reserved operand (R70). -/
  | tmrArm (ch : Byte) (delay : Time)
  /-- `TMR_CANCEL` (R103). -/
  | tmrCancel (ch : Byte)
  /-- `TICK` (R104). -/
  | tick (ch : Byte)
  /-- `CRC16 seed, [d0 ... d(n-1)]` (R116). -/
  | crc16 (ch : Byte) (seed : Half) (d : List Byte)
  /-- `FP_PROCESS` (R128). -/
  | fpProcess (ch : Byte)
  /-- `CH_INIT` (R145). -/
  | chInit (ch : Byte)
  /-- `RXBYTE b` (R146). -/
  | rxByte (ch : Byte) (b : Byte)
  /-- `PUMP k` (R148). -/
  | pump (ch : Byte) (k : Half)
deriving DecidableEq, Repr

end Sys2Proof
end

