-- ==== Sys2Proof/WellFormed.lean ====
section
/-! DEFINITION. Which terms of `Instr` are requests: those whose operands the request encoding can
carry.  The only operand without a width of its own is a data span, whose count `n` is 16 bits
(R67, R84, R116).  A reserved operand VALUE (R70) is encodable, and the block answers it with the
fault `IllegalOperand`; it is therefore well-formed here. -/

namespace Sys2Proof

/-- A data span fits the 16-bit count `n` of formats `S` and `K` (R67). -/
def spanFits (d : List Byte) : Bool := decide (d.length < 65536)

/-- The operation can be written as a request (R67). -/
def Instr.WellFormed : Instr → Bool
  | .fifoInit _ _ => true
  | .fifoReset _ _ => true
  | .fifoSetOvw _ _ _ => true
  | .put _ _ _ => true
  | .putSpan _ _ d => spanFits d
  | .get _ _ => true
  | .peek _ _ => true
  | .getSpan _ _ _ => true
  | .size _ _ => true
  | .tmrInit _ => true
  | .tmrArm _ _ => true
  | .tmrCancel _ => true
  | .tick _ => true
  | .crc16 _ _ d => spanFits d
  | .fpProcess _ => true
  | .chInit _ => true
  | .rxByte _ _ => true
  | .pump _ _ => true

end Sys2Proof
end

