-- ==== Sys2Proof/Decode.lean ====
section
/-! DEFINITION. The request encoding (`30_encoding.md` R67, R69, R70): the opcode map, a decoder that
is total on byte sequences, the encoder, and the little-endian helpers both use (R41 c).  A request
is a whole byte sequence; one that is shorter or longer than its format is no request (R70). -/

namespace Sys2Proof

/-- `le16(v)`: low byte first (`00_scope.md` section 5). -/
def le16 (v : Half) : List Byte := [v.extractLsb' 0 8, v.extractLsb' 8 8]

/-- `le32(v)`: low byte first. -/
def le32 (v : Time) : List Byte :=
  [v.extractLsb' 0 8, v.extractLsb' 8 8, v.extractLsb' 16 8, v.extractLsb' 24 8]

/-- The 16-bit value of two bytes, the low byte given first. -/
def of16 (lo hi : Byte) : Half := hi ++ lo

/-- The 32-bit value of four bytes, the lowest given first. -/
def of32 (b0 b1 b2 b3 : Byte) : Time := (b3 ++ b2) ++ (b1 ++ b0)

/-- The six request formats of R67. -/
inductive Format
  | Z
  | B
  | N
  | S
  | D
  | K
deriving DecidableEq, Repr

/-- The names of the opcode map's rows (R69), one per operation. -/
inductive Op
  | fifoInit
  | fifoReset
  | fifoSetOvw
  | put
  | putSpan
  | get
  | peek
  | getSpan
  | size
  | tmrInit
  | tmrArm
  | tmrCancel
  | tick
  | crc16
  | fpProcess
  | chInit
  | rxByte
  | pump
deriving DecidableEq, Repr

/-- One row of the opcode map: byte 0 of a request belongs to it when `byte0 AND mask = pat`. -/
structure OpcodeRow where
  op : Op
  pat : Byte
  mask : Byte
  format : Format
deriving DecidableEq, Repr

/-- The opcode map of R69; in the FIFO group bit 4 is the FIFO select and the mask leaves it out. -/
def opcodeMap : List OpcodeRow :=
  [⟨.fifoInit, 0x00, 0xEF, .Z⟩, ⟨.fifoReset, 0x01, 0xEF, .Z⟩, ⟨.fifoSetOvw, 0x02, 0xEF, .B⟩,
   ⟨.put, 0x03, 0xEF, .B⟩, ⟨.putSpan, 0x04, 0xEF, .S⟩, ⟨.get, 0x05, 0xEF, .Z⟩,
   ⟨.peek, 0x06, 0xEF, .Z⟩, ⟨.getSpan, 0x07, 0xEF, .N⟩, ⟨.size, 0x08, 0xEF, .Z⟩] ++
  [⟨.tmrInit, 0x20, 0xFF, .Z⟩, ⟨.tmrArm, 0x21, 0xFF, .D⟩, ⟨.tmrCancel, 0x22, 0xFF, .Z⟩,
   ⟨.tick, 0x23, 0xFF, .Z⟩, ⟨.crc16, 0x30, 0xFF, .K⟩, ⟨.fpProcess, 0x40, 0xFF, .Z⟩,
   ⟨.chInit, 0x50, 0xFF, .Z⟩, ⟨.rxByte, 0x51, 0xFF, .B⟩, ⟨.pump, 0x52, 0xFF, .N⟩]

/-- The row an opcode byte belongs to; none when the byte is reserved (R70). -/
def rowOf (byte0 : Byte) : Option OpcodeRow :=
  opcodeMap.find? fun r => byte0 &&& r.mask == r.pat

/-- The FIFO select of an opcode byte, bit 4 (R67). -/
def selOf (byte0 : Byte) : FifoSel := if byte0.getLsbD 4 then .tx else .rx

/-- Format `Z`: no operand bytes. -/
def argsZ (i : Instr) : List Byte → Option Instr
  | [] => some i
  | _ :: _ => none

/-- Format `B`: one operand byte. -/
def argsB (mk : Byte → Instr) : List Byte → Option Instr
  | [b] => some (mk b)
  | _ => none

/-- Format `N`: a 16-bit count. -/
def argsN (mk : Half → Instr) : List Byte → Option Instr
  | [lo, hi] => some (mk (of16 lo hi))
  | _ => none

/-- Format `S`: a 16-bit count `n`, then exactly `n` data bytes. -/
def argsS (mk : List Byte → Instr) : List Byte → Option Instr
  | lo :: hi :: d => if d.length = (of16 lo hi).toNat then some (mk d) else none
  | _ => none

/-- Format `D`: a 32-bit delay. -/
def argsD (mk : Time → Instr) : List Byte → Option Instr
  | [b0, b1, b2, b3] => some (mk (of32 b0 b1 b2 b3))
  | _ => none

/-- Format `K`: a 16-bit seed, a 16-bit count `n`, then exactly `n` data bytes. -/
def argsK (mk : Half → List Byte → Instr) : List Byte → Option Instr
  | s0 :: s1 :: lo :: hi :: d =>
    if d.length = (of16 lo hi).toNat then some (mk (of16 s0 s1) d) else none
  | _ => none

/-- The operation of a row, its operands read in the row's format; none when the operand bytes are
too few or too many (R70). -/
def readOperands (op : Op) (f : FifoSel) (ch : Byte) (args : List Byte) : Option Instr :=
  match op with
  | .fifoInit => argsZ (.fifoInit f ch) args
  | .fifoReset => argsZ (.fifoReset f ch) args
  | .fifoSetOvw => argsB (.fifoSetOvw f ch) args
  | .put => argsB (.put f ch) args
  | .putSpan => argsS (.putSpan f ch) args
  | .get => argsZ (.get f ch) args
  | .peek => argsZ (.peek f ch) args
  | .getSpan => argsN (.getSpan f ch) args
  | .size => argsZ (.size f ch) args
  | .tmrInit => argsZ (.tmrInit ch) args
  | .tmrArm => argsD (.tmrArm ch) args
  | .tmrCancel => argsZ (.tmrCancel ch) args
  | .tick => argsZ (.tick ch) args
  | .crc16 => argsK (.crc16 ch) args
  | .fpProcess => argsZ (.fpProcess ch) args
  | .chInit => argsZ (.chInit ch) args
  | .rxByte => argsB (.rxByte ch) args
  | .pump => argsN (.pump ch) args

/-- What the decoder makes of a byte sequence. -/
inductive Decoded
  /-- An operation (R67, R69). -/
  | request (i : Instr)
  /-- Byte 0 is a reserved opcode: the block answers with the fault `IllegalRequest` (R70). -/
  | reservedOpcode (byte0 : Byte)
  /-- Too short or too long for its format: no request, the block sees nothing (R70, V7). -/
  | malformed
deriving DecidableEq, Repr

/-- The decoder, total on byte sequences.  A reserved opcode has no format, so whatever follows the
channel byte is let be (log entry 8); without a channel byte there is no request at all. -/
def decode : List Byte → Decoded
  | byte0 :: ch :: args =>
    match rowOf byte0 with
    | none => .reservedOpcode byte0
    | some r =>
      match readOperands r.op (selOf byte0) ch args with
      | some i => .request i
      | none => .malformed
  | [] => .malformed
  | [_] => .malformed

/-- The opcode byte of a FIFO operation with function `fn`: bit 4 is the FIFO select (R67). -/
def fifoOpcode (fn : Byte) : FifoSel → Byte
  | .rx => fn
  | .tx => fn ||| 0x10

/-- The 16-bit count of a data span. -/
def spanCount (d : List Byte) : Half := BitVec.ofNat 16 d.length

/-- The request of an operation (R67, R69). -/
def encode : Instr → List Byte
  | .fifoInit f ch => [fifoOpcode 0x00 f, ch]
  | .fifoReset f ch => [fifoOpcode 0x01 f, ch]
  | .fifoSetOvw f ch b => [fifoOpcode 0x02 f, ch, b]
  | .put f ch b => [fifoOpcode 0x03 f, ch, b]
  | .putSpan f ch d => fifoOpcode 0x04 f :: ch :: (le16 (spanCount d) ++ d)
  | .get f ch => [fifoOpcode 0x05 f, ch]
  | .peek f ch => [fifoOpcode 0x06 f, ch]
  | .getSpan f ch n => fifoOpcode 0x07 f :: ch :: le16 n
  | .size f ch => [fifoOpcode 0x08 f, ch]
  | .tmrInit ch => [0x20, ch]
  | .tmrArm ch delay => 0x21 :: ch :: le32 delay
  | .tmrCancel ch => [0x22, ch]
  | .tick ch => [0x23, ch]
  | .crc16 ch seed d => 0x30 :: ch :: (le16 seed ++ le16 (spanCount d) ++ d)
  | .fpProcess ch => [0x40, ch]
  | .chInit ch => [0x50, ch]
  | .rxByte ch b => [0x51, ch, b]
  | .pump ch k => 0x52 :: ch :: le16 k

/-- The row name of an operation. -/
def Instr.op : Instr → Op
  | .fifoInit _ _ => .fifoInit
  | .fifoReset _ _ => .fifoReset
  | .fifoSetOvw _ _ _ => .fifoSetOvw
  | .put _ _ _ => .put
  | .putSpan _ _ _ => .putSpan
  | .get _ _ => .get
  | .peek _ _ => .peek
  | .getSpan _ _ _ => .getSpan
  | .size _ _ => .size
  | .tmrInit _ => .tmrInit
  | .tmrArm _ _ => .tmrArm
  | .tmrCancel _ => .tmrCancel
  | .tick _ => .tick
  | .crc16 _ _ _ => .crc16
  | .fpProcess _ => .fpProcess
  | .chInit _ => .chInit
  | .rxByte _ _ => .rxByte
  | .pump _ _ => .pump

/-- The data bytes an operation carries after its fixed operands (formats `S` and `K`). -/
def Instr.dataLength : Instr → Nat
  | .putSpan _ _ d => d.length
  | .crc16 _ _ d => d.length
  | .fifoInit _ _ => 0
  | .fifoReset _ _ => 0
  | .fifoSetOvw _ _ _ => 0
  | .put _ _ _ => 0
  | .get _ _ => 0
  | .peek _ _ => 0
  | .getSpan _ _ _ => 0
  | .size _ _ => 0
  | .tmrInit _ => 0
  | .tmrArm _ _ => 0
  | .tmrCancel _ => 0
  | .tick _ => 0
  | .fpProcess _ => 0
  | .chInit _ => 0
  | .rxByte _ _ => 0
  | .pump _ _ => 0

/-- The bytes of a request before its data, by format: the "total length" column of R67. -/
def Format.fixedLength : Format → Nat
  | .Z => 2
  | .B => 3
  | .N => 4
  | .S => 4
  | .D => 6
  | .K => 6

/-- The total length of a request whose first bytes are `bytes`, read from the count field where the
format has one (R67). -/
def Format.requestLength (fmt : Format) (bytes : List Byte) : Nat :=
  match fmt with
  | .S => 4 + (of16 (bytes.getD 2 0) (bytes.getD 3 0)).toNat
  | .K => 6 + (of16 (bytes.getD 4 0) (bytes.getD 5 0)).toNat
  | .Z => 2
  | .B => 3
  | .N => 4
  | .D => 6

/-- The first `(nbits + 7) / 8` bytes of a table word, byte 0 the least significant. -/
def wordBytes (nbits w : Nat) : List Byte :=
  (List.range ((nbits + 7) / 8)).map fun k => BitVec.ofNat 8 ((w % 2 ^ nbits) >>> (8 * k))

/-- The request of a table word: its bytes, with zeros for the operand bytes it does not give, up to
the length its format demands.  A reserved opcode gets the two bytes every request has. -/
def tableRequest (nbits w : Nat) : List Byte :=
  let given := wordBytes nbits w
  let len :=
    match rowOf (given.getD 0 0) with
    | some r => r.format.requestLength (given ++ List.replicate 6 0)
    | none => 2
  given ++ List.replicate (len - given.length) 0

/-- The operation the decoder reads from a table word, bit 0 the least significant bit of byte 0. -/
def decodeTableWord (nbits w : Nat) : Option Instr :=
  match decode (tableRequest nbits w) with
  | .request i => some i
  | .reservedOpcode _ => none
  | .malformed => none

end Sys2Proof
end

