-- ==== Sys2Proof/Machine/Operands.lean ====
section
/-! DEFINITION. The operand forms: the reserved operand values (R70), the wire order of a checksum
(R64), the bytes of a tag, and the result bytes handed back to an agent (R68, R165). -/

namespace Sys2Proof.Machine

/-- The policy operand of `FIFO_SETOVW`: 0 or 1; any other value is reserved (R70, R82). -/
def policyOf (b : Byte) : Option Bool :=
  if b = 0 then some false else if b = 1 then some true else none

/-- A delay below 2^31 ms; any other is reserved (R70, R102). -/
def delayLegal (delay : Time) : Bool := delay.ult Time.half

/-- The 4 bytes of a tag in wire order (R63). -/
def tagBytes (t : Tag) : List Byte := [t.b0, t.b1, t.b2, t.b3]

/-- `enc16(v)`: the two checksum bytes in wire order (R64). -/
def enc16 (lsbFirst : Bool) (v : Half) : List Byte :=
  if lsbFirst then le16 v else (le16 v).reverse

/-- `dec16(b0, b1)`: the value of two received checksum bytes, `b0` received first (R64). -/
def dec16 (lsbFirst : Bool) (b0 b1 : Byte) : Half :=
  if lsbFirst then of16 b0 b1 else of16 b1 b0

/-- The number of a fault code (R165). -/
def faultNumber : FaultCode → Byte
  | .assertUninit => 1
  | .assertBadChannel => 2
  | .timerAllocFail => 3
  | .configFrameTooLong => 4
  | .illegalRequest => 5
  | .illegalOperand => 6

/-- The number of a parse outcome (R68). -/
def outcomeNumber : ParseOutcome → Byte
  | .noFrame => 0
  | .dispatch => 1
  | .discard => 2
  | .resync => 3

/-- The data bytes after the status `OK` (R68). -/
def answerBytes : Answer → List Byte
  | .done => []
  | .byte b => [b]
  | .span bs => bs
  | .size n => le16 (BitVec.ofNat 16 n)
  | .fired n => [n]
  | .crc v => le16 v
  | .outcome o => [outcomeNumber o]
  | .moved m => le16 (BitVec.ofNat 16 m)

/-- The bytes of a result: status, then data or fault code (R68). -/
def resultBytes : Result → List Byte
  | .ok a => 0 :: answerBytes a
  | .fail => [1]
  | .fault code => [2, faultNumber code]

end Sys2Proof.Machine
end

