-- ==== Sys2Proof/Machine/Ops.lean ====
section
/-! DEFINITION. The shared operations: storage, Ring Buffer and timer entry; handing back a result;
entering a fault (R166) and the checks every operation makes first (R167); the queue of requests.
There is no return from a fault: the halted state is final (R166). -/

namespace Sys2Proof.Machine

/-! ### Storage (R10, R40): one byte at an index -/

/-- What an index that is not listed reads as: 0, the value `FIFO_INIT` gives every byte (R80).  Before
`FIFO_INIT` the contents are unspecified and no operation reads them (R33; log entry 18). -/
def unlistedByte : Byte := 0

/-- `MemRead(F, a, 1)`: the byte at an index. -/
def Memory.read : Memory → Nat → Byte
  | [], _ => unlistedByte
  | (x, w) :: rest, a => if x = a then w else Memory.read rest a

/-- The list with the cell `(a, v)` put in front, unless it says nothing new. -/
def Memory.cons (a : Nat) (v : Byte) (rest : Memory) : Memory :=
  if v = unlistedByte then rest else (a, v) :: rest

/-- `MemWrite(F, a, 1, v)`: the byte at an index replaced, the canonical form kept. -/
def Memory.write : Memory → Nat → Byte → Memory
  | [], a, v => Memory.cons a v []
  | (x, w) :: rest, a, v =>
    if a < x then Memory.cons a v ((x, w) :: rest)
    else if a = x then Memory.cons a v rest
    else (x, w) :: Memory.write rest a v

/-- Every cell stands above the index `a`. -/
def Memory.above (a : Nat) (m : Memory) : Bool := m.all fun c => decide (a < c.1)

/-- The canonical form: indices strictly rising, and no cell equal to what an unlisted index reads
as.  Equal storages are then equal lists. -/
def Memory.wf : Memory → Bool
  | [] => true
  | (x, w) :: rest => w != unlistedByte && Memory.above x rest && Memory.wf rest

/-- Every cell stands below `cap`: the storage has indices 0 to `C` - 1 only (R32). -/
def Memory.below (cap : Nat) (m : Memory) : Bool := m.all fun c => decide (c.1 < cap)

/-! ### Ring Buffer (R10 to R18, R80 to R88) -/

/-- The circular advance of a ring index (R12, R13, R56 a). -/
def nextIndex (cap i : Nat) : Nat := (i + 1) % cap

/-- Both indices name storage bytes that exist (R16 I2, R32). -/
def Fifo.addressable (cap : Nat) (F : Fifo) : Bool :=
  decide (F.putIndex < cap) && decide (F.getIndex < cap)

/-- `contents(F)`: the queued bytes, oldest first (R17). -/
def Fifo.contents (cap : Nat) (F : Fifo) : List Byte :=
  (List.range F.length).map fun k => F.storage.read ((F.getIndex + k) % cap)

/-- The state change of `FIFO_INIT` (R80): every byte 0, so no byte is listed. -/
def Fifo.init (_F : Fifo) : Fifo where
  storage := []
  length := 0
  putIndex := 0
  getIndex := 0
  allowOverwrite := false
  inited := true

/-- The state change of `FIFO_RESET` (R81): storage and `inited` are kept. -/
def Fifo.reset (F : Fifo) : Fifo :=
  { F with length := 0, putIndex := 0, getIndex := 0, allowOverwrite := false }

/-- The state change of `FIFO_SETOVW` (R82). -/
def Fifo.setOverwrite (F : Fifo) (policy : Bool) : Fifo := { F with allowOverwrite := policy }

/-- The byte stored at `putIndex`, and `putIndex` advanced (R83). -/
def Fifo.storeAtPut (cap : Nat) (F : Fifo) (b : Byte) : Fifo :=
  { F with storage := F.storage.write F.putIndex b, putIndex := nextIndex cap F.putIndex }

/-- The oldest byte dropped by advancing `getIndex`, `length` left alone (R83, overwriting case). -/
def Fifo.dropOldest (cap : Nat) (F : Fifo) : Fifo :=
  { F with getIndex := nextIndex cap F.getIndex }

/-- `PUT` (R83): the new state, or none for `FAIL`, in which case nothing changes. -/
def Fifo.put (cap : Nat) (F : Fifo) (b : Byte) : Option Fifo :=
  if F.length < cap then some { F.storeAtPut cap b with length := F.length + 1 }
  else if F.allowOverwrite then some ((F.dropOldest cap).storeAtPut cap b)
  else none

/-- The puts of a span in order (R84); each succeeds when the span was accepted. -/
def Fifo.putAll (cap : Nat) (F : Fifo) : List Byte → Fifo
  | [] => F
  | b :: rest => Fifo.putAll cap ((F.put cap b).getD F) rest

/-- `PUTSPAN` (R84): one capacity check, then the puts; none for `FAIL`. -/
def Fifo.putSpan (cap : Nat) (F : Fifo) (d : List Byte) : Option Fifo :=
  if !F.allowOverwrite && decide (cap < F.length + d.length) then none
  else some (F.putAll cap d)

/-- The oldest byte, at `getIndex` (R85, R86). -/
def Fifo.oldest (F : Fifo) : Byte := F.storage.read F.getIndex

/-- The state change of a successful `GET` (R85); the storage byte is not cleared. -/
def Fifo.dropped (cap : Nat) (F : Fifo) : Fifo :=
  { F with getIndex := nextIndex cap F.getIndex, length := F.length - 1 }

/-- `GET` (R85): the byte and the new state, or none for `FAIL`. -/
def Fifo.get (cap : Nat) (F : Fifo) : Option (Byte × Fifo) :=
  if F.length = 0 then none else some (F.oldest, F.dropped cap)

/-- `PEEK` (R86): the byte, or none for `FAIL`. -/
def Fifo.peek (F : Fifo) : Option Byte := if F.length = 0 then none else some F.oldest

/-- The gets of a span in order (R87): the bytes, oldest first, and the state after them. -/
def Fifo.takeAll (cap : Nat) : Nat → Fifo → List Byte × Fifo
  | 0, F => ([], F)
  | n + 1, F => (F.oldest :: (Fifo.takeAll cap n (F.dropped cap)).1,
      (Fifo.takeAll cap n (F.dropped cap)).2)

/-- `GETSPAN` (R87): the bytes and the new state, or none for `FAIL`. -/
def Fifo.getSpan (cap : Nat) (F : Fifo) (n : Nat) : Option (List Byte × Fifo) :=
  if F.length < n then none else some (Fifo.takeAll cap n F)

/-! ### Timer entry (R100 to R106) -/

/-- The state change of the first `TMR_INIT` (R100). -/
def Timer.engage (now : Time) (_tmr : Timer) : Timer where
  planned := false
  deadline := now - Time.half
  engaged := true

/-- The state change of `TMR_ARM` (R102): the deadline is replaced, not stacked. -/
def Timer.arm (now delay : Time) (tmr : Timer) : Timer :=
  { tmr with planned := true, deadline := now + delay }

/-- The state change of `TMR_CANCEL` (R103). -/
def Timer.cancel (now : Time) (tmr : Timer) : Timer :=
  { tmr with planned := false, deadline := now - Time.half }

/-- The timer entry after `FIRE` (R106): un-armed, the deadline kept. -/
def Timer.disarm (tmr : Timer) : Timer := { tmr with planned := false }

/-! ### Channel -/

/-- The Ring Buffer the FIFO select names (R67). -/
def Channel.fifo (c : Channel) : FifoSel → Fifo
  | .rx => c.rxf
  | .tx => c.txf

/-- The channel with that Ring Buffer replaced. -/
def Channel.setFifo (c : Channel) (f : FifoSel) (F : Fifo) : Channel :=
  match f with
  | .rx => { c with rxf := F }
  | .tx => { c with txf := F }

/-- `TMR_INIT` on a channel (R100): nothing on an engaged timer; none when no timer slot can be had. -/
def Channel.tmrInit (now : Time) (c : Channel) : Option Channel :=
  if c.tmr.engaged then some c
  else if c.cfg.timerSlot then some { c with tmr := c.tmr.engage now }
  else none

/-- `FIRE` on a channel whose `RXF` is initialised (R106): `FIFO_RESET` on `RXF`, the timer un-armed. -/
def Channel.fire (c : Channel) : Channel := { c with rxf := c.rxf.reset, tmr := c.tmr.disarm }

/-! ### Results and faults -/

/-- The state with a result handed to the issuing agent and nothing else changed. -/
def State.answered (s : State) (r : Result) : State := { s with result := some r }

/-- The state with channel `ch` replaced and a result handed back. -/
def State.committed (s : State) (ch : Byte) (c : Channel) (r : Result) : State :=
  { s with chans := s.chans.set ch.toNat c, result := some r }

/-- Fault entry (R166), the block's only exception: `halted`, the code, the result `FAULT(code)`.  It
saves nothing else and there is no handler and no return. -/
def State.faulted (s : State) (code : FaultCode) : State :=
  { s with halted := true, faultCode := code, result := some (.fault code) }

/-- Hand back a result and change nothing else. -/
def answer (s : State) (r : Result) : Outcome := .next (s.answered r)

/-- Replace channel `ch` and hand back a result. -/
def commit (s : State) (ch : Byte) (c : Channel) (r : Result) : Outcome :=
  .next (s.committed ch c r)

/-- `raise Fault(code)` (R166). -/
def raiseFault (s : State) (code : FaultCode) : Outcome := .next (s.faulted code)

/-! ### The checks before an operation (R89, R167), in the order of R167 -/

/-- Check 1: a halted block answers `FAULT(faultCode)` and changes nothing (R166). -/
def unlessHalted (s : State) (k : Outcome) : Outcome :=
  if s.halted then answer s (.fault s.faultCode) else k

/-- Checks 1 and 3: not halted, and the channel exists, else `AssertBadChannel` (R165). -/
def onChannel (s : State) (ch : Byte) (k : Channel → Outcome) : Outcome :=
  unlessHalted s <|
    match s.chans[ch.toNat]? with
    | none => raiseFault s .assertBadChannel
    | some c => k c

/-- Check 5 for one unit: initialised, else `AssertUninit` (R165). -/
def whenInited (s : State) (inited : Bool) (k : Outcome) : Outcome :=
  if inited then k else raiseFault s .assertUninit

/-- Checks 1, 3 and 5 of a FIFO operation other than `FIFO_INIT` (R89). -/
def onFifo (s : State) (f : FifoSel) (ch : Byte) (k : Channel → Fifo → Outcome) : Outcome :=
  onChannel s ch fun c => whenInited s (c.fifo f).inited (k c (c.fifo f))

/-- The storage accesses that follow are to indices that exist (R32). -/
def whenAddressable (reachable : Bool) (k : Outcome) : Outcome :=
  if reachable then k else .fault .storageIndexOutOfRange

/-- The checks of a FIFO operation that reads or writes storage. -/
def onStorage (s : State) (f : FifoSel) (ch : Byte) (k : Channel → Fifo → Outcome) : Outcome :=
  onFifo s f ch fun c F => whenAddressable (F.addressable s.cfg.capacity) (k c F)

/-- The answer of the decoder to a reserved opcode: `IllegalRequest`, after check 1 (R70, R167). -/
def answerReserved (s : State) : Outcome := unlessHalted s (raiseFault s .illegalRequest)

/-! ### Configuration and requests -/

/-- A command table has at most one entry per tag (R63, V11). -/
def tableLegal (table : List TableEntry) : Bool := decide ((table.map TableEntry.tag).Nodup)

/-- No command table has two entries for one tag; such a configuration is refused (V11). -/
def State.tablesLegal (s : State) : Bool := s.chans.all fun c => tableLegal c.cfg.table

/-- The parameters lie in the legal ranges of R3, R5 and R7 and every table is legal (R63).  A step
does not ask for the ranges: the spec's own vectors leave that of `C` (log entry 9). -/
def State.legal (s : State) : Bool :=
  decide (6 ≤ s.cfg.capacity) && decide (s.cfg.capacity ≤ 65535) && delayLegal s.cfg.idleDelay &&
    decide (1 ≤ s.chans.length) && decide (s.chans.length ≤ 256) && s.tablesLegal

/-- The next request in the total order (R49), and the state without it; none when no agent has
issued one. -/
def fetchRequest (s : State) : Option (List Byte × State) :=
  match s.requests with
  | [] => none
  | r :: rest => some (r, { s with requests := rest })

/-- The state in which `r` is the next request to be performed. -/
def State.withRequest (s : State) (r : List Byte) : State := { s with requests := r :: s.requests }

/-- The next state of an outcome, if it is one. -/
def nextOf : Outcome → Option State
  | .next s => some s
  | .fault _ => none
  | .refused _ => none

end Sys2Proof.Machine
end

