-- ==== Sys2Proof/Machine/Crc.lean ====
section
/-! DEFINITION. The 16-bit checksum generator (`42_crc16.md`): the default algorithm, the checksum
function of a configuration, and `CRC16`. -/

namespace Sys2Proof.Machine

/-- One shift of the default algorithm (R117): the reflected polynomial 0xA001 when bit 0 is set. -/
def crcShift (crc : Half) : Half :=
  if crc.getLsbD 0 then (crc >>> 1) ^^^ 0xA001#16 else crc >>> 1

/-- `n` shifts. -/
def crcShifts : Nat → Half → Half
  | 0, crc => crc
  | n + 1, crc => crcShifts n (crcShift crc)

/-- One byte of the default algorithm (R117): zero-extended and xored in, then 8 shifts. -/
def crcByte (crc : Half) (b : Byte) : Half := crcShifts 8 (crc ^^^ b.setWidth 16)

/-- The default algorithm (R117), CRC-16/MODBUS.  PRESUMED by the spec itself (GK1; log entry 17). -/
def crcModbus (bytes : List Byte) (seed : Half) : Half := bytes.foldl crcByte seed

/-- The checksum function of the configuration (R6, R115). -/
def crc16 (alg : Checksum) (bytes : List Byte) (seed : Half) : Half :=
  match alg with
  | .modbus => crcModbus bytes seed
  | .custom id => Config.customCrc16 id bytes seed

/-- `CRC16 seed, d` (R116): needs no initialisation, changes nothing, ignores the channel byte. -/
def execCrc16 (_ch : Byte) (seed : Half) (d : List Byte) (s : State) : Outcome :=
  unlessHalted s (answer s (.ok (.crc (crc16 s.cfg.checksum d seed))))

end Sys2Proof.Machine
end

