-- ==== Sys2Proof/Machine/Fifo.lean ====
section
/-! DEFINITION. The Ring Buffer operations (`40_fifo.md`): `FIFO_INIT`, `FIFO_RESET`, `FIFO_SETOVW`,
`PUT`, `PUTSPAN`, `GET`, `PEEK`, `GETSPAN`, `SIZE`. -/

namespace Sys2Proof.Machine

/-- `FIFO_INIT f` (R80): the one operation allowed on a Ring Buffer that is not initialised. -/
def execFifoInit (f : FifoSel) (ch : Byte) (s : State) : Outcome :=
  onChannel s ch fun c => commit s ch (c.setFifo f (c.fifo f).init) (.ok .done)

/-- `FIFO_RESET f` (R81). -/
def execFifoReset (f : FifoSel) (ch : Byte) (s : State) : Outcome :=
  onFifo s f ch fun c F => commit s ch (c.setFifo f F.reset) (.ok .done)

/-- `FIFO_SETOVW f, b` (R82): the reserved operand is checked before `inited` (R89, C8). -/
def execFifoSetOvw (f : FifoSel) (ch : Byte) (b : Byte) (s : State) : Outcome :=
  onChannel s ch fun c =>
    match policyOf b with
    | none => raiseFault s .illegalOperand
    | some policy =>
      whenInited s (c.fifo f).inited
        (commit s ch (c.setFifo f ((c.fifo f).setOverwrite policy)) (.ok .done))

/-- `PUT f, b` (R83). -/
def execPut (f : FifoSel) (ch : Byte) (b : Byte) (s : State) : Outcome :=
  onStorage s f ch fun c F =>
    match F.put s.cfg.capacity b with
    | none => answer s .fail
    | some F' => commit s ch (c.setFifo f F') (.ok .done)

/-- `PUTSPAN f, d` (R84): all or nothing, atomic as a whole (R48). -/
def execPutSpan (f : FifoSel) (ch : Byte) (d : List Byte) (s : State) : Outcome :=
  onStorage s f ch fun c F =>
    match F.putSpan s.cfg.capacity d with
    | none => answer s .fail
    | some F' => commit s ch (c.setFifo f F') (.ok .done)

/-- `GET f` (R85). -/
def execGet (f : FifoSel) (ch : Byte) (s : State) : Outcome :=
  onStorage s f ch fun c F =>
    match F.get s.cfg.capacity with
    | none => answer s .fail
    | some (b, F') => commit s ch (c.setFifo f F') (.ok (.byte b))

/-- `PEEK f` (R86): no state change in either case. -/
def execPeek (f : FifoSel) (ch : Byte) (s : State) : Outcome :=
  onStorage s f ch fun _ F =>
    match F.peek with
    | none => answer s .fail
    | some b => answer s (.ok (.byte b))

/-- `GETSPAN f, n` (R87): all or nothing, atomic as a whole (R48). -/
def execGetSpan (f : FifoSel) (ch : Byte) (n : Half) (s : State) : Outcome :=
  onStorage s f ch fun c F =>
    match F.getSpan s.cfg.capacity n.toNat with
    | none => answer s .fail
    | some (bs, F') => commit s ch (c.setFifo f F') (.ok (.span bs))

/-- `SIZE f` (R88). -/
def execSize (f : FifoSel) (ch : Byte) (s : State) : Outcome :=
  onFifo s f ch fun _ F => answer s (.ok (.size F.length))

end Sys2Proof.Machine
end

