-- ==== Sys2Proof/Machine/Parser.lean ====
section
/-! DEFINITION. The frame parser and dispatcher (`43_flowparser.md`): lookup in the command table, the
phases, the wire frame (`30_encoding.md` R61 to R66), the handler oracle and `FP_PROCESS`.  The parser
keeps no state between two operations (R25). -/

namespace Sys2Proof.Machine

/-- `TABLE(t)` (R125): the entry whose key equals the tag byte for byte. -/
def lookup (table : List TableEntry) (t : Tag) : Option TableEntry :=
  table.find? fun e => e.tag == t

/-- The total length of an entry's frame, `L = 6 + N` (R61, R62, R56 d). -/
def frameLength (e : TableEntry) : Nat := 6 + e.payloadLen

/-- The phases of the parser (R126); `unknownTag` is the framing-error branch of `AwaitingTag`. -/
inductive Phase
  | awaitingTag
  | unknownTag
  | awaitingPayload (e : TableEntry)
  | awaitingChecksum (e : TableEntry)
  | validating (e : TableEntry)
deriving DecidableEq, Repr

/-- The phase of a recognised tag with `len` bytes queued (R126). -/
def phaseOfEntry (e : TableEntry) (len : Nat) : Phase :=
  if len < 4 + e.payloadLen then .awaitingPayload e
  else if len < frameLength e then .awaitingChecksum e
  else .validating e

/-- The phase, a function of the queued bytes and the table alone (R126). -/
def phaseOf (table : List TableEntry) (q : List Byte) : Phase :=
  match q with
  | b0 :: b1 :: b2 :: b3 :: _ =>
    match lookup table ⟨b0, b1, b2, b3⟩ with
    | none => .unknownTag
    | some e => phaseOfEntry e q.length
  | [] => .awaitingTag
  | [_] => .awaitingTag
  | [_, _] => .awaitingTag
  | [_, _, _] => .awaitingTag

/-- The checksum of a frame's tag and payload (R65). -/
def frameChecksum (cfg : Config) (covered : List Byte) : Half :=
  crc16 cfg.checksum covered cfg.crcSeed

/-- A frame with tag `t` and the given payload: tag, payload, checksum in wire order (R61, R65, R66). -/
def encodeFrame (cfg : Config) (t : Tag) (payload : List Byte) : List Byte :=
  let covered := tagBytes t ++ payload
  covered ++ enc16 cfg.crcLsbFirst (frameChecksum cfg covered)

/-- The checksum field of a frame: the value of its last two bytes (R64). -/
def frameField (cfg : Config) (fr : List Byte) : Half :=
  dec16 cfg.crcLsbFirst (fr.getD (fr.length - 2) 0) (fr.getD (fr.length - 1) 0)

/-- The frame is accepted: all 16 bits of the checksum agree (R65, R130). -/
def frameValid (cfg : Config) (fr : List Byte) : Bool :=
  frameChecksum cfg (fr.take (fr.length - 2)) == frameField cfg fr

/-- The payload of a frame, bytes 4 to `L - 3` (R61). -/
def framePayload (fr : List Byte) : List Byte := (fr.take (fr.length - 2)).drop 4

/-- The handler oracle (R133) on the channel of index `k`: from handler, tag, payload and the
application's state for that channel to the result bytes and that state after the call.  The next of
the written-out answers, or the free value where none is left (log entry 6); the call is recorded. -/
def callHandler (k h : Nat) (t : Tag) (payload : List Byte) (app : App) : List Byte × App :=
  let res := app.answers.headD (Config.handlerAnswer k h t payload app.calls)
  (res, { answers := app.answers.tail, calls := app.calls ++ [⟨h, t, payload, res⟩] })

/-- A frame that passed validation is dispatched (R132, R133, R135): the handler runs, the response is
queued in `TXF` whole or dropped whole, the outcome is `Dispatch` either way.  Only the channel itself
changes, the application's state for it included (R54). -/
def dispatchFrame (s : State) (ch : Byte) (c : Channel) (e : TableEntry) (fr : List Byte) : Outcome :=
  let called := callHandler ch.toNat e.handler e.tag (framePayload fr) c.app
  let response := encodeFrame s.cfg e.tag called.1
  let txf := (c.txf.putSpan s.cfg.capacity response).getD c.txf
  commit s ch { c with txf := txf, app := called.2 } (.ok (.outcome .dispatch))

/-- A complete candidate frame is consumed, then dispatched or discarded (R128, R130, R131). -/
def consumeFrame (s : State) (ch : Byte) (c : Channel) (e : TableEntry) : Outcome :=
  let taken := Fifo.takeAll s.cfg.capacity (frameLength e) c.rxf
  let c' := { c with rxf := taken.2 }
  if frameValid s.cfg taken.1 then dispatchFrame s ch c' e taken.1
  else commit s ch c' (.ok (.outcome .discard))

/-- `FP_PROCESS` (R128): one step of the parser on channel `ch`. -/
def execFpProcess (ch : Byte) (s : State) : Outcome :=
  onChannel s ch fun c =>
    whenInited s (c.rxf.inited && c.txf.inited) <|
      whenAddressable (c.rxf.addressable s.cfg.capacity && c.txf.addressable s.cfg.capacity) <|
        match phaseOf c.cfg.table (c.rxf.contents s.cfg.capacity) with
        | .awaitingTag => answer s (.ok (.outcome .noFrame))
        | .awaitingPayload _ => answer s (.ok (.outcome .noFrame))
        | .awaitingChecksum _ => answer s (.ok (.outcome .noFrame))
        | .unknownTag =>
          commit s ch { c with rxf := c.rxf.dropped s.cfg.capacity } (.ok (.outcome .resync))
        | .validating e => consumeFrame s ch c e

end Sys2Proof.Machine
end

