-- ==== Sys2Proof/Machine/Timer.lean ====
section
/-! DEFINITION. The idle-timeout timer (`41_timer.md`): `TMR_INIT`, `TMR_ARM`, `TMR_CANCEL`, `TICK`, and
the internal event `FIRE` inside `TICK`. -/

namespace Sys2Proof.Machine

/-- `TMR_INIT` (R100): nothing on an engaged timer, `TimerAllocFail` without a timer slot. -/
def execTmrInit (ch : Byte) (s : State) : Outcome :=
  onChannel s ch fun c =>
    match c.tmrInit s.now with
    | none => raiseFault s .timerAllocFail
    | some c' => commit s ch c' (.ok .done)

/-- `TMR_ARM delay` (R102): the reserved operand is checked before `engaged` (R167). -/
def execTmrArm (ch : Byte) (delay : Time) (s : State) : Outcome :=
  onChannel s ch fun c =>
    if delayLegal delay then
      whenInited s c.tmr.engaged
        (commit s ch { c with tmr := c.tmr.arm s.now delay } (.ok .done))
    else raiseFault s .illegalOperand

/-- `TMR_CANCEL` (R103). -/
def execTmrCancel (ch : Byte) (s : State) : Outcome :=
  onChannel s ch fun c =>
    whenInited s c.tmr.engaged
      (commit s ch { c with tmr := c.tmr.cancel s.now } (.ok .done))

/-- The firing decisions of `TICK` over the channels in index order (R104, R105): the channels after
them, and the number that fired; the Boolean says that a `FIRE` met an uninitialised `RXF`, which
ends the loop with the channels before it fired and the rest not looked at (R104, R106, C9). -/
def fireDue (now : Time) : List Channel → List Channel × Nat × Bool
  | [] => ([], 0, false)
  | c :: rest =>
    if c.tmr.due now then
      if c.rxf.inited then
        let r := fireDue now rest
        (c.fire :: r.1, r.2.1 + 1, r.2.2)
      else (c :: rest, 0, true)
    else
      let r := fireDue now rest
      (c :: r.1, r.2.1, r.2.2)

/-- `TICK` (R104): `now` advances always; the firing decisions are taken unless the block is halted,
where `TICK` answers `OK 0` (R166).  The channel byte is ignored. -/
def execTick (_ch : Byte) (s : State) : Outcome :=
  let now' := s.now + 1#32
  if s.halted then answer { s with now := now' } (.ok (.fired 0))
  else
    let r := fireDue now' s.chans
    let s' := { s with now := now', chans := r.1 }
    if r.2.2 then raiseFault s' .assertUninit
    else answer s' (.ok (.fired (BitVec.ofNat 8 r.2.1)))

end Sys2Proof.Machine
end

