-- ==== Sys2Proof/Machine/Transport.lean ====
section
/-! DEFINITION. Channel initialisation, byte reception and the transport pump (`44_transport.md`):
`CH_INIT`, `RXBYTE`, `PUMP`. -/

namespace Sys2Proof.Machine

/-- Every frame of the table fits the capacity: `6 + N <= C` (R72, R145). -/
def tableFits (cap : Nat) (table : List TableEntry) : Bool :=
  table.all fun e => decide (frameLength e ≤ cap)

/-- The two `FIFO_INIT` of `CH_INIT` (R145). -/
def Channel.initFifos (c : Channel) : Channel := { c with rxf := c.rxf.init, txf := c.txf.init }

/-- `CH_INIT` (R145): table check, `FIFO_INIT RX`, `FIFO_INIT TX`, `TMR_INIT`.  A `TimerAllocFail` is
raised after both Ring Buffers are initialised, and that change stays (R166). -/
def execChInit (ch : Byte) (s : State) : Outcome :=
  onChannel s ch fun c =>
    if tableFits s.cfg.capacity c.cfg.table then
      match c.initFifos.tmrInit s.now with
      | none =>
        raiseFault { s with chans := s.chans.set ch.toNat c.initFifos } .timerAllocFail
      | some c' => commit s ch c' (.ok .done)
    else raiseFault s .configFrameTooLong

/-- `RXBYTE b` (R146): the byte is put into `RXF` and the timer armed with `IDLE_DELAY_MS`, also when
the put fails and the byte is lost (R147). -/
def execRxByte (ch : Byte) (b : Byte) (s : State) : Outcome :=
  onChannel s ch fun c =>
    whenInited s (c.rxf.inited && c.tmr.engaged) <|
      whenAddressable (c.rxf.addressable s.cfg.capacity) <|
        let armed := { c with tmr := c.tmr.arm s.now s.cfg.idleDelay }
        match c.rxf.put s.cfg.capacity b with
        | none => commit s ch armed .fail
        | some F => commit s ch { armed with rxf := F } (.ok .done)

/-- `PUMP k` (R148): the oldest `min(k, TXF.length)` bytes go to the peripheral, in order. -/
def execPump (ch : Byte) (k : Half) (s : State) : Outcome :=
  onChannel s ch fun c =>
    whenInited s c.txf.inited <|
      whenAddressable (c.txf.addressable s.cfg.capacity) <|
        let m := min k.toNat c.txf.length
        let taken := Fifo.takeAll s.cfg.capacity m c.txf
        commit s ch { c with txf := taken.2, wireOut := c.wireOut ++ taken.1 } (.ok (.moved m))

end Sys2Proof.Machine
end

