-- ==== Sys2Proof/Machine/Dispatch.lean ====
section
/-! DEFINITION. The meaning of every operation: one arm per constructor of `Instr`. -/

namespace Sys2Proof.Machine

def exec (i : Instr) (s : State) : Host.Outcome State Fault Refusal :=
  match i with
  | .fifoInit f ch => Sys2Proof.Machine.execFifoInit f ch s
  | .fifoReset f ch => Sys2Proof.Machine.execFifoReset f ch s
  | .fifoSetOvw f ch b => Sys2Proof.Machine.execFifoSetOvw f ch b s
  | .put f ch b => Sys2Proof.Machine.execPut f ch b s
  | .putSpan f ch d => Sys2Proof.Machine.execPutSpan f ch d s
  | .get f ch => Sys2Proof.Machine.execGet f ch s
  | .peek f ch => Sys2Proof.Machine.execPeek f ch s
  | .getSpan f ch n => Sys2Proof.Machine.execGetSpan f ch n s
  | .size f ch => Sys2Proof.Machine.execSize f ch s
  | .tmrInit ch => Sys2Proof.Machine.execTmrInit ch s
  | .tmrArm ch delay => Sys2Proof.Machine.execTmrArm ch delay s
  | .tmrCancel ch => Sys2Proof.Machine.execTmrCancel ch s
  | .tick ch => Sys2Proof.Machine.execTick ch s
  | .crc16 ch seed d => Sys2Proof.Machine.execCrc16 ch seed d s
  | .fpProcess ch => Sys2Proof.Machine.execFpProcess ch s
  | .chInit ch => Sys2Proof.Machine.execChInit ch s
  | .rxByte ch b => Sys2Proof.Machine.execRxByte ch b s
  | .pump ch k => Sys2Proof.Machine.execPump ch k s

end Sys2Proof.Machine
end

