-- ==== Sys2Proof/Machine/Requests.lean ====
section
/-! DEFINITION. Performing requests: one request decoded and performed as one atomic transition (R48),
and the next one in the total order of R49. -/

namespace Sys2Proof.Machine

/-- The request `r` performed: its operation, or the fault of a reserved opcode (R70).  A byte sequence
that is no request is refused (R70, V7; log entry 10). -/
def perform (r : List Byte) (s : State) : Outcome :=
  match Sys2Proof.decode r with
  | .request i => exec i s
  | .reservedOpcode _ => answerReserved s
  | .malformed => .refused .malformedRequest

/-- The next request performed.  Without a request nothing happens (R34; log entry 2).  A command table
with two entries for one tag is refused (V11; log entry 12). -/
def performNext (s : State) : Outcome :=
  if s.tablesLegal then
    match fetchRequest s with
    | none => .next s
    | some (r, s') => perform r s'
  else .refused .duplicateTag

end Sys2Proof.Machine
end

