-- ==== Sys2Proof/Machine/Step.lean ====
section
/-! DEFINITION. One step of the block: the next request in the total order of R49 is decoded and
performed as one atomic transition (R48).  The block fetches no program (R29): what it performs is
what the agents have issued. -/

namespace Sys2Proof.Machine

/-- One step (log entry 2). -/
def step (s : State) : Host.Outcome State Fault Refusal := performNext s

/-- `s` with the request of a table word issued as the next one to be performed. -/
def State.withFetchWord (s : State) (nbits w : Nat) : State :=
  s.withRequest (Sys2Proof.tableRequest nbits w)

end Sys2Proof.Machine
end

