-- ==== Sys2Proof/Machine/Pseudo.lean ====
section
/-! DEFINITION. Sequences of operations (`30_encoding.md` R74): the pseudo-operations with their
expansions.  They are notation for sequences, not operations: between their parts other agents'
operations may come, which the sequences written here leave out. -/

namespace Sys2Proof.Machine

/-- A sequence of operations performed one after another; it stops where one does not answer a next
state. -/
def execList : List Instr → State → Outcome
  | [], s => .next s
  | i :: rest, s =>
    match exec i s with
    | .next s' => execList rest s'
    | .fault r => .fault r
    | .refused r => .refused r

/-- The results of a sequence of operations, in order, and the state after it; none where one of them
does not answer a next state. -/
def runResults : List Instr → State → Option (List (Option Result) × State)
  | [], s => some ([], s)
  | i :: rest, s =>
    match exec i s with
    | .next s' => (runResults rest s').map fun r => (s'.result :: r.1, r.2)
    | .fault _ => none
    | .refused _ => none

/-- The last result ends `PROCESS_ALL`: `NoFrame` or `FAULT` (R74). -/
def endsProcessing (s : State) : Bool :=
  match s.result with
  | some (.ok (.outcome .noFrame)) => true
  | some (.fault _) => true
  | _ => false

/-- `FP_PROCESS` repeated until its result is `NoFrame` or `FAULT`, at most `fuel` times. -/
def processLoop : Nat → Byte → State → Outcome
  | 0, _, s => .next s
  | fuel + 1, ch, s =>
    match exec (.fpProcess ch) s with
    | .next s' => if endsProcessing s' then .next s' else processLoop fuel ch s'
    | .fault r => .fault r
    | .refused r => .refused r

/-- The number of bytes queued in `RXF` of a channel; 0 where there is no such channel. -/
def rxLength (s : State) (ch : Byte) : Nat :=
  match s.chans[ch.toNat]? with
  | some c => c.rxf.length
  | none => 0

/-- `PROCESS_ALL` (R74): it ends within `RXF.length + 1` invocations (R134). -/
def processAll (ch : Byte) (s : State) : Outcome := processLoop (rxLength s ch + 1) ch s

/-- The pseudo-operations of R74. -/
inductive Pseudo
  | setOvw (f : FifoSel)
  | clrOvw (f : FifoSel)
  | feed (bytes : List Byte)
  | rxSpan (bytes : List Byte)
  | advance (t : Nat)
  | processAll
  | txReady (k : Half)
  | service (b : Byte) (k : Half)
deriving DecidableEq, Repr

/-- The expansion of a pseudo-operation on channel `ch`, performed from `s` (R74). -/
def Pseudo.run (p : Pseudo) (ch : Byte) (s : State) : Outcome :=
  match p with
  | .setOvw f => execList [.fifoSetOvw f ch 1] s
  | .clrOvw f => execList [.fifoSetOvw f ch 0] s
  | .feed bytes => execList (bytes.map (.rxByte ch)) s
  | .rxSpan bytes => execList [.putSpan .rx ch bytes, .tmrArm ch s.cfg.idleDelay] s
  | .advance t => execList (List.replicate t (.tick ch)) s
  | .processAll => Sys2Proof.Machine.processAll ch s
  | .txReady k => execList [.pump ch k] s
  | .service b k =>
    match exec (.rxByte ch b) s with
    | .next s1 =>
      match Sys2Proof.Machine.processAll ch s1 with
      | .next s2 => exec (.pump ch k) s2
      | .fault r => .fault r
      | .refused r => .refused r
    | .fault r => .fault r
    | .refused r => .refused r

end Sys2Proof.Machine
end

