-- ==== Sys2Proof/Safety.lean ====
section
/-! DEFINITION. What claims about the block are stated in: the invariants of an initialised Ring
Buffer (R16) and of a machine, the invariant of pending deadlines (R105), a channel that is up
(R186) and a channel that is quiescent (R188), two blocks that hold the same (R17), and a safe state (R166: "the halted state is ... never
a good end of a run"). -/

namespace Sys2Proof.Machine

/-- The invariants of a Ring Buffer: the storage has its canonical form and holds indices 0 to
`C` - 1 only (R10, R32), and once it is initialised (I1), (I2) and (I3) of R16 hold. -/
def Fifo.wf (cap : Nat) (F : Fifo) : Bool :=
  F.storage.wf && F.storage.below cap &&
    (!F.inited || (decide (F.length ≤ cap) && F.addressable cap &&
      F.putIndex == (F.getIndex + F.length) % cap))

/-- Both Ring Buffers of a channel meet their invariants. -/
def Channel.wf (cap : Nat) (c : Channel) : Bool := c.rxf.wf cap && c.txf.wf cap

/-- The invariant of the machine: some capacity, an idle delay in its range (R5), tables without a
repeated tag (R63), and every channel's Ring Buffers in order (R16).  Any capacity above 0 will do,
so that it holds of the spec's small examples too (log entry 9). -/
def State.wf (s : State) : Bool :=
  decide (0 < s.cfg.capacity) && delayLegal s.cfg.idleDelay && s.tablesLegal &&
    s.chans.all (Channel.wf s.cfg.capacity)

/-- A pending deadline lies less than 2^31 ms ahead, or is `now` (R105: time cannot pass it). -/
def Timer.ahead (now : Time) (tmr : Timer) : Bool :=
  !(tmr.engaged && tmr.planned) || (tmr.deadline - now).ult Time.half

/-- Unless the block is halted, no channel has a pending deadline behind `now` (R105). -/
def State.deadlinesAhead (s : State) : Bool :=
  s.halted || s.chans.all fun c => c.tmr.ahead s.now

/-- The channel is up: brought up by `CH_INIT` or by its parts (R186). -/
def Channel.up (c : Channel) : Bool := c.rxf.inited && c.txf.inited && c.tmr.engaged

/-- `FP_PROCESS` would find no frame: its phase on the queued bytes is a waiting one (R126, R188). -/
def Channel.waiting (cap : Nat) (c : Channel) : Bool :=
  match phaseOf c.cfg.table (c.rxf.contents cap) with
  | .awaitingTag => true
  | .awaitingPayload _ => true
  | .awaitingChecksum _ => true
  | .unknownTag => false
  | .validating _ => false

/-- Channel `c` is quiescent (R188): the block is not halted, `FP_PROCESS` would return `NoFrame`,
`TXF` is empty and no deadline is pending.  DESIGN CHOICE (log entry 19): the channel must be up as
well.  Both Ring Buffers must be initialised for `FP_PROCESS` to return `NoFrame` at all (R128); that
the timer is engaged R188 does not ask, and before that `planned` is unspecified (R33, V1), so the
model does not call such a channel quiescent. -/
def State.quiescent (s : State) (c : Channel) : Bool :=
  !s.halted && c.up && c.waiting s.cfg.capacity && c.txf.empty && !c.tmr.planned

/-- Two Ring Buffers with the same abstract value (R17): both initialised, with the same queued bytes
and the same policy, or neither initialised. -/
structure Fifo.Alike (cap : Nat) (F G : Fifo) : Prop where
  inited : F.inited = G.inited
  contents : F.inited = true → F.contents cap = G.contents cap
  policy : F.inited = true → F.allowOverwrite = G.allowOverwrite

/-- Two channels that differ in nothing but how their Ring Buffers hold what they hold. -/
structure Channel.Alike (cap : Nat) (c d : Channel) : Prop where
  rxf : c.rxf.Alike cap d.rxf
  txf : c.txf.Alike cap d.txf
  rest : d = { c with rxf := d.rxf, txf := d.txf }

/-- Two blocks that differ in nothing but how their Ring Buffers hold what they hold (R17): where the
queued bytes stand, and the storage bytes that are not queued. -/
structure State.Alike (s u : State) : Prop where
  rest : u = { s with chans := u.chans }
  length : u.chans.length = s.chans.length
  chans : ∀ (k : Nat) (c d : Channel), s.chans[k]? = some c → u.chans[k]? = some d →
    c.Alike s.cfg.capacity d

/-- A safe state: the block is not halted (R166). -/
def State.safe (s : State) : Bool := !s.halted

/-- The block is ready to perform an operation on channel `ch`, which is `c`: checks 1 and 3 of R167
pass. -/
def State.ready (s : State) (ch : Byte) (c : Channel) : Prop :=
  s.halted = false ∧ s.chans[ch.toNat]? = some c

/-! ### What an operation answers, as a whole state

Each of these gives the next state by a record update, so it says what changes and that nothing else
does: no other channel, no other Ring Buffer, no storage byte, not `now`, not a parameter, not the
application's state. -/

/-- The operation answers `r` and changes nothing but the result. -/
def Answers (i : Instr) (s : State) (r : Result) : Prop :=
  exec i s = .next { s with result := some r }

/-- The operation raises the fault `code` (R166): it halts the block and changes nothing else. -/
def Raises (i : Instr) (s : State) (code : FaultCode) : Prop :=
  exec i s = .next { s with halted := true, faultCode := code, result := some (.fault code) }

/-- The operation answers `r` and leaves channel `ch` as `c`; nothing else changes. -/
def Leaves (i : Instr) (s : State) (ch : Byte) (c : Channel) (r : Result) : Prop :=
  exec i s = .next { s with chans := s.chans.set ch.toNat c, result := some r }

/-- Checks 1 and 3 of R167 for an operation on channel `ch`: a halted block answers
`FAULT(faultCode)`, and a channel index of `NCH` or more raises `AssertBadChannel`. -/
def ChecksFirst (i : Instr) (ch : Byte) (s : State) : Prop :=
  (s.halted = true → Answers i s (.fault s.faultCode)) ∧
    (s.halted = false → s.chans.length ≤ ch.toNat → Raises i s .assertBadChannel)

/-- The opcode byte of a FIFO operation, `000f` and the function (R69). -/
def fifoByte (fn : Byte) (f : FifoSel) : Byte := if f = .tx then 16 + fn else fn

/-- The firing condition of R104 at time `now`. -/
def Channel.dueAt (now : Time) (c : Channel) : Bool :=
  c.tmr.engaged && c.tmr.planned && decide ((now - c.tmr.deadline).toNat < 2 ^ 31)

/-- The channel after `FIRE` (R106): `RXF` empty with its policy off and its storage kept, the timer
un-armed with its deadline kept, everything else as it was. -/
def Channel.afterFire (c : Channel) : Channel :=
  { c with
    rxf := { c.rxf with length := 0, putIndex := 0, getIndex := 0, allowOverwrite := false }
    tmr := { c.tmr with planned := false } }

/-- The channel an operation works on; `TICK` and `CRC16` have none (R67). -/
def channelOf : Instr → Option Byte
  | .fifoInit _ ch => some ch
  | .fifoReset _ ch => some ch
  | .fifoSetOvw _ ch _ => some ch
  | .put _ ch _ => some ch
  | .putSpan _ ch _ => some ch
  | .get _ ch => some ch
  | .peek _ ch => some ch
  | .getSpan _ ch _ => some ch
  | .size _ ch => some ch
  | .tmrInit ch => some ch
  | .tmrArm ch _ => some ch
  | .tmrCancel ch => some ch
  | .tick _ => none
  | .crc16 _ _ _ => none
  | .fpProcess ch => some ch
  | .chInit ch => some ch
  | .rxByte ch _ => some ch
  | .pump ch _ => some ch

/-- The operations that arm the timer of their channel (R102, R146). -/
def armsTimer : Instr → Bool
  | .tmrArm _ _ => true
  | .rxByte _ _ => true
  | .fifoInit _ _ => false
  | .fifoReset _ _ => false
  | .fifoSetOvw _ _ _ => false
  | .put _ _ _ => false
  | .putSpan _ _ _ => false
  | .get _ _ => false
  | .peek _ _ => false
  | .getSpan _ _ _ => false
  | .size _ _ => false
  | .tmrInit _ => false
  | .tmrCancel _ => false
  | .tick _ => false
  | .crc16 _ _ _ => false
  | .fpProcess _ => false
  | .chInit _ => false
  | .pump _ _ => false

/-- The data that an operation returns with `OK` has the form of the result table (R68). -/
def answerFits : Instr → Answer → Bool
  | .get _ _, .byte _ => true
  | .peek _ _, .byte _ => true
  | .getSpan _ _ n, .span bs => decide (bs.length = n.toNat)
  | .size _ _, .size _ => true
  | .tick _, .fired _ => true
  | .crc16 _ _ _, .crc _ => true
  | .fpProcess _, .outcome _ => true
  | .pump _ k, .moved m => decide (m ≤ k.toNat)
  | .fifoInit _ _, .done => true
  | .fifoReset _ _, .done => true
  | .fifoSetOvw _ _ _, .done => true
  | .put _ _ _, .done => true
  | .putSpan _ _ _, .done => true
  | .tmrInit _, .done => true
  | .tmrArm _ _, .done => true
  | .tmrCancel _, .done => true
  | .chInit _, .done => true
  | .rxByte _ _, .done => true
  | _, _ => false

/-- The operations that can return `FAIL` (R161). -/
def canFail : Instr → Bool
  | .put _ _ _ => true
  | .putSpan _ _ _ => true
  | .get _ _ => true
  | .peek _ _ => true
  | .getSpan _ _ _ => true
  | .rxByte _ _ => true
  | .fifoInit _ _ => false
  | .fifoReset _ _ => false
  | .fifoSetOvw _ _ _ => false
  | .size _ _ => false
  | .tmrInit _ => false
  | .tmrArm _ _ => false
  | .tmrCancel _ => false
  | .tick _ => false
  | .crc16 _ _ _ => false
  | .fpProcess _ => false
  | .chInit _ => false
  | .pump _ _ => false

/-- The operations that can raise a fault of the given code (R165). -/
def canRaise : FaultCode → Instr → Bool
  | .assertUninit, .fifoReset _ _ => true
  | .assertUninit, .fifoSetOvw _ _ _ => true
  | .assertUninit, .put _ _ _ => true
  | .assertUninit, .putSpan _ _ _ => true
  | .assertUninit, .get _ _ => true
  | .assertUninit, .peek _ _ => true
  | .assertUninit, .getSpan _ _ _ => true
  | .assertUninit, .size _ _ => true
  | .assertUninit, .fpProcess _ => true
  | .assertUninit, .rxByte _ _ => true
  | .assertUninit, .pump _ _ => true
  | .assertUninit, .tick _ => true
  | .assertUninit, .tmrArm _ _ => true
  | .assertUninit, .tmrCancel _ => true
  | .assertUninit, _ => false
  | .assertBadChannel, i => (channelOf i).isSome
  | .timerAllocFail, .tmrInit _ => true
  | .timerAllocFail, .chInit _ => true
  | .timerAllocFail, _ => false
  | .configFrameTooLong, .chInit _ => true
  | .configFrameTooLong, _ => false
  | .illegalRequest, _ => false
  | .illegalOperand, .fifoSetOvw _ _ b => decide (1 < b.toNat)
  | .illegalOperand, .tmrArm _ delay => decide (2 ^ 31 ≤ delay.toNat)
  | .illegalOperand, _ => false

end Sys2Proof.Machine
end

