-- ==== Sys2Proof/Certificates/Slice0/Obligations.lean ====
section
/-! DEFINITION. The statements about the block, from the spec's numbered rules.  A statement about an
operation gives the whole next state (`Answers`, `Raises`, `Leaves`, or a record update), so its frame
is part of it.  Where a statement needs the invariants of R16 it has them as a premise; that power-on
has them and that every step keeps them are statements of their own. -/

open Sys2Proof Sys2Proof.Machine

/-! ### Encoding -/

/-- R67, R69: decoding the request of a well-formed operation gives the operation back. -/
def Obligations.DecodeOfEncode : Prop :=
  ∀ i : Instr, i.WellFormed = true → decode (encode i) = .request i

/-- R67, R69: a byte sequence that decodes is the request of the operation it decodes to, and that
operation is well-formed: no two byte sequences mean the same operation. -/
def Obligations.EncodeOfDecode : Prop :=
  ∀ (r : List Byte) (i : Instr), decode r = .request i → encode i = r ∧ i.WellFormed = true

/-- Vectors F1, F23, F21, F9, T11, T2, K3, E1, E5 and X1: requests written out in the spec. -/
def Obligations.RequestsOfTheVectors : Prop :=
  decode [0x03, 0x00, 0x41] = .request (.put .rx 0 0x41) ∧
  decode [0x02, 0x00, 0x02] = .request (.fifoSetOvw .rx 0 2) ∧
  decode [0x17, 0x00, 0x2C, 0x01] = .request (.getSpan .tx 0 300) ∧
  decode [0x04, 0x00, 0x06, 0x00, 0x61, 0x62, 0x63, 0x64, 0x65, 0x66] =
    .request (.putSpan .rx 0 [0x61, 0x62, 0x63, 0x64, 0x65, 0x66]) ∧
  decode [0x21, 0x00, 0xFF, 0xFF, 0xFF, 0x7F] = .request (.tmrArm 0 2147483647) ∧
  decode [0x23, 0x00] = .request (.tick 0) ∧
  decode [0x30, 0x00, 0xFF, 0xFF, 0x01, 0x00, 0x00] = .request (.crc16 0 0xFFFF [0x00]) ∧
  decode [0x50, 0x00] = .request (.chInit 0) ∧
  decode [0x52, 0x00, 0x04, 0x00] = .request (.pump 0 4) ∧
  decode [0x40, 0x00] = .request (.fpProcess 0)

/-- R70: which opcode bytes are reserved; that a request with one faults with `IllegalRequest`; that a
sequence that is no request, because it is the request of no well-formed operation (a span of 65536
bytes or more is written by no count), is refused; and that the reserved operand values fault with
`IllegalOperand`.  That a reserved opcode counts whatever follows it, and that a step on no request is
refused, are the model's readings (log entries 8 and 10). -/
def Obligations.ReservedEncodings : Prop :=
  (∀ (op ch : Byte) (args : List Byte),
    decode (op :: ch :: args) = .reservedOpcode op ↔
      (0x09 ≤ op.toNat ∧ op.toNat ≤ 0x0F) ∨ (0x19 ≤ op.toNat ∧ op.toNat ≤ 0x1F) ∨
      (0x24 ≤ op.toNat ∧ op.toNat ≤ 0x2F) ∨ (0x31 ≤ op.toNat ∧ op.toNat ≤ 0x3F) ∨
      (0x41 ≤ op.toNat ∧ op.toNat ≤ 0x4F) ∨ (0x53 ≤ op.toNat ∧ op.toNat ≤ 0x5F) ∨
      0x60 ≤ op.toNat) ∧
  (∀ (s : State) (r : List Byte) (rest : List (List Byte)) (op : Byte),
    s.tablesLegal = true → s.halted = false → s.requests = r :: rest →
      decode r = .reservedOpcode op →
      step s = .next { s with requests := rest, halted := true, faultCode := .illegalRequest,
                              result := some (.fault .illegalRequest) }) ∧
  (∀ (s : State) (r : List Byte) (rest : List (List Byte)),
    s.tablesLegal = true → s.requests = r :: rest → (∀ i : Instr, i.WellFormed = true → encode i ≠ r) →
      (∀ op, decode r ≠ .reservedOpcode op) → step s = .refused .malformedRequest) ∧
  (∀ (s : State) (ch : Byte) (c : Channel), s.ready ch c →
    (∀ (f : FifoSel) (b : Byte), 1 < b.toNat → Raises (.fifoSetOvw f ch b) s .illegalOperand) ∧
    ∀ delay : Time, 2 ^ 31 ≤ delay.toNat → Raises (.tmrArm ch delay) s .illegalOperand)

/-- R48, R49: a step performs the operation of the next request, on the state without that request,
as one transition; without a request nothing happens (log entry 2: the model's choice). -/
def Obligations.StepPerformsTheNextRequest : Prop :=
  ∀ s : State, s.tablesLegal = true →
    (s.requests = [] → step s = .next s) ∧
    ∀ (r : List Byte) (rest : List (List Byte)) (i : Instr),
      s.requests = r :: rest → decode r = .request i →
        step s = exec i { s with requests := rest }

/-- R68: every operation that answers a next state has a result, and its data is of the form the result
table gives the operation; R161: only `PUT`, `PUTSPAN`, `GET`, `PEEK`, `GETSPAN` and `RXBYTE` return `FAIL`;
R165: only the operations of the fault table raise each fault, and the fault is recorded. -/
def Obligations.EveryOperationAnswersInItsForm : Prop :=
  ∀ (i : Instr) (s t : State), exec i s = .next t → ∃ r : Result,
    t.result = some r ∧
    (∀ a, r = .ok a → answerFits i a = true) ∧
    (r = .fail → canFail i = true) ∧
    (∀ code, r = .fault code → t.halted = true ∧ t.faultCode = code ∧
      (s.halted = true ∧ s.faultCode = code ∨ s.halted = false ∧ canRaise code i = true))

/-- R68, R165: the bytes of a result. -/
def Obligations.ResultBytes : Prop :=
  resultBytes .fail = [0x01] ∧
  [FaultCode.assertUninit, .assertBadChannel, .timerAllocFail, .configFrameTooLong, .illegalRequest,
    .illegalOperand].map (fun code => resultBytes (.fault code)) =
    [[0x02, 0x01], [0x02, 0x02], [0x02, 0x03], [0x02, 0x04], [0x02, 0x05], [0x02, 0x06]] ∧
  [ParseOutcome.noFrame, .dispatch, .discard, .resync].map (fun o => resultBytes (.ok (.outcome o))) =
    [[0x00, 0x00], [0x00, 0x01], [0x00, 0x02], [0x00, 0x03]] ∧
  resultBytes (.ok .done) = [0x00] ∧
  (∀ b, resultBytes (.ok (.byte b)) = [0x00, b]) ∧
  (∀ bs, resultBytes (.ok (.span bs)) = 0x00 :: bs) ∧
  (∀ n, n < 65536 → resultBytes (.ok (.size n)) =
    [0x00, BitVec.ofNat 8 (n % 256), BitVec.ofNat 8 (n / 256)]) ∧
  (∀ n, resultBytes (.ok (.fired n)) = [0x00, n]) ∧
  (∀ v, resultBytes (.ok (.crc v)) =
    [0x00, BitVec.ofNat 8 (v.toNat % 256), BitVec.ofNat 8 (v.toNat / 256)]) ∧
  ∀ m, m < 65536 → resultBytes (.ok (.moved m)) =
    [0x00, BitVec.ofNat 8 (m % 256), BitVec.ofNat 8 (m / 256)]

/-! ### Power-on and the invariants of the machine -/

/-- R185: the state after power-on, for every configuration and every value of `now`; `State.reset` is
one such state, with the model's default parameters (log entry 4).  Of the fields the rule calls
unspecified nothing is said. -/
def Obligations.PowerOnLeavesEverythingUninitialised : Prop :=
  (∀ (cfg : Config) (channels : List (ChannelConfig × List (List Byte))) (now : Time)
      (requests : List (List Byte)),
    (State.powerOn cfg channels now requests).halted = false ∧
    (State.powerOn cfg channels now requests).now = now ∧
    (State.powerOn cfg channels now requests).cfg = cfg ∧
    (State.powerOn cfg channels now requests).chans.map Channel.cfg = channels.map Prod.fst ∧
    ∀ c ∈ (State.powerOn cfg channels now requests).chans,
      c.rxf.inited = false ∧ c.txf.inited = false ∧ c.tmr.engaged = false ∧ c.wireOut = []) ∧
  ∃ (channels : List (ChannelConfig × List (List Byte))) (now : Time),
    State.reset = State.powerOn Config.default channels now []

/-- R16, R105: power-on meets the invariants, for every legal configuration and every `now`. -/
def Obligations.PowerOnMeetsTheInvariants : Prop :=
  (∀ (cfg : Config) (channels : List (ChannelConfig × List (List Byte))) (now : Time)
      (requests : List (List Byte)),
    0 < cfg.capacity → cfg.idleDelay.toNat < 2 ^ 31 →
    (∀ c ∈ channels, (c.1.table.map TableEntry.tag).Nodup) →
    (State.powerOn cfg channels now requests).wf = true ∧
    (State.powerOn cfg channels now requests).deadlinesAhead = true) ∧
  State.reset.wf = true ∧ State.reset.deadlinesAhead = true ∧ State.reset.legal = true

/-- R16, R10, R32: every step keeps the invariants of every Ring Buffer (I1, I2, and I3, which is the
spec's own inference) and the canonical form of every storage. -/
def Obligations.StepKeepsTheRingInvariants : Prop :=
  ∀ s t : State, s.wf = true → step s = .next t → t.wf = true

/-- R105: every step keeps that no pending deadline lies behind `now`; so time cannot pass a pending
deadline without the fire. -/
def Obligations.StepKeepsDeadlinesAhead : Prop :=
  ∀ s t : State, s.wf = true → s.deadlinesAhead = true → step s = .next t →
    t.deadlinesAhead = true

/-- R24, R166: a step of a halted block changes nothing but `now`, the result and the requests; it
stays halted with the same code, and `now` either stays or advances by 1. -/
def Obligations.HaltIsFinal : Prop :=
  ∀ s t : State, s.halted = true → step s = .next t →
    t = { s with now := t.now, result := t.result, requests := t.requests } ∧
      (t.now = s.now ∨ t.now = s.now + 1#32)

/-- R24, R166, R168: a halted block answers every operation but `TICK` with `FAULT(faultCode)` and
changes nothing; `TICK` advances `now`, fires nothing and answers `OK 0`. -/
def Obligations.HaltedBlockAnswersFault : Prop :=
  ∀ s : State, s.halted = true →
    (∀ i : Instr, (∀ ch, i ≠ .tick ch) → Answers i s (.fault s.faultCode)) ∧
    ∀ ch, exec (.tick ch) s = .next { s with now := s.now + 1#32, result := some (.ok (.fired 0)) }

/-- R15, R22, R187: no step takes a unit out of use: `inited` and `engaged` are never cleared, and no
channel appears or disappears. -/
def Obligations.UnitsStayInitialised : Prop :=
  ∀ s t : State, step s = .next t →
    t.chans.length = s.chans.length ∧
    ∀ (k : Nat) (c d : Channel), s.chans[k]? = some c → t.chans[k]? = some d →
      (c.rxf.inited = true → d.rxf.inited = true) ∧ (c.txf.inited = true → d.txf.inited = true) ∧
      (c.tmr.engaged = true → d.tmr.engaged = true)

/-- R53, R8: no step changes a parameter, the command tables among them. -/
def Obligations.ConfigurationNeverChanges : Prop :=
  ∀ s t : State, step s = .next t →
    t.cfg = s.cfg ∧ t.chans.map Channel.cfg = s.chans.map Channel.cfg

/-- R27: `wireOut` only grows, and only `PUMP` on its channel makes it grow. -/
def Obligations.WireOutOnlyGrows : Prop :=
  ∀ (i : Instr) (s t : State), exec i s = .next t →
    ∀ (k : Nat) (c d : Channel), s.chans[k]? = some c → t.chans[k]? = some d →
      (∃ out, d.wireOut = c.wireOut ++ out) ∧
      ((∀ ch room, i = .pump ch room → ch.toNat ≠ k) → d.wireOut = c.wireOut)

/-- R23: only `TICK` changes `now`, by one millisecond modulo 2^32. -/
def Obligations.OnlyTickMovesNow : Prop :=
  ∀ (i : Instr) (s t : State), exec i s = .next t →
    ((∀ ch, i ≠ .tick ch) → t.now = s.now) ∧
    ((∃ ch, i = .tick ch) → t.now.toNat = (s.now.toNat + 1) % 2 ^ 32)

/-! ### Storage -/

/-- R10, R40: a write to a storage changes the byte at its index and no other, keeps the canonical
form, and stays inside the indices 0 to `C` - 1; canonical storages that read the same are equal. -/
def Obligations.StorageWritesOneByte : Prop :=
  (∀ (m : Memory) (a b : Nat) (v : Byte), m.wf = true →
    (m.write a v).read b = if b = a then v else m.read b) ∧
  (∀ (m : Memory) (a : Nat) (v : Byte), m.wf = true → (m.write a v).wf = true) ∧
  (∀ (m : Memory) (cap a : Nat) (v : Byte), m.below cap = true → a < cap →
    (m.write a v).below cap = true) ∧
  ∀ m m' : Memory, m.wf = true → m'.wf = true → (∀ a, m.read a = m'.read a) → m = m'

/-! ### Ring Buffer operations -/

/-- R80: `FIFO_INIT` zeroes the storage, empties the Ring Buffer, turns the policy off and marks it
initialised, whatever it was; it is idempotent; its only fault is `AssertBadChannel`. -/
def Obligations.FifoInitZeroesAndEmpties : Prop :=
  ∀ (f : FifoSel) (ch : Byte) (s : State),
    encode (.fifoInit f ch) = [fifoByte 0x00 f, ch] ∧
    ChecksFirst (.fifoInit f ch) ch s ∧
    (∀ c, s.ready ch c → ∃ F : Fifo,
      Leaves (.fifoInit f ch) s ch (c.setFifo f F) (.ok .done) ∧
      (∀ a, F.storage.read a = 0) ∧ F.storage.wf = true ∧ F.length = 0 ∧ F.putIndex = 0 ∧
      F.getIndex = 0 ∧ F.allowOverwrite = false ∧ F.inited = true) ∧
    ∀ t, exec (.fifoInit f ch) s = .next t → exec (.fifoInit f ch) t = .next t

/-- R81: `FIFO_RESET` empties the Ring Buffer and turns the policy off; the storage is kept. -/
def Obligations.FifoResetKeepsStorage : Prop :=
  ∀ (f : FifoSel) (ch : Byte) (s : State),
    encode (.fifoReset f ch) = [fifoByte 0x01 f, ch] ∧
    ChecksFirst (.fifoReset f ch) ch s ∧
    ∀ c, s.ready ch c →
      ((c.fifo f).inited = false → Raises (.fifoReset f ch) s .assertUninit) ∧
      ((c.fifo f).inited = true →
        Leaves (.fifoReset f ch) s ch
          (c.setFifo f { c.fifo f with
            length := 0, putIndex := 0, getIndex := 0, allowOverwrite := false }) (.ok .done))

/-- R82: `FIFO_SETOVW` writes the policy flag and no other field; the reserved operand is checked
before the initialisation. -/
def Obligations.FifoSetOvwWritesThePolicy : Prop :=
  ∀ (f : FifoSel) (ch b : Byte) (s : State),
    encode (.fifoSetOvw f ch b) = [fifoByte 0x02 f, ch, b] ∧
    ChecksFirst (.fifoSetOvw f ch b) ch s ∧
    ∀ c, s.ready ch c →
      (1 < b.toNat → Raises (.fifoSetOvw f ch b) s .illegalOperand) ∧
      (b.toNat ≤ 1 → (c.fifo f).inited = false → Raises (.fifoSetOvw f ch b) s .assertUninit) ∧
      (b.toNat ≤ 1 → (c.fifo f).inited = true →
        Leaves (.fifoSetOvw f ch b) s ch
          (c.setFifo f { c.fifo f with allowOverwrite := decide (b.toNat = 1) }) (.ok .done))

/-- R83: `PUT` stores the byte at `putIndex` and advances it; full without the policy it fails and
changes nothing; full with the policy it drops the oldest byte first.  In terms of the queue the byte
joins at the end (the spec's own inference: "In terms of the abstract queue"). -/
def Obligations.PutStoresOrFails : Prop :=
  ∀ (f : FifoSel) (ch b : Byte) (s : State),
    encode (.put f ch b) = [fifoByte 0x03 f, ch, b] ∧
    ChecksFirst (.put f ch b) ch s ∧
    ∀ c, s.ready ch c →
      ((c.fifo f).inited = false → Raises (.put f ch b) s .assertUninit) ∧
      ((c.fifo f).inited = true → (c.fifo f).wf s.cfg.capacity = true →
        ((c.fifo f).length < s.cfg.capacity → ∃ G : Fifo,
          Leaves (.put f ch b) s ch (c.setFifo f G) (.ok .done) ∧
          (∀ a, G.storage.read a =
            if a = (c.fifo f).putIndex then b else (c.fifo f).storage.read a) ∧
          G.putIndex = ((c.fifo f).putIndex + 1) % s.cfg.capacity ∧
          G.length = (c.fifo f).length + 1 ∧ G.getIndex = (c.fifo f).getIndex ∧
          G.allowOverwrite = (c.fifo f).allowOverwrite ∧ G.inited = true ∧
          G.contents s.cfg.capacity = (c.fifo f).contents s.cfg.capacity ++ [b]) ∧
        ((c.fifo f).length = s.cfg.capacity → (c.fifo f).allowOverwrite = false →
          Answers (.put f ch b) s .fail) ∧
        ((c.fifo f).length = s.cfg.capacity → (c.fifo f).allowOverwrite = true → ∃ G : Fifo,
          Leaves (.put f ch b) s ch (c.setFifo f G) (.ok .done) ∧
          (∀ a, G.storage.read a =
            if a = (c.fifo f).putIndex then b else (c.fifo f).storage.read a) ∧
          G.putIndex = ((c.fifo f).putIndex + 1) % s.cfg.capacity ∧
          G.length = s.cfg.capacity ∧
          G.getIndex = ((c.fifo f).getIndex + 1) % s.cfg.capacity ∧
          G.allowOverwrite = true ∧ G.inited = true ∧
          G.contents s.cfg.capacity = ((c.fifo f).contents s.cfg.capacity).drop 1 ++ [b]))

/-- R84: `PUTSPAN` is all or nothing without the policy; with it the operation always succeeds and the
last `C` bytes of queue and span stay (the spec's own inference: "Abstractly, policy off and fitting").
An empty span changes nothing.  Only the `n` slots from `putIndex` on are written. -/
def Obligations.PutSpanIsAllOrNothing : Prop :=
  ∀ (f : FifoSel) (ch : Byte) (d : List Byte) (s : State),
    (d.length < 65536 → encode (.putSpan f ch d) =
      [fifoByte 0x04 f, ch, BitVec.ofNat 8 (d.length % 256), BitVec.ofNat 8 (d.length / 256)] ++ d) ∧
    ChecksFirst (.putSpan f ch d) ch s ∧
    ∀ c, s.ready ch c →
      ((c.fifo f).inited = false → Raises (.putSpan f ch d) s .assertUninit) ∧
      ((c.fifo f).inited = true → (c.fifo f).wf s.cfg.capacity = true →
        ((c.fifo f).allowOverwrite = false → s.cfg.capacity < (c.fifo f).length + d.length →
          Answers (.putSpan f ch d) s .fail) ∧
        ((c.fifo f).allowOverwrite = true ∨ (c.fifo f).length + d.length ≤ s.cfg.capacity →
          ∃ G : Fifo,
            Leaves (.putSpan f ch d) s ch (c.setFifo f G) (.ok .done) ∧
            G.contents s.cfg.capacity =
              ((c.fifo f).contents s.cfg.capacity ++ d).drop
                ((c.fifo f).length + d.length - s.cfg.capacity) ∧
            G.length = min s.cfg.capacity ((c.fifo f).length + d.length) ∧
            G.putIndex = ((c.fifo f).putIndex + d.length) % s.cfg.capacity ∧
            G.getIndex = ((c.fifo f).getIndex +
              ((c.fifo f).length + d.length - s.cfg.capacity)) % s.cfg.capacity ∧
            G.allowOverwrite = (c.fifo f).allowOverwrite ∧ G.inited = true ∧
            (∀ a, (∀ k < d.length, a ≠ ((c.fifo f).putIndex + k) % s.cfg.capacity) →
              G.storage.read a = (c.fifo f).storage.read a) ∧
            (d = [] → G = c.fifo f)))

/-- R85: `GET` returns and removes the oldest byte, and fails on an empty Ring Buffer; the storage byte
is not cleared. -/
def Obligations.GetRemovesTheOldest : Prop :=
  ∀ (f : FifoSel) (ch : Byte) (s : State),
    encode (.get f ch) = [fifoByte 0x05 f, ch] ∧
    ChecksFirst (.get f ch) ch s ∧
    ∀ c, s.ready ch c →
      ((c.fifo f).inited = false → Raises (.get f ch) s .assertUninit) ∧
      ((c.fifo f).inited = true → (c.fifo f).wf s.cfg.capacity = true →
        ((c.fifo f).length = 0 → Answers (.get f ch) s .fail) ∧
        (0 < (c.fifo f).length → ∃ (b : Byte) (G : Fifo),
          Leaves (.get f ch) s ch (c.setFifo f G) (.ok (.byte b)) ∧
          b = (c.fifo f).storage.read (c.fifo f).getIndex ∧
          (c.fifo f).contents s.cfg.capacity = b :: G.contents s.cfg.capacity ∧
          G = { c.fifo f with
            getIndex := ((c.fifo f).getIndex + 1) % s.cfg.capacity
            length := (c.fifo f).length - 1 }))

/-- R86: `PEEK` returns the oldest byte without removing it; no state changes in any case. -/
def Obligations.PeekChangesNothing : Prop :=
  ∀ (f : FifoSel) (ch : Byte) (s : State),
    encode (.peek f ch) = [fifoByte 0x06 f, ch] ∧
    ChecksFirst (.peek f ch) ch s ∧
    ∀ c, s.ready ch c →
      ((c.fifo f).inited = false → Raises (.peek f ch) s .assertUninit) ∧
      ((c.fifo f).inited = true → (c.fifo f).wf s.cfg.capacity = true →
        ((c.fifo f).length = 0 → Answers (.peek f ch) s .fail) ∧
        ∀ b q, (c.fifo f).contents s.cfg.capacity = b :: q →
          Answers (.peek f ch) s (.ok (.byte b)))

/-- R87: `GETSPAN` removes exactly `n` bytes in order, or fails and changes nothing; `n` = 0 succeeds
and changes nothing. -/
def Obligations.GetSpanIsAllOrNothing : Prop :=
  ∀ (f : FifoSel) (ch : Byte) (n : Half) (s : State),
    encode (.getSpan f ch n) =
      [fifoByte 0x07 f, ch, BitVec.ofNat 8 (n.toNat % 256), BitVec.ofNat 8 (n.toNat / 256)] ∧
    ChecksFirst (.getSpan f ch n) ch s ∧
    ∀ c, s.ready ch c →
      ((c.fifo f).inited = false → Raises (.getSpan f ch n) s .assertUninit) ∧
      ((c.fifo f).inited = true → (c.fifo f).wf s.cfg.capacity = true →
        ((c.fifo f).length < n.toNat → Answers (.getSpan f ch n) s .fail) ∧
        (n.toNat ≤ (c.fifo f).length → ∃ G : Fifo,
          Leaves (.getSpan f ch n) s ch (c.setFifo f G)
            (.ok (.span (((c.fifo f).contents s.cfg.capacity).take n.toNat))) ∧
          G.contents s.cfg.capacity = ((c.fifo f).contents s.cfg.capacity).drop n.toNat ∧
          G = { c.fifo f with
            getIndex := ((c.fifo f).getIndex + n.toNat) % s.cfg.capacity
            length := (c.fifo f).length - n.toNat } ∧
          (n.toNat = 0 → G = c.fifo f)))

/-- R88: `SIZE` returns the length and changes nothing. -/
def Obligations.SizeReturnsTheLength : Prop :=
  ∀ (f : FifoSel) (ch : Byte) (s : State),
    encode (.size f ch) = [fifoByte 0x08 f, ch] ∧
    ChecksFirst (.size f ch) ch s ∧
    ∀ c, s.ready ch c →
      ((c.fifo f).inited = false → Raises (.size f ch) s .assertUninit) ∧
      ((c.fifo f).inited = true → Answers (.size f ch) s (.ok (.size (c.fifo f).length)) ∧
        ((c.fifo f).wf s.cfg.capacity = true → (c.fifo f).length ≤ s.cfg.capacity))

/-- R17 (the spec's own inference: "two states with the same pair cannot be told apart through the
ports"): where two blocks differ only in how their Ring Buffers hold the same queued bytes and the same
policy, no operation tells them apart: of all 18, whatever they do to a Ring Buffer, each gives the same
result in both and leaves two blocks that again differ in nothing else. -/
def Obligations.RingBufferIsItsQueue : Prop :=
  ∀ (i : Instr) (s u t : State), s.wf = true → u.wf = true → s.Alike u → exec i s = .next t →
    ∃ v, exec i u = .next v ∧ v.result = t.result ∧ t.Alike v

/-- R90 (b), the spec's own inference ("Properties of every run"): first in, first out.  Where the bytes fit, putting them one by one succeeds every time,
and getting the whole queue afterwards returns what was queued before and then the bytes put, in
order. -/
def Obligations.BytesComeOutInOrder : Prop :=
  ∀ (s : State) (ch : Byte) (c : Channel) (f : FifoSel) (d : List Byte),
    s.ready ch c → (c.fifo f).inited = true → (c.fifo f).wf s.cfg.capacity = true →
    (c.fifo f).length + d.length ≤ s.cfg.capacity →
    ∃ t, runResults (d.map (Instr.put f ch) ++
        List.replicate ((c.fifo f).length + d.length) (Instr.get f ch)) s =
      some (d.map (fun _ => some (.ok .done)) ++
        ((c.fifo f).contents s.cfg.capacity ++ d).map (fun b => some (.ok (.byte b))), t)

/-- R90 (c), the spec's own inference ("Properties of every run"): a put on a full Ring Buffer under the overwrite policy drops the oldest byte, and `C` gets
after it return the others and then the byte put. -/
def Obligations.OverwriteDropsTheOldest : Prop :=
  ∀ (s : State) (ch : Byte) (c : Channel) (f : FifoSel) (x : Byte),
    s.ready ch c → (c.fifo f).inited = true → (c.fifo f).wf s.cfg.capacity = true →
    (c.fifo f).length = s.cfg.capacity → (c.fifo f).allowOverwrite = true →
    ∃ t, runResults (Instr.put f ch x :: List.replicate s.cfg.capacity (Instr.get f ch)) s =
      some (some (.ok .done) ::
        (((c.fifo f).contents s.cfg.capacity).drop 1 ++ [x]).map (fun b => some (.ok (.byte b))), t)

/-! ### Timer -/

/-- R101: the comparison of times, and its consequences across the wrap (the spec's own inference:
"Consequences [derived: from the formula]"). -/
def Obligations.ReachedComparesAcrossTheWrap : Prop :=
  (∀ now d : Time, reached now d = true ↔ (now.toNat + 2 ^ 32 - d.toNat) % 2 ^ 32 < 2 ^ 31) ∧
  (∀ now : Time, reached now now = true) ∧
  (∀ now x : Time, 0 < x.toNat → x.toNat ≤ 2 ^ 31 → reached now (now + x) = false) ∧
  (∀ now x : Time, x.toNat < 2 ^ 31 → reached now (now - x) = true) ∧
  (∀ now x : Time, x.toNat = 2 ^ 31 → reached now (now - x) = false) ∧
  reached 0x00000005 0xFFFFFFFE = true ∧ reached 0xFFFFFFFE 0x00000005 = false

/-- R100: `TMR_INIT` engages the timer; a second one changes nothing; without a timer slot it faults
with `TimerAllocFail`. -/
def Obligations.TmrInitEngagesOnce : Prop :=
  ∀ (ch : Byte) (s : State),
    encode (.tmrInit ch) = [0x20, ch] ∧
    ChecksFirst (.tmrInit ch) ch s ∧
    ∀ c, s.ready ch c →
      (c.tmr.engaged = true → Answers (.tmrInit ch) s (.ok .done)) ∧
      (c.tmr.engaged = false → c.cfg.timerSlot = false → Raises (.tmrInit ch) s .timerAllocFail) ∧
      (c.tmr.engaged = false → c.cfg.timerSlot = true →
        Leaves (.tmrInit ch) s ch
          { c with tmr := { engaged := true, planned := false, deadline := s.now - 0x80000000#32 } }
          (.ok .done))

/-- R102: `TMR_ARM` sets the deadline to `now + delay` modulo 2^32 and plans the fire, replacing any
pending deadline; a delay of 2^31 or more is checked before the initialisation. -/
def Obligations.TmrArmReplacesTheDeadline : Prop :=
  ∀ (ch : Byte) (delay : Time) (s : State),
    encode (.tmrArm ch delay) =
      [0x21, ch, BitVec.ofNat 8 (delay.toNat % 256), BitVec.ofNat 8 (delay.toNat / 2 ^ 8 % 256),
        BitVec.ofNat 8 (delay.toNat / 2 ^ 16 % 256), BitVec.ofNat 8 (delay.toNat / 2 ^ 24)] ∧
    ChecksFirst (.tmrArm ch delay) ch s ∧
    ∀ c, s.ready ch c →
      (2 ^ 31 ≤ delay.toNat → Raises (.tmrArm ch delay) s .illegalOperand) ∧
      (delay.toNat < 2 ^ 31 → c.tmr.engaged = false → Raises (.tmrArm ch delay) s .assertUninit) ∧
      (delay.toNat < 2 ^ 31 → c.tmr.engaged = true →
        Leaves (.tmrArm ch delay) s ch
          { c with tmr := { c.tmr with planned := true, deadline := s.now + delay } } (.ok .done))

/-- R103: `TMR_CANCEL` clears `planned` and moves the deadline 2^31 ms behind `now`, whether or not
anything was pending; it does not touch `RXF`.  The deadline reads as not reached for the next 2^31 ms,
and whatever `now` becomes, the channel is not due. -/
def Obligations.TmrCancelUnplans : Prop :=
  ∀ (ch : Byte) (s : State),
    encode (.tmrCancel ch) = [0x22, ch] ∧
    ChecksFirst (.tmrCancel ch) ch s ∧
    ∀ c, s.ready ch c →
      (c.tmr.engaged = false → Raises (.tmrCancel ch) s .assertUninit) ∧
      (c.tmr.engaged = true →
        Leaves (.tmrCancel ch) s ch
          { c with tmr := { c.tmr with planned := false, deadline := s.now - 0x80000000#32 } }
          (.ok .done) ∧
        (∀ x : Time, x.toNat < 2 ^ 31 → reached (s.now + x) (s.now - 0x80000000#32) = false) ∧
        ∀ later : Time, Channel.dueAt later
          { c with tmr := { c.tmr with planned := false, deadline := s.now - 0x80000000#32 } } =
            false)

/-- R104, R106: `TICK` advances `now`, then fires every channel that is due: `FIFO_RESET` on `RXF`, the
timer un-armed, everything else kept.  A due channel whose `RXF` is not initialised ends the loop with
`AssertUninit`: `now` stays advanced, the channels before it have fired, it and the rest are kept.  A
halted block only counts. -/
def Obligations.TickFiresEveryDueChannel : Prop :=
  ∀ (ch : Byte) (s : State),
    encode (.tick ch) = [0x23, ch] ∧
    (s.halted = true →
      exec (.tick ch) s =
        .next { s with now := s.now + 1#32, result := some (.ok (.fired 0)) }) ∧
    (s.halted = false →
      (∀ c ∈ s.chans, c.dueAt (s.now + 1#32) = true → c.rxf.inited = true) →
      exec (.tick ch) s =
        .next { s with
          now := s.now + 1#32
          chans := s.chans.map fun c => if c.dueAt (s.now + 1#32) then c.afterFire else c
          result := some (.ok (.fired
            (BitVec.ofNat 8 (s.chans.countP fun c => c.dueAt (s.now + 1#32))))) }) ∧
    (s.halted = false → ∀ (pre post : List Channel) (c : Channel), s.chans = pre ++ c :: post →
      (∀ d ∈ pre, d.dueAt (s.now + 1#32) = true → d.rxf.inited = true) →
      c.dueAt (s.now + 1#32) = true → c.rxf.inited = false →
      exec (.tick ch) s =
        .next { s with
          now := s.now + 1#32
          chans := (pre.map fun d => if d.dueAt (s.now + 1#32) then d.afterFire else d) ++ c :: post
          halted := true
          faultCode := .assertUninit
          result := some (.fault .assertUninit) })

/-- R105, R107: a deadline armed with a delay of `d >= 1` fires in the `d`-th `TICK` after it and in
none before, where nothing else happens meanwhile; one armed with `d` = 0 fires in the next `TICK`.
Until then `RXF` is as it was and the deadline is pending; at that `TICK` `RXF` is reset and the timer
un-armed. -/
def Obligations.ArmedDeadlineFiresOnTime : Prop :=
  ∀ (s : State) (ch : Byte) (c : Channel) (d : Nat),
    s.ready ch c → c.tmr.engaged = true → (∀ e ∈ s.chans, e.rxf.inited = true) →
    d < 2 ^ 31 →
    ∃ (t u : State) (c1 : Channel),
      execList (Instr.tmrArm ch (BitVec.ofNat 32 d) :: List.replicate (d - 1) (Instr.tick ch)) s =
        .next t ∧
      t.chans[ch.toNat]? = some c1 ∧ c1.rxf = c.rxf ∧ c1.txf = c.txf ∧ c1.tmr.planned = true ∧
      t.now = s.now + BitVec.ofNat 32 (d - 1) ∧
      exec (.tick ch) t = .next u ∧ u.chans[ch.toNat]? = some c1.afterFire

/-- R19, R103, R106: only `TMR_ARM` and `RXBYTE` on a channel make a deadline pending there; so a cancelled
deadline, or one that has fired, fires no more before the next of them. -/
def Obligations.OnlyArmingPlansAFire : Prop :=
  ∀ (i : Instr) (s t : State), exec i s = .next t →
    ∀ (k : Nat) (c d : Channel), s.chans[k]? = some c → t.chans[k]? = some d →
      c.tmr.planned = false → d.tmr.planned = true →
      ∃ ch : Byte, ch.toNat = k ∧ ((∃ delay, i = .tmrArm ch delay) ∨ ∃ b, i = .rxByte ch b)

/-! ### Checksum -/

/-- R116: `CRC16` returns the checksum of its span under the configuration's function, needs no
initialisation, ignores its channel byte and changes nothing. -/
def Obligations.CrcIsPure : Prop :=
  ∀ (ch : Byte) (seed : Half) (d : List Byte) (s : State),
    (d.length < 65536 → encode (.crc16 ch seed d) =
      [0x30, ch, BitVec.ofNat 8 (seed.toNat % 256), BitVec.ofNat 8 (seed.toNat / 256),
        BitVec.ofNat 8 (d.length % 256), BitVec.ofNat 8 (d.length / 256)] ++ d) ∧
    (s.halted = true → Answers (.crc16 ch seed d) s (.fault s.faultCode)) ∧
    (s.halted = false →
      Answers (.crc16 ch seed d) s (.ok (.crc (crc16 s.cfg.checksum d seed)))) ∧
    (s.halted = false → s.cfg.checksum = .modbus → d = [] →
      Answers (.crc16 ch seed d) s (.ok (.crc seed)))

/-- R118 (the spec's own inference from R117, "Properties of the default algorithm"; log entry 17): empty
span, chaining, zero residue (and so, with the low checksum byte first, a frame is valid exactly when the
checksum of all of it is 0), and the values the rule lists. -/
def Obligations.DefaultChecksumProperties : Prop :=
  (∀ seed : Half, crcModbus [] seed = seed) ∧
  (∀ (a b : List Byte) (seed : Half), crcModbus (a ++ b) seed = crcModbus b (crcModbus a seed)) ∧
  (∀ (x : List Byte) (seed : Half),
    crcModbus (x ++ [(crcModbus x seed).extractLsb' 0 8, (crcModbus x seed).extractLsb' 8 8]) seed = 0) ∧
  (∀ (cfg : Config) (fr : List Byte), cfg.checksum = .modbus → cfg.crcLsbFirst = true →
    6 ≤ fr.length → (frameValid cfg fr = true ↔ crcModbus fr cfg.crcSeed = 0)) ∧
  crcModbus [0x00] 0xFFFF = 0x40BF ∧ crcModbus [0xFF] 0xFFFF = 0x00FF ∧
  crcModbus [0x01] 0xFFFF = 0x807E ∧ crcModbus [0x00] 0x0000 = 0x0000 ∧
  crcModbus [0x01] 0x0000 = 0xC0C1 ∧
  crcModbus [0x31, 0x32, 0x33, 0x34, 0x35, 0x36, 0x37, 0x38, 0x39] 0x0000 = 0xBB3D ∧
  crcModbus [0x31, 0x32, 0x33, 0x34, 0x35, 0x36, 0x37, 0x38, 0x39] 0xFFFF = 0x4B37 ∧
  crcModbus [0x01, 0x03, 0x00, 0x00, 0x00, 0x0A] 0xFFFF = 0xCDC5

/-! ### Frame parser -/

/-- R61, R64, R66: the layout of a frame, and the two checksum bytes in either wire order, with one
parameter for encoding and decoding. -/
def Obligations.FrameLayout : Prop :=
  (∀ (cfg : Config) (t : Tag) (payload : List Byte),
    encodeFrame cfg t payload =
      [t.b0, t.b1, t.b2, t.b3] ++ payload ++ enc16 cfg.crcLsbFirst
        (crc16 cfg.checksum ([t.b0, t.b1, t.b2, t.b3] ++ payload) cfg.crcSeed) ∧
    (encodeFrame cfg t payload).length = 6 + payload.length) ∧
  (∀ v : Half, enc16 true v = [v.extractLsb' 0 8, v.extractLsb' 8 8] ∧
    enc16 false v = [v.extractLsb' 8 8, v.extractLsb' 0 8]) ∧
  (∀ b0 b1 : Byte, (dec16 true b0 b1).toNat = b0.toNat + 256 * b1.toNat ∧
    (dec16 false b0 b1).toNat = 256 * b0.toNat + b1.toNat) ∧
  ∀ (lsb : Bool) (v : Half) (b0 b1 : Byte), enc16 lsb v = [b0, b1] → dec16 lsb b0 b1 = v

/-- R126: the phase of the parser as a function of the queued bytes and the table.  A tag without a
payload is never waited for in `AwaitingPayload` (the spec's own inference, "When `N` = 0"). -/
def Obligations.PhaseOfTheQueuedBytes : Prop :=
  ∀ (table : List TableEntry) (q : List Byte),
    (q.length < 4 → phaseOf table q = .awaitingTag) ∧
    (4 ≤ q.length → (∀ e ∈ table, tagBytes e.tag ≠ q.take 4) → phaseOf table q = .unknownTag) ∧
    ∀ e ∈ table, (table.map TableEntry.tag).Nodup → tagBytes e.tag = q.take 4 →
      (q.length < 4 + e.payloadLen → phaseOf table q = .awaitingPayload e) ∧
      (4 + e.payloadLen ≤ q.length → q.length < 6 + e.payloadLen →
        phaseOf table q = .awaitingChecksum e) ∧
      (6 + e.payloadLen ≤ q.length → phaseOf table q = .validating e) ∧
      (e.payloadLen = 0 → ∀ e', phaseOf table q ≠ .awaitingPayload e')

/-- R128: the checks of `FP_PROCESS`: halted, channel, and both Ring Buffers initialised. -/
def Obligations.FpProcessNeedsBothBuffers : Prop :=
  ∀ (ch : Byte) (s : State),
    encode (.fpProcess ch) = [0x40, ch] ∧
    ChecksFirst (.fpProcess ch) ch s ∧
    ∀ c, s.ready ch c → c.rxf.inited = false ∨ c.txf.inited = false →
      Raises (.fpProcess ch) s .assertUninit

/-- R129: with fewer bytes than the phase needs nothing is consumed and nothing changes; an
unrecognized tag costs exactly the oldest byte, with no response. -/
def Obligations.ParserWaitsOrResyncs : Prop :=
  ∀ (ch : Byte) (s : State) (c : Channel), s.ready ch c →
    c.rxf.inited = true → c.txf.inited = true →
    c.rxf.wf s.cfg.capacity = true → c.txf.wf s.cfg.capacity = true → s.tablesLegal = true →
    ((c.rxf.length < 4 ∨ ∃ e ∈ c.cfg.table,
        tagBytes e.tag = (c.rxf.contents s.cfg.capacity).take 4 ∧
        c.rxf.length < 6 + e.payloadLen) →
      Answers (.fpProcess ch) s (.ok (.outcome .noFrame))) ∧
    (4 ≤ c.rxf.length →
      (∀ e ∈ c.cfg.table, tagBytes e.tag ≠ (c.rxf.contents s.cfg.capacity).take 4) →
      ∃ R : Fifo,
        Leaves (.fpProcess ch) s ch { c with rxf := R } (.ok (.outcome .resync)) ∧
        R.contents s.cfg.capacity = (c.rxf.contents s.cfg.capacity).drop 1 ∧
        R = { c.rxf with
          getIndex := (c.rxf.getIndex + 1) % s.cfg.capacity, length := c.rxf.length - 1 })

/-- R130, R131: a frame whose checksum does not match is consumed whole; no handler is called and
nothing is queued. -/
def Obligations.ChecksumMismatchDiscardsTheFrame : Prop :=
  ∀ (ch : Byte) (s : State) (c : Channel) (e : TableEntry) (payload rest : List Byte) (x0 x1 : Byte),
    s.ready ch c → c.rxf.inited = true → c.txf.inited = true →
    c.rxf.wf s.cfg.capacity = true → c.txf.wf s.cfg.capacity = true → s.tablesLegal = true →
    e ∈ c.cfg.table → payload.length = e.payloadLen →
    c.rxf.contents s.cfg.capacity = tagBytes e.tag ++ payload ++ [x0, x1] ++ rest →
    crc16 s.cfg.checksum (tagBytes e.tag ++ payload) s.cfg.crcSeed ≠
      dec16 s.cfg.crcLsbFirst x0 x1 →
    ∃ R : Fifo,
      Leaves (.fpProcess ch) s ch { c with rxf := R } (.ok (.outcome .discard)) ∧
      R.contents s.cfg.capacity = rest ∧
      R = { c.rxf with
        getIndex := (c.rxf.getIndex + (6 + e.payloadLen)) % s.cfg.capacity
        length := c.rxf.length - (6 + e.payloadLen) }

/-- R130, R132, R133, R135: a valid frame is consumed exactly, its handler is called once with the
payload, and the response joins `TXF` whole: at the end of the queue if it fits, not at all if it does
not and the policy is off, in the place of the oldest bytes if the policy is on.  Three parts are no rule
of the spec: that the handler's result is the application's next written-out answer if it has one, and
otherwise anything, and that the call is recorded, are the model's choice (log entry 6); what `TXF`
holds as a queue is the inference of R84 ("Abstractly, policy off and fitting"); the invariant of `TXF`
afterwards includes I3 of R16, an inference too. -/
def Obligations.ValidFrameIsDispatched : Prop :=
  ∀ (ch : Byte) (s : State) (c : Channel) (e : TableEntry) (payload rest : List Byte) (x0 x1 : Byte),
    s.ready ch c → c.rxf.inited = true → c.txf.inited = true →
    c.rxf.wf s.cfg.capacity = true → c.txf.wf s.cfg.capacity = true → s.tablesLegal = true →
    e ∈ c.cfg.table → payload.length = e.payloadLen →
    c.rxf.contents s.cfg.capacity = tagBytes e.tag ++ payload ++ [x0, x1] ++ rest →
    crc16 s.cfg.checksum (tagBytes e.tag ++ payload) s.cfg.crcSeed =
      dec16 s.cfg.crcLsbFirst x0 x1 →
    ∃ (res : List Byte) (R T : Fifo),
      (∀ a as, c.app.answers = a :: as → res = a) ∧
      Leaves (.fpProcess ch) s ch
        { c with
          rxf := R
          txf := T
          app := { answers := c.app.answers.tail
                   calls := c.app.calls ++ [⟨e.handler, e.tag, payload, res⟩] } }
        (.ok (.outcome .dispatch)) ∧
      R.contents s.cfg.capacity = rest ∧
      R = { c.rxf with
        getIndex := (c.rxf.getIndex + (6 + e.payloadLen)) % s.cfg.capacity
        length := c.rxf.length - (6 + e.payloadLen) } ∧
      (c.txf.allowOverwrite = false → s.cfg.capacity < c.txf.length + (6 + res.length) →
        T = c.txf) ∧
      (c.txf.length + (6 + res.length) ≤ s.cfg.capacity →
        T.contents s.cfg.capacity =
          c.txf.contents s.cfg.capacity ++ encodeFrame s.cfg e.tag res) ∧
      (c.txf.allowOverwrite = true →
        T.contents s.cfg.capacity =
          (c.txf.contents s.cfg.capacity ++ encodeFrame s.cfg e.tag res).drop
            (c.txf.length + (6 + res.length) - s.cfg.capacity)) ∧
      (c.txf.allowOverwrite = true ∨ c.txf.length + (6 + res.length) ≤ s.cfg.capacity →
        T.putIndex = (c.txf.putIndex + (6 + res.length)) % s.cfg.capacity ∧
        T.getIndex = (c.txf.getIndex +
          (c.txf.length + (6 + res.length) - s.cfg.capacity)) % s.cfg.capacity) ∧
      T.wf s.cfg.capacity = true ∧ T.inited = true ∧ T.allowOverwrite = c.txf.allowOverwrite ∧
      (∀ a, (∀ k < 6 + res.length, a ≠ (c.txf.putIndex + k) % s.cfg.capacity) →
        T.storage.read a = c.txf.storage.read a)

/-- R134: an `FP_PROCESS` that does not return `NoFrame` removes at least one byte from `RXF`, one that
does removes none; and `PROCESS_ALL`, at most `RXF.length + 1` invocations, ends with `NoFrame`, which
the spec marks as its own inference ("[derived: from rule R128]"). -/
def Obligations.ProcessingMakesProgressAndEnds : Prop :=
  (∀ (ch : Byte) (s t : State) (c : Channel), s.ready ch c → c.rxf.inited = true →
    c.txf.inited = true → c.rxf.wf s.cfg.capacity = true →
    exec (.fpProcess ch) s = .next t →
    ∃ (o : ParseOutcome) (d : Channel) (n : Nat),
      t.result = some (.ok (.outcome o)) ∧ t.chans[ch.toNat]? = some d ∧
      d.rxf.contents s.cfg.capacity = (c.rxf.contents s.cfg.capacity).drop n ∧
      n ≤ c.rxf.length ∧ (n = 0 ↔ o = .noFrame) ∧ d.tmr = c.tmr) ∧
  ∀ (ch : Byte) (s : State) (c : Channel), s.wf = true → s.ready ch c → c.rxf.inited = true →
    c.txf.inited = true →
    ∃ t, processAll ch s = .next t ∧ t.halted = false ∧ t.result = some (.ok (.outcome .noFrame))

/-- R138 (a), the spec's own inference ("Frame round-trip"): a valid frame fed one byte at a time into
an empty `RXF`, with `FP_PROCESS` after every byte: every invocation before the last byte returns
`NoFrame`, after the last byte one returns `Dispatch` and the next `NoFrame`; the handler was called
once, with the payload (the record of the calls is the model's, log entry 6); `RXF` is empty. -/
def Obligations.FrameRoundTrip : Prop :=
  ∀ (ch : Byte) (s : State) (c : Channel) (e : TableEntry) (payload : List Byte),
    s.wf = true → s.ready ch c → c.up = true → c.rxf.length = 0 →
    e ∈ c.cfg.table → payload.length = e.payloadLen → 6 + e.payloadLen ≤ s.cfg.capacity →
    ∃ (t : State) (d : Channel) (res : List Byte),
      runResults (((encodeFrame s.cfg e.tag payload).flatMap fun b =>
          [Instr.rxByte ch b, Instr.fpProcess ch]) ++ [Instr.fpProcess ch]) s =
        some ((List.replicate (5 + e.payloadLen)
            [some (.ok .done), some (.ok (.outcome .noFrame))]).flatten ++
          [some (.ok .done), some (.ok (.outcome .dispatch)), some (.ok (.outcome .noFrame))], t) ∧
      t.chans[ch.toNat]? = some d ∧ d.rxf.length = 0 ∧
      d.app.calls = c.app.calls ++ [⟨e.handler, e.tag, payload, res⟩]

/-! ### Channel, byte reception, pump -/

/-- R145: `CH_INIT` checks the table before anything changes, then initialises both Ring Buffers, then
the timer; without a timer slot it faults with both Ring Buffers initialised.  An engaged timer and
`wireOut` are left alone. -/
def Obligations.ChInitBringsTheChannelUp : Prop :=
  ∀ (ch : Byte) (s : State),
    encode (.chInit ch) = [0x50, ch] ∧
    ChecksFirst (.chInit ch) ch s ∧
    ∀ c, s.ready ch c →
      ((∃ e ∈ c.cfg.table, s.cfg.capacity < 6 + e.payloadLen) →
        Raises (.chInit ch) s .configFrameTooLong) ∧
      ((∀ e ∈ c.cfg.table, 6 + e.payloadLen ≤ s.cfg.capacity) → ∃ R T : Fifo,
        (R = { storage := [], length := 0, putIndex := 0, getIndex := 0, allowOverwrite := false,
               inited := true }) ∧ T = R ∧ (∀ a, R.storage.read a = 0) ∧
        (c.tmr.engaged = true →
          Leaves (.chInit ch) s ch { c with rxf := R, txf := T } (.ok .done)) ∧
        (c.tmr.engaged = false → c.cfg.timerSlot = true →
          Leaves (.chInit ch) s ch
            { c with rxf := R, txf := T,
                     tmr := { engaged := true, planned := false,
                              deadline := s.now - 0x80000000#32 } } (.ok .done)) ∧
        (c.tmr.engaged = false → c.cfg.timerSlot = false →
          exec (.chInit ch) s =
            .next { s with
              chans := s.chans.set ch.toNat { c with rxf := R, txf := T }
              halted := true
              faultCode := .timerAllocFail
              result := some (.fault .timerAllocFail) }))

/-- R146, R147: `RXBYTE` queues the byte and arms the timer with `IDLE_DELAY_MS` in one step; where the
put fails the byte is lost, `RXF` is unchanged and the timer is armed all the same.  What `RXF` holds as
a queue afterwards is the inference of R83 ("In terms of the abstract queue"), and its invariant
includes I3 of R16, an inference too; where `IDLE_DELAY_MS` lies outside the range of R5, that the timer
is armed with it is the model's choice (log entry 9). -/
def Obligations.RxByteQueuesAndArms : Prop :=
  ∀ (ch b : Byte) (s : State),
    encode (.rxByte ch b) = [0x51, ch, b] ∧
    ChecksFirst (.rxByte ch b) ch s ∧
    ∀ c, s.ready ch c →
      (c.rxf.inited = false ∨ c.tmr.engaged = false → Raises (.rxByte ch b) s .assertUninit) ∧
      (c.rxf.inited = true → c.tmr.engaged = true → c.rxf.wf s.cfg.capacity = true →
        (c.rxf.length = s.cfg.capacity → c.rxf.allowOverwrite = false →
          Leaves (.rxByte ch b) s ch
            { c with tmr := { c.tmr with planned := true, deadline := s.now + s.cfg.idleDelay } }
            .fail) ∧
        (c.rxf.length < s.cfg.capacity ∨ c.rxf.allowOverwrite = true → ∃ G : Fifo,
          Leaves (.rxByte ch b) s ch
            { c with rxf := G,
                     tmr := { c.tmr with planned := true, deadline := s.now + s.cfg.idleDelay } }
            (.ok .done) ∧
          G.contents s.cfg.capacity =
            (c.rxf.contents s.cfg.capacity ++ [b]).drop (c.rxf.length + 1 - s.cfg.capacity) ∧
          (∀ a, G.storage.read a = if a = c.rxf.putIndex then b else c.rxf.storage.read a) ∧
          G.putIndex = (c.rxf.putIndex + 1) % s.cfg.capacity ∧
          G.allowOverwrite = c.rxf.allowOverwrite ∧ G.inited = true ∧
          G.wf s.cfg.capacity = true))

/-- R148: `PUMP` moves the oldest `min(k, TXF.length)` bytes of `TXF` to `wireOut`, in order, and
returns how many. -/
def Obligations.PumpMovesTheOldestBytes : Prop :=
  ∀ (ch : Byte) (k : Half) (s : State),
    encode (.pump ch k) =
      [0x52, ch, BitVec.ofNat 8 (k.toNat % 256), BitVec.ofNat 8 (k.toNat / 256)] ∧
    ChecksFirst (.pump ch k) ch s ∧
    ∀ c, s.ready ch c →
      (c.txf.inited = false → Raises (.pump ch k) s .assertUninit) ∧
      (c.txf.inited = true → c.txf.wf s.cfg.capacity = true → ∃ T : Fifo,
        Leaves (.pump ch k) s ch
          { c with
            txf := T
            wireOut := c.wireOut ++ (c.txf.contents s.cfg.capacity).take (min k.toNat c.txf.length) }
          (.ok (.moved (min k.toNat c.txf.length))) ∧
        T.contents s.cfg.capacity =
          (c.txf.contents s.cfg.capacity).drop (min k.toNat c.txf.length) ∧
        T = { c.txf with
          getIndex := (c.txf.getIndex + min k.toNat c.txf.length) % s.cfg.capacity
          length := c.txf.length - min k.toNat c.txf.length })

/-- R151 (the spec's own inference): the order on the wire.  Over any run of operations that leaves
`TXF` of a channel to its parser and its pump, with its policy off, `wireOut` followed by the queued
bytes of `TXF` grows by the responses to some of the channel's new handler calls, whole and in the order
of the calls (the record of the calls is the model's, log entry 6). -/
def Obligations.ResponsesLeaveInOrder : Prop :=
  ∀ (is : List Instr) (s t : State) (k : Nat) (c d : Channel), s.wf = true →
    s.chans[k]? = some c → c.txf.inited = true → c.txf.allowOverwrite = false →
    (∀ i ∈ is, ∀ ch : Byte, ch.toNat = k →
      i ≠ .fifoInit .tx ch ∧ i ≠ .fifoReset .tx ch ∧ (∀ b, i ≠ .fifoSetOvw .tx ch b) ∧
      (∀ b, i ≠ .put .tx ch b) ∧ (∀ x, i ≠ .putSpan .tx ch x) ∧ i ≠ .get .tx ch ∧
      (∀ n, i ≠ .getSpan .tx ch n) ∧ i ≠ .chInit ch) →
    execList is s = .next t → t.chans[k]? = some d →
    ∃ new queued : List HandlerCall,
      d.app.calls = c.app.calls ++ new ∧ queued.Sublist new ∧
      d.wireOut ++ d.txf.contents s.cfg.capacity =
        c.wireOut ++ c.txf.contents s.cfg.capacity ++
          queued.flatMap fun call => encodeFrame s.cfg call.tag call.response

/-! ### Order of the checks, channels -/

/-- R167: which fault an operation reports when several apply. -/
def Obligations.OrderOfTheChecks : Prop :=
  -- 1. halted, before everything else but `TICK`; 2. a reserved opcode
  (∀ (s : State) (r : List Byte) (rest : List (List Byte)) (op : Byte), s.tablesLegal = true →
    s.requests = r :: rest → decode r = .reservedOpcode op →
    (s.halted = true → step s =
      .next { s with requests := rest, result := some (.fault s.faultCode) }) ∧
    (s.halted = false → step s =
      .next { s with requests := rest, halted := true, faultCode := .illegalRequest,
                     result := some (.fault .illegalRequest) })) ∧
  (∀ (i : Instr) (s : State), (∀ ch, i ≠ .tick ch) → s.halted = true →
    Answers i s (.fault s.faultCode)) ∧
  (∀ (ch : Byte) (s : State), s.halted = true →
    exec (.tick ch) s = .next { s with now := s.now + 1#32, result := some (.ok (.fired 0)) }) ∧
  -- 3. the channel index, before the operand and the initialisation
  (∀ (i : Instr) (ch : Byte) (s : State), channelOf i = some ch → s.halted = false →
    s.chans.length ≤ ch.toNat → Raises i s .assertBadChannel) ∧
  (∀ (ch ch' : Byte) (seed : Half) (d : List Byte) (s : State),
    exec (.tick ch) s = exec (.tick ch') s ∧
    exec (.crc16 ch seed d) s = exec (.crc16 ch' seed d) s) ∧
  -- 4. the operand, before the initialisation
  (∀ (s : State) (ch : Byte) (c : Channel), s.ready ch c →
    (∀ f b, 1 < b.toNat → Raises (.fifoSetOvw f ch b) s .illegalOperand) ∧
    (∀ delay, 2 ^ 31 ≤ delay.toNat → Raises (.tmrArm ch delay) s .illegalOperand) ∧
    -- 5. the initialisation, before the operation's own conditions
    (∀ f, (c.fifo f).inited = false →
      Raises (.fifoReset f ch) s .assertUninit ∧ (∀ b, b.toNat ≤ 1 →
        Raises (.fifoSetOvw f ch b) s .assertUninit) ∧
      (∀ b, Raises (.put f ch b) s .assertUninit) ∧
      (∀ d, Raises (.putSpan f ch d) s .assertUninit) ∧ Raises (.get f ch) s .assertUninit ∧
      Raises (.peek f ch) s .assertUninit ∧ (∀ n, Raises (.getSpan f ch n) s .assertUninit) ∧
      Raises (.size f ch) s .assertUninit) ∧
    (c.tmr.engaged = false →
      (∀ delay, delay.toNat < 2 ^ 31 → Raises (.tmrArm ch delay) s .assertUninit) ∧
      Raises (.tmrCancel ch) s .assertUninit) ∧
    (c.rxf.inited = false ∨ c.txf.inited = false → Raises (.fpProcess ch) s .assertUninit) ∧
    (c.rxf.inited = false ∨ c.tmr.engaged = false → ∀ b, Raises (.rxByte ch b) s .assertUninit) ∧
    (c.txf.inited = false → ∀ k, Raises (.pump ch k) s .assertUninit) ∧
    -- 6. for `CH_INIT` the table, before the timer slot
    ((∃ e ∈ c.cfg.table, s.cfg.capacity < 6 + e.payloadLen) →
      Raises (.chInit ch) s .configFrameTooLong)) ∧
  -- 7. a status failure is reported only where no fault applies
  ∀ (i : Instr) (s t : State), exec i s = .next t → t.result = some .fail →
    s.halted = false ∧ t.halted = false ∧ ∃ ch c, channelOf i = some ch ∧ s.ready ch c

/-- R54: an operation on a channel reads and writes only that channel, `now` (read) and the halt record;
the application's state for the channel is part of the channel.  First, it changes no other channel and
not `now`.  Second, in two states that agree on these parts it gives the same result and leaves them the
same. -/
def Obligations.ChannelsAreIndependent : Prop :=
  (∀ (i : Instr) (ch : Byte) (s t : State), channelOf i = some ch → exec i s = .next t →
    t.now = s.now ∧ t.requests = s.requests ∧ t.chans.length = s.chans.length ∧
    ∀ k, k ≠ ch.toNat → t.chans[k]? = s.chans[k]?) ∧
  ∀ (i : Instr) (ch : Byte) (s s' t : State), channelOf i = some ch →
    s'.cfg = s.cfg → s'.now = s.now → s'.halted = s.halted → s'.faultCode = s.faultCode →
    s'.chans[ch.toNat]? = s.chans[ch.toNat]? → exec i s = .next t →
    ∃ t', exec i s' = .next t' ∧ t'.result = t.result ∧ t'.halted = t.halted ∧
      t'.faultCode = t.faultCode ∧ t'.chans[ch.toNat]? = t.chans[ch.toNat]?

/-- R54 (the spec's own inference: "operations on different channels commute, except that a fault in one
halts all"): where neither of two operations on different channels raises a fault, performing them in
either order gives each the same result and leaves the same block. -/
def Obligations.OperationsOnChannelsCommute : Prop :=
  ∀ (i j : Instr) (ch ch' : Byte) (s t u : State),
    channelOf i = some ch → channelOf j = some ch' → ch ≠ ch' →
    exec i s = .next t → exec j s = .next u → t.halted = s.halted → u.halted = s.halted →
    ∃ v w, exec j t = .next v ∧ exec i u = .next w ∧ v.result = u.result ∧ w.result = t.result ∧
      v = { w with result := v.result }
end

