-- ==== Sys2Proof/Laws/State.lean ====
section
/-! SUPPORT. One lemma per field per state update, each true by unfolding, so that no later proof
unfolds a record update. -/

namespace Sys2Proof.Machine

/-! ### `State.answered` -/
@[simp] theorem State.answered_cfg (s : State) (r : Result) : (s.answered r).cfg = s.cfg := rfl
@[simp] theorem State.answered_now (s : State) (r : Result) : (s.answered r).now = s.now := rfl
@[simp] theorem State.answered_halted (s : State) (r : Result) : (s.answered r).halted = s.halted := rfl
@[simp] theorem State.answered_faultCode (s : State) (r : Result) :
    (s.answered r).faultCode = s.faultCode := rfl
@[simp] theorem State.answered_chans (s : State) (r : Result) : (s.answered r).chans = s.chans := rfl
@[simp] theorem State.answered_result (s : State) (r : Result) : (s.answered r).result = some r := rfl
@[simp] theorem State.answered_requests (s : State) (r : Result) :
    (s.answered r).requests = s.requests := rfl

/-! ### `State.committed` -/
@[simp] theorem State.committed_cfg (s : State) (ch : Byte) (c : Channel) (r : Result) :
    (s.committed ch c r).cfg = s.cfg := rfl
@[simp] theorem State.committed_now (s : State) (ch : Byte) (c : Channel) (r : Result) :
    (s.committed ch c r).now = s.now := rfl
@[simp] theorem State.committed_halted (s : State) (ch : Byte) (c : Channel) (r : Result) :
    (s.committed ch c r).halted = s.halted := rfl
@[simp] theorem State.committed_faultCode (s : State) (ch : Byte) (c : Channel) (r : Result) :
    (s.committed ch c r).faultCode = s.faultCode := rfl
@[simp] theorem State.committed_chans (s : State) (ch : Byte) (c : Channel) (r : Result) :
    (s.committed ch c r).chans = s.chans.set ch.toNat c := rfl
@[simp] theorem State.committed_result (s : State) (ch : Byte) (c : Channel) (r : Result) :
    (s.committed ch c r).result = some r := rfl
@[simp] theorem State.committed_requests (s : State) (ch : Byte) (c : Channel) (r : Result) :
    (s.committed ch c r).requests = s.requests := rfl

/-! ### `State.faulted` -/
@[simp] theorem State.faulted_cfg (s : State) (k : FaultCode) : (s.faulted k).cfg = s.cfg := rfl
@[simp] theorem State.faulted_now (s : State) (k : FaultCode) : (s.faulted k).now = s.now := rfl
@[simp] theorem State.faulted_halted (s : State) (k : FaultCode) : (s.faulted k).halted = true := rfl
@[simp] theorem State.faulted_faultCode (s : State) (k : FaultCode) :
    (s.faulted k).faultCode = k := rfl
@[simp] theorem State.faulted_chans (s : State) (k : FaultCode) : (s.faulted k).chans = s.chans := rfl
@[simp] theorem State.faulted_result (s : State) (k : FaultCode) :
    (s.faulted k).result = some (.fault k) := rfl
@[simp] theorem State.faulted_requests (s : State) (k : FaultCode) :
    (s.faulted k).requests = s.requests := rfl

/-! ### `Channel.setFifo` -/
@[simp] theorem Channel.setFifo_cfg (c : Channel) (f : FifoSel) (F : Fifo) :
    (c.setFifo f F).cfg = c.cfg := by cases f <;> rfl
@[simp] theorem Channel.setFifo_tmr (c : Channel) (f : FifoSel) (F : Fifo) :
    (c.setFifo f F).tmr = c.tmr := by cases f <;> rfl
@[simp] theorem Channel.setFifo_wireOut (c : Channel) (f : FifoSel) (F : Fifo) :
    (c.setFifo f F).wireOut = c.wireOut := by cases f <;> rfl
@[simp] theorem Channel.setFifo_app (c : Channel) (f : FifoSel) (F : Fifo) :
    (c.setFifo f F).app = c.app := by cases f <;> rfl
@[simp] theorem Channel.fifo_setFifo (c : Channel) (f : FifoSel) (F : Fifo) :
    (c.setFifo f F).fifo f = F := by cases f <;> rfl
@[simp] theorem Channel.setFifo_fifo (c : Channel) (f : FifoSel) : c.setFifo f (c.fifo f) = c := by
  cases f <;> rfl

/-- The other Ring Buffer of the channel is left alone. -/
theorem Channel.fifo_setFifo_of_ne (c : Channel) {f g : FifoSel} (F : Fifo) (h : g ≠ f) :
    (c.setFifo f F).fifo g = c.fifo g := by cases f <;> cases g <;> first | rfl | exact absurd rfl h

/-! ### `Fifo` updates -/
@[simp] theorem Fifo.init_inited (F : Fifo) : F.init.inited = true := rfl
@[simp] theorem Fifo.init_length (F : Fifo) : F.init.length = 0 := rfl
@[simp] theorem Fifo.init_putIndex (F : Fifo) : F.init.putIndex = 0 := rfl
@[simp] theorem Fifo.init_getIndex (F : Fifo) : F.init.getIndex = 0 := rfl
@[simp] theorem Fifo.init_allowOverwrite (F : Fifo) : F.init.allowOverwrite = false := rfl
@[simp] theorem Fifo.init_storage (F : Fifo) : F.init.storage = [] := rfl
@[simp] theorem Fifo.reset_inited (F : Fifo) : F.reset.inited = F.inited := rfl
@[simp] theorem Fifo.reset_length (F : Fifo) : F.reset.length = 0 := rfl
@[simp] theorem Fifo.reset_putIndex (F : Fifo) : F.reset.putIndex = 0 := rfl
@[simp] theorem Fifo.reset_getIndex (F : Fifo) : F.reset.getIndex = 0 := rfl
@[simp] theorem Fifo.reset_allowOverwrite (F : Fifo) : F.reset.allowOverwrite = false := rfl
@[simp] theorem Fifo.reset_storage (F : Fifo) : F.reset.storage = F.storage := rfl
@[simp] theorem Fifo.setOverwrite_inited (F : Fifo) (p : Bool) :
    (F.setOverwrite p).inited = F.inited := rfl
@[simp] theorem Fifo.setOverwrite_length (F : Fifo) (p : Bool) :
    (F.setOverwrite p).length = F.length := rfl
@[simp] theorem Fifo.setOverwrite_putIndex (F : Fifo) (p : Bool) :
    (F.setOverwrite p).putIndex = F.putIndex := rfl
@[simp] theorem Fifo.setOverwrite_getIndex (F : Fifo) (p : Bool) :
    (F.setOverwrite p).getIndex = F.getIndex := rfl
@[simp] theorem Fifo.setOverwrite_allowOverwrite (F : Fifo) (p : Bool) :
    (F.setOverwrite p).allowOverwrite = p := rfl
@[simp] theorem Fifo.setOverwrite_storage (F : Fifo) (p : Bool) :
    (F.setOverwrite p).storage = F.storage := rfl
@[simp] theorem Fifo.dropped_inited (cap : Nat) (F : Fifo) : (F.dropped cap).inited = F.inited := rfl
@[simp] theorem Fifo.dropped_length (cap : Nat) (F : Fifo) :
    (F.dropped cap).length = F.length - 1 := rfl
@[simp] theorem Fifo.dropped_putIndex (cap : Nat) (F : Fifo) :
    (F.dropped cap).putIndex = F.putIndex := rfl
@[simp] theorem Fifo.dropped_getIndex (cap : Nat) (F : Fifo) :
    (F.dropped cap).getIndex = nextIndex cap F.getIndex := rfl
@[simp] theorem Fifo.dropped_allowOverwrite (cap : Nat) (F : Fifo) :
    (F.dropped cap).allowOverwrite = F.allowOverwrite := rfl
@[simp] theorem Fifo.dropped_storage (cap : Nat) (F : Fifo) :
    (F.dropped cap).storage = F.storage := rfl

/-! ### `Timer` updates -/
@[simp] theorem Timer.engage_planned (now : Time) (t : Timer) : (t.engage now).planned = false := rfl
@[simp] theorem Timer.engage_engaged (now : Time) (t : Timer) : (t.engage now).engaged = true := rfl
@[simp] theorem Timer.engage_deadline (now : Time) (t : Timer) :
    (t.engage now).deadline = now - Time.half := rfl
@[simp] theorem Timer.arm_planned (now d : Time) (t : Timer) : (t.arm now d).planned = true := rfl
@[simp] theorem Timer.arm_engaged (now d : Time) (t : Timer) :
    (t.arm now d).engaged = t.engaged := rfl
@[simp] theorem Timer.arm_deadline (now d : Time) (t : Timer) :
    (t.arm now d).deadline = now + d := rfl
@[simp] theorem Timer.cancel_planned (now : Time) (t : Timer) : (t.cancel now).planned = false := rfl
@[simp] theorem Timer.cancel_engaged (now : Time) (t : Timer) :
    (t.cancel now).engaged = t.engaged := rfl
@[simp] theorem Timer.cancel_deadline (now : Time) (t : Timer) :
    (t.cancel now).deadline = now - Time.half := rfl
@[simp] theorem Timer.disarm_planned (t : Timer) : t.disarm.planned = false := rfl
@[simp] theorem Timer.disarm_engaged (t : Timer) : t.disarm.engaged = t.engaged := rfl
@[simp] theorem Timer.disarm_deadline (t : Timer) : t.disarm.deadline = t.deadline := rfl

/-! ### `Channel` updates -/
@[simp] theorem Channel.fire_cfg (c : Channel) : c.fire.cfg = c.cfg := rfl
@[simp] theorem Channel.fire_rxf (c : Channel) : c.fire.rxf = c.rxf.reset := rfl
@[simp] theorem Channel.fire_txf (c : Channel) : c.fire.txf = c.txf := rfl
@[simp] theorem Channel.fire_tmr (c : Channel) : c.fire.tmr = c.tmr.disarm := rfl
@[simp] theorem Channel.fire_wireOut (c : Channel) : c.fire.wireOut = c.wireOut := rfl
@[simp] theorem Channel.fire_app (c : Channel) : c.fire.app = c.app := rfl

/-! ### `State.withRequest` -/
@[simp] theorem State.withRequest_cfg (s : State) (r : List Byte) :
    (s.withRequest r).cfg = s.cfg := rfl
@[simp] theorem State.withRequest_now (s : State) (r : List Byte) :
    (s.withRequest r).now = s.now := rfl
@[simp] theorem State.withRequest_halted (s : State) (r : List Byte) :
    (s.withRequest r).halted = s.halted := rfl
@[simp] theorem State.withRequest_faultCode (s : State) (r : List Byte) :
    (s.withRequest r).faultCode = s.faultCode := rfl
@[simp] theorem State.withRequest_chans (s : State) (r : List Byte) :
    (s.withRequest r).chans = s.chans := rfl
@[simp] theorem State.withRequest_result (s : State) (r : List Byte) :
    (s.withRequest r).result = s.result := rfl
@[simp] theorem State.withRequest_requests (s : State) (r : List Byte) :
    (s.withRequest r).requests = r :: s.requests := rfl

end Sys2Proof.Machine
end

