-- ==== Sys2Proof/Laws/Memory.lean ====
section
/-! SUPPORT. The storage: a read after a write, and that a write keeps the canonical form. -/

namespace Sys2Proof.Machine

theorem Memory.above_iff {a : Nat} {m : Memory} :
    Memory.above a m = true ↔ ∀ c ∈ m, a < c.1 := by simp [Memory.above]

theorem Memory.below_iff {cap : Nat} {m : Memory} :
    Memory.below cap m = true ↔ ∀ c ∈ m, c.1 < cap := by simp [Memory.below]

theorem Memory.wf_cons_iff {x : Nat} {w : Byte} {rest : Memory} :
    Memory.wf ((x, w) :: rest) = true ↔
      w ≠ unlistedByte ∧ (∀ c ∈ rest, x < c.1) ∧ Memory.wf rest = true := by
  simp only [Memory.wf, Bool.and_eq_true, bne_iff_ne, Memory.above_iff, and_assoc, ne_eq]

/-- The cells after a write are old ones, but for the one written. -/
theorem Memory.mem_write {m : Memory} {a : Nat} {v : Byte} {c : Host.Cell}
    (h : c ∈ Memory.write m a v) : c ∈ m ∨ c = (a, v) := by
  induction m with
  | nil =>
    simp only [Memory.write, Memory.cons] at h
    split_ifs at h <;> simp_all
  | cons d rest ih =>
    obtain ⟨x, w⟩ := d
    simp only [Memory.write, Memory.cons] at h
    split_ifs at h <;> simp only [List.mem_cons] at h ⊢ <;> tauto

/-- An index below every cell reads as an unlisted one. -/
theorem Memory.read_of_above {m : Memory} {a : Nat} (h : ∀ c ∈ m, a < c.1) :
    Memory.read m a = unlistedByte := by
  induction m with
  | nil => rfl
  | cons c rest ih =>
    obtain ⟨x, w⟩ := c
    have hx : x ≠ a := by have := h (x, w) (by simp); simp at this; omega
    simpa [Memory.read, hx] using ih fun c hc => h c (by simp [hc])

theorem Memory.read_cons {a x : Nat} {v : Byte} {rest : Memory} (h : ∀ c ∈ rest, x < c.1) :
    Memory.read (Memory.cons x v rest) a = if x = a then v else Memory.read rest a := by
  unfold Memory.cons
  by_cases hv : v = unlistedByte
  · by_cases hx : x = a
    · subst hx
      simp [hv, Memory.read_of_above h]
    · simp [hv, hx]
  · simp [hv, Memory.read]

theorem Memory.wf_consOf {x : Nat} {v : Byte} {rest : Memory} (h : ∀ c ∈ rest, x < c.1)
    (hr : Memory.wf rest = true) : Memory.wf (Memory.cons x v rest) = true := by
  unfold Memory.cons
  split_ifs with hv
  · exact hr
  · exact Memory.wf_cons_iff.2 ⟨hv, h, hr⟩

/-- A read after a write: the byte written at its own index, the old byte at any other. -/
theorem Memory.read_write {m : Memory} (h : Memory.wf m = true) (a b : Nat) (v : Byte) :
    Memory.read (Memory.write m a v) b = if a = b then v else Memory.read m b := by
  induction m with
  | nil => exact Memory.read_cons (by simp)
  | cons c rest ih =>
    obtain ⟨x, w⟩ := c
    obtain ⟨-, habove, hrest⟩ := Memory.wf_cons_iff.1 h
    rcases lt_trichotomy a x with hlt | rfl | hgt
    · have hall : ∀ c ∈ (x, w) :: rest, a < c.1 := by
        intro c hc
        rcases List.mem_cons.1 hc with rfl | hc
        · exact hlt
        · exact hlt.trans (habove c hc)
      simp only [Memory.write, hlt, if_true, Memory.read_cons hall]
    · simp only [Memory.write, lt_irrefl, if_false, if_true, Memory.read_cons habove]
      by_cases hb : a = b <;> simp [Memory.read, hb]
    · have h1 : ¬ a < x := by omega
      have h2 : a ≠ x := by omega
      simp only [Memory.write, h1, h2, if_false, Memory.read, ih hrest]
      by_cases hb : x = b
      · have : a ≠ b := by omega
        simp [hb, this]
      · simp [hb]

/-- A write keeps the canonical form. -/
theorem Memory.wf_write {m : Memory} (h : Memory.wf m = true) (a : Nat) (v : Byte) :
    Memory.wf (Memory.write m a v) = true := by
  induction m with
  | nil => exact Memory.wf_consOf (by simp) rfl
  | cons c rest ih =>
    obtain ⟨x, w⟩ := c
    obtain ⟨hw, habove, hrest⟩ := Memory.wf_cons_iff.1 h
    rcases lt_trichotomy a x with hlt | rfl | hgt
    · simp only [Memory.write, hlt, if_true]
      refine Memory.wf_consOf (fun c hc => ?_) h
      rcases List.mem_cons.1 hc with rfl | hc
      · exact hlt
      · exact hlt.trans (habove c hc)
    · simpa only [Memory.write, lt_irrefl, if_false, if_true] using Memory.wf_consOf habove hrest
    · have h1 : ¬ a < x := by omega
      have h2 : a ≠ x := by omega
      simp only [Memory.write, h1, h2, if_false]
      refine Memory.wf_cons_iff.2 ⟨hw, fun c hc => ?_, ih hrest⟩
      rcases Memory.mem_write hc with hc | rfl
      · exact habove c hc
      · exact hgt

/-- A write below `cap` keeps every cell below `cap`. -/
theorem Memory.below_write {cap : Nat} {m : Memory} (h : Memory.below cap m = true) {a : Nat}
    (ha : a < cap) (v : Byte) : Memory.below cap (Memory.write m a v) = true := by
  rw [Memory.below_iff] at h ⊢
  intro c hc
  rcases Memory.mem_write hc with hc | rfl
  · exact h c hc
  · exact ha

/-- Canonical storages that read the same are the same. -/
theorem Memory.ext_of_read {m m' : Memory} (h : Memory.wf m = true) (h' : Memory.wf m' = true)
    (hread : ∀ a, Memory.read m a = Memory.read m' a) : m = m' := by
  induction m generalizing m' with
  | nil =>
    cases m' with
    | nil => rfl
    | cons c r =>
      obtain ⟨x, w⟩ := c
      obtain ⟨hw, -, -⟩ := Memory.wf_cons_iff.1 h'
      have := hread x
      simp [Memory.read] at this
      exact absurd this.symm hw
  | cons c r ih =>
    obtain ⟨x, w⟩ := c
    obtain ⟨hw, hab, hr⟩ := Memory.wf_cons_iff.1 h
    cases m' with
    | nil =>
      have := hread x
      simp [Memory.read] at this
      exact absurd this hw
    | cons c' r' =>
      obtain ⟨x', w'⟩ := c'
      obtain ⟨hw', hab', hr'⟩ := Memory.wf_cons_iff.1 h'
      have hx : x = x' := by
        rcases lt_trichotomy x x' with hlt | heq | hgt
        · exfalso
          have h1 := hread x
          have hne : x' ≠ x := by omega
          simp only [Memory.read, if_true, hne, if_false] at h1
          rw [Memory.read_of_above fun c hc => hlt.trans (hab' c hc)] at h1
          exact hw h1
        · exact heq
        · exfalso
          have h1 := hread x'
          have hne : x ≠ x' := by omega
          simp only [Memory.read, if_true, hne, if_false] at h1
          rw [Memory.read_of_above fun c hc => hgt.trans (hab c hc)] at h1
          exact hw' h1.symm
      subst hx
      have hww : w = w' := by simpa [Memory.read] using hread x
      subst hww
      refine congrArg _ (ih hr hr' fun a => ?_)
      by_cases hxa : x = a
      · subst hxa
        rw [Memory.read_of_above hab, Memory.read_of_above hab']
      · simpa [Memory.read, hxa] using hread a

end Sys2Proof.Machine
end

