-- ==== Sys2Proof/Laws/Fifo.lean ====
section
/-! SUPPORT. The Ring Buffer operations in terms of the queue (R17): what each does to the queued
bytes, and that each keeps the invariants of R16. -/

namespace Sys2Proof.Machine

/-! ### Ring indices -/

/-- Two positions less than `cap` apart are different slots. -/
theorem ring_slot_ne {cap g i j : Nat} (hij : i < j) (hj : j < i + cap) :
    (g + i) % cap ≠ (g + j) % cap := by
  intro h
  have hdvd : cap ∣ (g + j) - (g + i) := (Nat.modEq_iff_dvd' (by omega)).1 h
  have := Nat.le_of_dvd (by omega) hdvd
  omega

theorem ring_add_cap (cap g : Nat) : (g + cap) % cap = g % cap := Nat.add_mod_right g cap

theorem nextIndex_add (cap g k : Nat) : (nextIndex cap g + k) % cap = (g + (k + 1)) % cap := by
  unfold nextIndex
  rw [Nat.mod_add_mod]
  congr 1
  omega

theorem nextIndex_mod (cap g k : Nat) : nextIndex cap ((g + k) % cap) = (g + (k + 1)) % cap := by
  unfold nextIndex
  rw [Nat.mod_add_mod]
  congr 1

theorem nextIndex_lt {cap i : Nat} (h : 0 < cap) : nextIndex cap i < cap := Nat.mod_lt _ h

/-! ### The invariants of R16 as a proposition -/

/-- `Fifo.wf` of an initialised Ring Buffer, spelled out. -/
structure Fifo.Ring (cap : Nat) (F : Fifo) : Prop where
  storage_wf : F.storage.wf = true
  storage_below : F.storage.below cap = true
  length_le : F.length ≤ cap
  put_lt : F.putIndex < cap
  get_lt : F.getIndex < cap
  put_eq : F.putIndex = (F.getIndex + F.length) % cap

theorem Fifo.ring_of_wf {cap : Nat} {F : Fifo} (h : F.wf cap = true) (hi : F.inited = true) :
    F.Ring cap := by
  simp only [Fifo.wf, hi, Bool.not_true, Bool.false_or, Fifo.addressable, Bool.and_eq_true,
    decide_eq_true_eq, beq_iff_eq] at h
  exact ⟨h.1.1, h.1.2, h.2.1.1, h.2.1.2.1, h.2.1.2.2, h.2.2⟩

theorem Fifo.Ring.wf {cap : Nat} {F : Fifo} (h : F.Ring cap) : F.wf cap = true := by
  simp only [Fifo.wf, Fifo.addressable, Bool.and_eq_true, Bool.or_eq_true, decide_eq_true_eq,
    beq_iff_eq]
  exact ⟨⟨h.storage_wf, h.storage_below⟩, .inr ⟨⟨h.length_le, h.put_lt, h.get_lt⟩, h.put_eq⟩⟩

theorem Fifo.Ring.addressable {cap : Nat} {F : Fifo} (h : F.Ring cap) :
    F.addressable cap = true := by simp [Fifo.addressable, h.put_lt, h.get_lt]

theorem Fifo.Ring.cap_pos {cap : Nat} {F : Fifo} (h : F.Ring cap) : 0 < cap :=
  lt_of_le_of_lt (Nat.zero_le _) h.put_lt

theorem Fifo.wf_storage {cap : Nat} {F : Fifo} (h : F.wf cap = true) :
    F.storage.wf = true ∧ F.storage.below cap = true := by
  simp only [Fifo.wf, Bool.and_eq_true] at h
  exact h.1

/-! ### `contents` -/

@[simp] theorem Fifo.contents_length (cap : Nat) (F : Fifo) : (F.contents cap).length = F.length := by
  simp [Fifo.contents]

/-- The byte at position `k` of the queue. -/
theorem Fifo.contents_getElem? (cap : Nat) (F : Fifo) (k : Nat) :
    (F.contents cap)[k]? =
      if k < F.length then some (F.storage.read ((F.getIndex + k) % cap)) else none := by
  unfold Fifo.contents
  split_ifs with h
  · simp [List.getElem?_range h]
  · simpa using h

/-- The oldest byte is the head of the queue. -/
theorem Fifo.Ring.contents_cons {cap : Nat} {F : Fifo} (h : F.Ring cap) (hl : 0 < F.length) :
    F.contents cap = F.oldest :: (F.dropped cap).contents cap := by
  apply List.ext_getElem?
  intro k
  cases k with
  | zero =>
    rw [Fifo.contents_getElem?, if_pos hl, Nat.add_zero, Nat.mod_eq_of_lt h.get_lt]
    rfl
  | succ k =>
    simp only [List.getElem?_cons_succ, Fifo.contents_getElem?, Fifo.dropped_length,
      Fifo.dropped_getIndex, Fifo.dropped_storage, nextIndex_add]
    split_ifs <;> first | rfl | omega

theorem Fifo.Ring.contents_eq_nil {cap : Nat} {F : Fifo} (hl : F.length = 0) :
    F.contents cap = [] := by simp [Fifo.contents, hl]

/-! ### `FIFO_INIT`, `FIFO_RESET`, `FIFO_SETOVW` -/

theorem Fifo.ring_init {cap : Nat} (hc : 0 < cap) (F : Fifo) : F.init.Ring cap :=
  ⟨rfl, rfl, Nat.zero_le _, hc, hc, (Nat.zero_mod cap).symm⟩

theorem Fifo.wf_reset {cap : Nat} (hc : 0 < cap) {F : Fifo} (h : F.wf cap = true) :
    F.reset.wf cap = true := by
  obtain ⟨h1, h2⟩ := Fifo.wf_storage h
  simp [Fifo.wf, h1, h2, Fifo.addressable, hc]

theorem Fifo.wf_setOverwrite {cap : Nat} {F : Fifo} (p : Bool) :
    (F.setOverwrite p).wf cap = F.wf cap := rfl

theorem Fifo.contents_setOverwrite (cap : Nat) (F : Fifo) (p : Bool) :
    (F.setOverwrite p).contents cap = F.contents cap := rfl

/-! ### `GET` and `GETSPAN` -/

theorem Fifo.Ring.dropped {cap : Nat} {F : Fifo} (h : F.Ring cap) (hl : 0 < F.length) :
    (F.dropped cap).Ring cap where
  storage_wf := h.storage_wf
  storage_below := h.storage_below
  length_le := (Nat.sub_le _ _).trans h.length_le
  put_lt := h.put_lt
  get_lt := nextIndex_lt h.cap_pos
  put_eq := by
    rw [Fifo.dropped_putIndex, Fifo.dropped_getIndex, nextIndex_add, Fifo.dropped_length, h.put_eq]
    congr 2
    omega

/-- The gets of a span: the oldest bytes come out in order, the rest stay, nothing else changes. -/
theorem Fifo.Ring.takeAll {cap : Nat} {F : Fifo} (h : F.Ring cap) {n : Nat} (hn : n ≤ F.length) :
    (Fifo.takeAll cap n F).1 = (F.contents cap).take n ∧
      (Fifo.takeAll cap n F).2.contents cap = (F.contents cap).drop n ∧
      (Fifo.takeAll cap n F).2 =
        { F with getIndex := (F.getIndex + n) % cap, length := F.length - n } ∧
      (Fifo.takeAll cap n F).2.Ring cap := by
  induction n generalizing F with
  | zero => simp [Fifo.takeAll, Nat.mod_eq_of_lt h.get_lt, h]
  | succ n ih =>
    have hl : 0 < F.length := by omega
    obtain ⟨h1, h2, h3, h4⟩ := ih (h.dropped hl) (by simp; omega)
    refine ⟨?_, ?_, ?_, h4⟩
    · simp [Fifo.takeAll, h1, h.contents_cons hl]
    · simp [Fifo.takeAll, h2, h.contents_cons hl]
    · simp only [Fifo.takeAll, h3, Fifo.dropped_getIndex, nextIndex_add, Fifo.dropped_length]
      rw [show F.length - 1 - n = F.length - (n + 1) by omega]
      rfl

/-- The storage and the policy survive the gets of a span in every state. -/
theorem Fifo.takeAll_frame (cap n : Nat) (F : Fifo) :
    (Fifo.takeAll cap n F).2.storage = F.storage ∧
      (Fifo.takeAll cap n F).2.inited = F.inited ∧
      (Fifo.takeAll cap n F).2.allowOverwrite = F.allowOverwrite := by
  induction n generalizing F with
  | zero => simp [Fifo.takeAll]
  | succ n ih => simpa [Fifo.takeAll] using ih (F.dropped cap)

/-! ### `PUT` and `PUTSPAN` -/

/-- `PUT` on a Ring Buffer with room: the byte joins the queue at its end. -/
theorem Fifo.Ring.put_room {cap : Nat} {F : Fifo} (h : F.Ring cap) (hl : F.length < cap) (b : Byte) :
    ∃ G, F.put cap b = some G ∧ G.Ring cap ∧ G.contents cap = F.contents cap ++ [b] ∧
      G = { F with storage := F.storage.write F.putIndex b, putIndex := nextIndex cap F.putIndex,
                   length := F.length + 1 } := by
  refine ⟨{ F.storeAtPut cap b with length := F.length + 1 }, by simp [Fifo.put, hl],
    ⟨Memory.wf_write h.storage_wf _ _, Memory.below_write h.storage_below h.put_lt _, hl,
      nextIndex_lt h.cap_pos, h.get_lt, ?_⟩, ?_, rfl⟩
  · show nextIndex cap F.putIndex = (F.getIndex + (F.length + 1)) % cap
    rw [h.put_eq, nextIndex_mod]
  · apply List.ext_getElem?
    intro k
    rw [List.getElem?_append, Fifo.contents_length, Fifo.contents_getElem?, Fifo.contents_getElem?]
    show (if k < F.length + 1 then
      some (Memory.read (F.storage.write F.putIndex b) ((F.getIndex + k) % cap)) else none) = _
    rw [Memory.read_write h.storage_wf]
    rcases lt_trichotomy k F.length with hk | rfl | hk
    · have hne : F.putIndex ≠ (F.getIndex + k) % cap := by
        rw [h.put_eq]
        exact (ring_slot_ne hk (by omega)).symm
      simp [hk, hne, Nat.lt_succ_of_lt hk]
    · simp [h.put_eq]
    · have h1 : ¬ k < F.length := by omega
      have h2 : ¬ k < F.length + 1 := by omega
      have h3 : k - F.length ≠ 0 := by omega
      simp [h1, h2, h3]

/-- `PUT` on a full Ring Buffer under the overwrite policy: the oldest byte leaves, the new one joins,
and it lands in the slot of the byte it drops. -/
theorem Fifo.Ring.put_over {cap : Nat} {F : Fifo} (h : F.Ring cap) (hl : F.length = cap)
    (ho : F.allowOverwrite = true) (b : Byte) :
    ∃ G, F.put cap b = some G ∧ G.Ring cap ∧ G.contents cap = (F.contents cap).drop 1 ++ [b] ∧
      G = { F with storage := F.storage.write F.putIndex b, putIndex := nextIndex cap F.putIndex,
                   getIndex := nextIndex cap F.getIndex } := by
  have hc := h.cap_pos
  have hpg : F.putIndex = F.getIndex := by
    rw [h.put_eq, hl, ring_add_cap, Nat.mod_eq_of_lt h.get_lt]
  refine ⟨(F.dropOldest cap).storeAtPut cap b, by simp [Fifo.put, hl, ho],
    ⟨Memory.wf_write h.storage_wf _ _, Memory.below_write h.storage_below h.put_lt _, h.length_le,
      nextIndex_lt hc, nextIndex_lt hc, ?_⟩, ?_, rfl⟩
  · show nextIndex cap F.putIndex = (nextIndex cap F.getIndex + F.length) % cap
    rw [nextIndex_add, hl, hpg]
    unfold nextIndex
    rw [show F.getIndex + (cap + 1) = F.getIndex + 1 + cap by omega, ring_add_cap]
  · apply List.ext_getElem?
    intro k
    rw [List.getElem?_append, List.length_drop, Fifo.contents_length, List.getElem?_drop,
      Fifo.contents_getElem?, Fifo.contents_getElem?]
    show (if k < F.length then
      some (Memory.read (F.storage.write F.putIndex b) ((nextIndex cap F.getIndex + k) % cap))
      else none) = _
    rw [Memory.read_write h.storage_wf, nextIndex_add]
    rcases lt_trichotomy k (cap - 1) with hk | hk | hk
    · have hne : F.putIndex ≠ (F.getIndex + (k + 1)) % cap := by
        have := ring_slot_ne (g := F.getIndex) (cap := cap) (i := 0) (j := k + 1) (by omega) (by omega)
        rw [hpg]
        rwa [Nat.add_zero, Nat.mod_eq_of_lt h.get_lt] at this
      have h1 : k < F.length := by omega
      have h2 : k < F.length - 1 := by omega
      have h3 : k + 1 < F.length := by omega
      simp [h1, h2, h3, hne, Nat.add_comm 1 k]
    · have h1 : k < F.length := by omega
      have h2 : ¬ k < F.length - 1 := by omega
      have h3 : k - (F.length - 1) = 0 := by omega
      have h4 : F.putIndex = (F.getIndex + (k + 1)) % cap := by
        rw [show k + 1 = cap by omega, ring_add_cap, Nat.mod_eq_of_lt h.get_lt, hpg]
      simp [h1, h2, h3, h4]
    · have h1 : ¬ k < F.length := by omega
      have h2 : ¬ k < F.length - 1 := by omega
      have h3 : k - (F.length - 1) ≠ 0 := by omega
      simp [h1, h2, h3]

/-- `PUT` on a full Ring Buffer without the policy fails. -/
theorem Fifo.put_full {cap : Nat} {F : Fifo} (hl : F.length = cap) (ho : F.allowOverwrite = false)
    (b : Byte) : F.put cap b = none := by simp [Fifo.put, hl, ho]

/-- Every `PUT` that succeeds keeps the invariants, the policy and `inited`. -/
theorem Fifo.Ring.put_some {cap : Nat} {F G : Fifo} (h : F.Ring cap) {b : Byte}
    (hp : F.put cap b = some G) :
    G.Ring cap ∧ G.inited = F.inited ∧ G.allowOverwrite = F.allowOverwrite := by
  rcases Nat.lt_or_ge F.length cap with hl | hl
  · obtain ⟨G', hG, hR, -, rfl⟩ := h.put_room hl b
    obtain rfl : _ = G := by simpa [hG] using hp
    exact ⟨hR, rfl, rfl⟩
  · have hl' : F.length = cap := le_antisymm h.length_le hl
    cases ho : F.allowOverwrite with
    | false => simp [Fifo.put_full hl' ho] at hp
    | true =>
      obtain ⟨G', hG, hR, -, rfl⟩ := h.put_over hl' ho b
      obtain rfl : _ = G := by simpa [hG] using hp
      exact ⟨hR, rfl, ho⟩

/-- The puts of an accepted span: the queue is the last `C` bytes of the old queue and the span. -/
theorem Fifo.Ring.putAll {cap : Nat} {F : Fifo} (h : F.Ring cap) {d : List Byte}
    (hd : F.allowOverwrite = true ∨ F.length + d.length ≤ cap) :
    (F.putAll cap d).Ring cap ∧
      (F.putAll cap d).contents cap =
        (F.contents cap ++ d).drop (F.length + d.length - cap) ∧
      (F.putAll cap d).inited = F.inited ∧
      (F.putAll cap d).allowOverwrite = F.allowOverwrite ∧
      (F.putAll cap d).putIndex = (F.putIndex + d.length) % cap ∧
      (F.putAll cap d).getIndex = (F.getIndex + (F.length + d.length - cap)) % cap := by
  induction d generalizing F with
  | nil =>
    have := h.length_le
    simp [Fifo.putAll, h, show F.length - cap = 0 by omega, Nat.mod_eq_of_lt h.put_lt,
      Nat.mod_eq_of_lt h.get_lt]
  | cons b rest ih =>
    simp only [List.length_cons] at hd ⊢
    rcases Nat.lt_or_ge F.length cap with hl | hl
    · obtain ⟨G, hG, hR, hcont, hGeq⟩ := h.put_room hl b
      have hlen : G.length = F.length + 1 := by rw [hGeq]
      have hgi : G.getIndex = F.getIndex := by rw [hGeq]
      have hov : G.allowOverwrite = F.allowOverwrite := by rw [hGeq]
      have hin : G.inited = F.inited := by rw [hGeq]
      have hpi : G.putIndex = nextIndex cap F.putIndex := by rw [hGeq]
      have hstep : F.putAll cap (b :: rest) = G.putAll cap rest := by simp [Fifo.putAll, hG]
      obtain ⟨i1, i2, i3, i4, i5, i6⟩ := ih hR (by rw [hov, hlen]; rcases hd with hd | hd; exacts [.inl hd, .inr (by omega)])
      rw [hstep]
      refine ⟨i1, ?_, i3.trans hin, i4.trans hov, ?_, ?_⟩
      · rw [i2, hcont, hlen, show F.length + 1 + rest.length = F.length + (rest.length + 1) by omega]
        simp
      · rw [i5, hpi, nextIndex_add]
      · rw [i6, hgi, hlen, show F.length + 1 + rest.length = F.length + (rest.length + 1) by omega]
    · have hl' : F.length = cap := le_antisymm h.length_le hl
      have ho : F.allowOverwrite = true := by
        rcases hd with hd | hd
        · exact hd
        · omega
      obtain ⟨G, hG, hR, hcont, hGeq⟩ := h.put_over hl' ho b
      have hlen : G.length = F.length := by rw [hGeq]
      have hgi : G.getIndex = nextIndex cap F.getIndex := by rw [hGeq]
      have hov : G.allowOverwrite = F.allowOverwrite := by rw [hGeq]
      have hin : G.inited = F.inited := by rw [hGeq]
      have hpi : G.putIndex = nextIndex cap F.putIndex := by rw [hGeq]
      have hstep : F.putAll cap (b :: rest) = G.putAll cap rest := by simp [Fifo.putAll, hG]
      obtain ⟨i1, i2, i3, i4, i5, i6⟩ := ih hR (.inl (by rw [hov, ho]))
      have hle : 1 ≤ (F.contents cap).length := by
        have := h.cap_pos
        simp; omega
      rw [hstep]
      refine ⟨i1, ?_, i3.trans hin, i4.trans hov, ?_, ?_⟩
      · rw [i2, hcont, hlen, hl', show cap + (rest.length + 1) - cap = 1 + rest.length by omega,
          show cap + rest.length - cap = rest.length by omega, ← List.drop_drop,
          List.drop_append_of_le_length hle]
        simp
      · rw [i5, hpi, nextIndex_add]
      · rw [i6, hgi, hlen, hl', show cap + (rest.length + 1) - cap = rest.length + 1 by omega,
          show cap + rest.length - cap = rest.length by omega, nextIndex_add]

/-- The puts of a span write only the slots that follow `putIndex`. -/
theorem Fifo.Ring.putAll_frame {cap : Nat} {F : Fifo} (h : F.Ring cap) (d : List Byte) (a : Nat)
    (ha : ∀ k < d.length, a ≠ (F.putIndex + k) % cap) :
    (F.putAll cap d).storage.read a = F.storage.read a := by
  induction d generalizing F with
  | nil => rfl
  | cons b rest ih =>
    have ha0 : F.putIndex ≠ a := by
      have := ha 0 (by simp)
      rw [Nat.add_zero, Nat.mod_eq_of_lt h.put_lt] at this
      exact this.symm
    cases hp : F.put cap b with
    | none =>
      have hl : F.length = cap := by
        by_contra hne
        have := h.length_le
        simp [Fifo.put, show F.length < cap by omega] at hp
      have ho : F.allowOverwrite = false := by
        by_contra ho
        simp [Fifo.put, hl, ho] at hp
      have hself : ∀ e : List Byte, F.putAll cap e = F := by
        intro e
        induction e with
        | nil => rfl
        | cons x e ihe => simpa [Fifo.putAll, Fifo.put_full hl ho] using ihe
      rw [hself]
    | some G =>
      have hG : G.Ring cap := (h.put_some hp).1
      have hst : G.storage = F.storage.write F.putIndex b ∧ G.putIndex = nextIndex cap F.putIndex := by
        unfold Fifo.put at hp
        split_ifs at hp <;> (cases hp; exact ⟨rfl, rfl⟩)
      have hrec := ih hG (fun k hk => by
        rw [hst.2, nextIndex_add]
        exact ha (k + 1) (by simpa using hk))
      simp only [Fifo.putAll, hp, Option.getD_some]
      rw [hrec, hst.1, Memory.read_write h.storage_wf, if_neg ha0]

/-- `PUTSPAN`: when it succeeds and what the queue is then. -/
theorem Fifo.putSpan_eq (cap : Nat) (F : Fifo) (d : List Byte) :
    F.putSpan cap d =
      if F.allowOverwrite = true ∨ F.length + d.length ≤ cap then some (F.putAll cap d) else none := by
  unfold Fifo.putSpan
  cases F.allowOverwrite <;> by_cases h : F.length + d.length ≤ cap <;>
    simp [h, Nat.not_lt.2, show ¬ (cap < F.length + d.length) ↔ F.length + d.length ≤ cap by omega]

end Sys2Proof.Machine
end

