-- ==== Sys2Proof/Laws/Checks.lean ====
section
/-! SUPPORT. The checks before an operation (R89, R167): what each combinator does in each case, and
one inversion lemma per combinator. -/

namespace Sys2Proof.Machine

theorem unlessHalted_halted {s : State} (h : s.halted = true) (k : Outcome) :
    unlessHalted s k = answer s (.fault s.faultCode) := by simp [unlessHalted, h]

theorem unlessHalted_running {s : State} (h : s.halted = false) (k : Outcome) :
    unlessHalted s k = k := by simp [unlessHalted, h]

theorem onChannel_halted {s : State} (h : s.halted = true) (ch : Byte) (k : Channel → Outcome) :
    onChannel s ch k = answer s (.fault s.faultCode) := unlessHalted_halted h _

theorem onChannel_none {s : State} (h : s.halted = false) {ch : Byte}
    (hc : s.chans[ch.toNat]? = none) (k : Channel → Outcome) :
    onChannel s ch k = raiseFault s .assertBadChannel := by
  simp only [onChannel, unlessHalted_running h, hc]

theorem onChannel_ready {s : State} {ch : Byte} {c : Channel} (h : s.ready ch c)
    (k : Channel → Outcome) : onChannel s ch k = k c := by
  simp only [onChannel, unlessHalted_running h.1, h.2]

@[simp] theorem whenInited_true (s : State) (k : Outcome) : whenInited s true k = k := rfl

@[simp] theorem whenInited_false (s : State) (k : Outcome) :
    whenInited s false k = raiseFault s .assertUninit := rfl

@[simp] theorem whenAddressable_true (k : Outcome) : whenAddressable true k = k := rfl

@[simp] theorem whenAddressable_false (k : Outcome) :
    whenAddressable false k = .fault .storageIndexOutOfRange := rfl

theorem onFifo_ready {s : State} {ch : Byte} {c : Channel} (h : s.ready ch c) {f : FifoSel}
    (hi : (c.fifo f).inited = true) (k : Channel → Fifo → Outcome) :
    onFifo s f ch k = k c (c.fifo f) := by simp [onFifo, onChannel_ready h, hi]

theorem onFifo_uninit {s : State} {ch : Byte} {c : Channel} (h : s.ready ch c) {f : FifoSel}
    (hi : (c.fifo f).inited = false) (k : Channel → Fifo → Outcome) :
    onFifo s f ch k = raiseFault s .assertUninit := by simp [onFifo, onChannel_ready h, hi]

theorem onStorage_uninit {s : State} {ch : Byte} {c : Channel} (h : s.ready ch c) {f : FifoSel}
    (hi : (c.fifo f).inited = false) (k : Channel → Fifo → Outcome) :
    onStorage s f ch k = raiseFault s .assertUninit := by simp [onStorage, onFifo_uninit h hi]

theorem onStorage_ready {s : State} {ch : Byte} {c : Channel} (h : s.ready ch c) {f : FifoSel}
    (hi : (c.fifo f).inited = true) (ha : (c.fifo f).addressable s.cfg.capacity = true)
    (k : Channel → Fifo → Outcome) : onStorage s f ch k = k c (c.fifo f) := by
  simp [onStorage, onFifo_ready h hi, ha]

/-- Writing back what stands at a position changes nothing. -/
theorem set_of_getElem? {α : Type} {l : List α} {n : Nat} {a : α} (h : l[n]? = some a) :
    l.set n a = l := by
  apply List.ext_getElem?
  intro k
  rw [List.getElem?_set]
  split_ifs with h1 h2
  · subst h1
    exact h.symm
  · subst h1
    rw [List.getElem?_eq_none (by omega)]
  · rfl

theorem getElem?_set_of_some {α : Type} {l : List α} {n : Nat} {a b : α} (h : l[n]? = some a) :
    (l.set n b)[n]? = some b := by
  rw [List.getElem?_set_self]
  exact (List.getElem?_eq_some_iff.1 h).1

/-- After an operation has replaced its channel the block is ready on that channel. -/
theorem State.ready_committed {s : State} {ch : Byte} {c : Channel} (h : s.ready ch c) (d : Channel)
    (r : Result) : (s.committed ch d r).ready ch d := ⟨h.1, getElem?_set_of_some h.2⟩

/-! ### Inversion: what a checked operation can answer -/

theorem unlessHalted_next {s t : State} {k : Outcome} (h : unlessHalted s k = .next t) :
    (s.halted = true ∧ t = s.answered (.fault s.faultCode)) ∨ (s.halted = false ∧ k = .next t) := by
  cases hs : s.halted with
  | true =>
    rw [unlessHalted_halted hs] at h
    exact .inl ⟨rfl, (Host.Outcome.next.inj h).symm⟩
  | false =>
    rw [unlessHalted_running hs] at h
    exact .inr ⟨rfl, h⟩

theorem onChannel_next {s t : State} {ch : Byte} {k : Channel → Outcome}
    (h : onChannel s ch k = .next t) :
    (s.halted = true ∧ t = s.answered (.fault s.faultCode)) ∨
      (s.halted = false ∧ s.chans[ch.toNat]? = none ∧ t = s.faulted .assertBadChannel) ∨
      ∃ c, s.ready ch c ∧ k c = .next t := by
  rcases unlessHalted_next h with h | ⟨hs, hk⟩
  · exact .inl h
  · cases hc : s.chans[ch.toNat]? with
    | none =>
      rw [hc] at hk
      exact .inr (.inl ⟨hs, rfl, (Host.Outcome.next.inj hk).symm⟩)
    | some c =>
      rw [hc] at hk
      exact .inr (.inr ⟨c, ⟨hs, hc⟩, hk⟩)

theorem whenInited_next {s t : State} {b : Bool} {k : Outcome} (h : whenInited s b k = .next t) :
    (b = false ∧ t = s.faulted .assertUninit) ∨ (b = true ∧ k = .next t) := by
  cases b with
  | false => exact .inl ⟨rfl, (Host.Outcome.next.inj h).symm⟩
  | true => exact .inr ⟨rfl, h⟩

theorem whenAddressable_next {t : State} {b : Bool} {k : Outcome}
    (h : whenAddressable b k = .next t) : b = true ∧ k = .next t := by
  cases b with
  | false => simp at h
  | true => exact ⟨rfl, h⟩

theorem answer_next {s t : State} {r : Result} (h : answer s r = .next t) : t = s.answered r :=
  (Host.Outcome.next.inj h).symm

theorem commit_next {s t : State} {ch : Byte} {c : Channel} {r : Result}
    (h : commit s ch c r = .next t) : t = s.committed ch c r := (Host.Outcome.next.inj h).symm

theorem raiseFault_next {s t : State} {code : FaultCode} (h : raiseFault s code = .next t) :
    t = s.faulted code := (Host.Outcome.next.inj h).symm

/-! ### Channels of a state -/

theorem State.channel_wf {s : State} (h : s.wf = true) {k : Nat} {c : Channel}
    (hc : s.chans[k]? = some c) : c.wf s.cfg.capacity = true := by
  simp only [State.wf, Bool.and_eq_true, List.all_eq_true] at h
  exact h.2 c (List.mem_of_getElem? hc)

theorem State.wf_capacity {s : State} (h : s.wf = true) : 0 < s.cfg.capacity := by
  simp only [State.wf, Bool.and_eq_true, decide_eq_true_eq] at h
  exact h.1.1.1

theorem State.wf_idleDelay {s : State} (h : s.wf = true) : delayLegal s.cfg.idleDelay = true := by
  simp only [State.wf, Bool.and_eq_true] at h
  exact h.1.1.2

theorem State.wf_tablesLegal {s : State} (h : s.wf = true) : s.tablesLegal = true := by
  simp only [State.wf, Bool.and_eq_true] at h
  exact h.1.2

theorem Channel.wf_fifo {cap : Nat} {c : Channel} (h : c.wf cap = true) (f : FifoSel) :
    (c.fifo f).wf cap = true := by
  simp only [Channel.wf, Bool.and_eq_true] at h
  cases f
  exacts [h.1, h.2]

theorem Channel.wf_setFifo {cap : Nat} {c : Channel} (h : c.wf cap = true) (f : FifoSel) {F : Fifo}
    (hF : F.wf cap = true) : (c.setFifo f F).wf cap = true := by
  simp only [Channel.wf, Bool.and_eq_true] at h ⊢
  cases f
  exacts [⟨hF, h.2⟩, ⟨h.1, hF⟩]

end Sys2Proof.Machine
end

