-- ==== Sys2Proof/Laws/Crc.lean ====
section
/-! SUPPORT. The default checksum (R117): a shift of a value whose low bits are 0 is a plain shift, and
the shifts are injective; so a span followed by two bytes has checksum 0 exactly when the two bytes are
its checksum (R118 c). -/

namespace Sys2Proof.Machine

/-- Shifting out `n` zero bits is a plain shift. -/
theorem crcShifts_low (n : Nat) (v : Half) (h : ∀ i < n, v.getLsbD i = false) :
    crcShifts n v = v >>> n := by
  induction n generalizing v with
  | zero => simp [crcShifts]
  | succ n ih =>
    have hs : crcShift v = v >>> 1 := by
      unfold crcShift
      rw [h 0 (by omega)]
      rfl
    rw [crcShifts, hs, ih _ fun i hi => by simpa using h (1 + i) (by omega),
      ← BitVec.shiftRight_add, Nat.add_comm]

/-- The top bit of a shifted value is the bit that was shifted out. -/
theorem crcShift_top (v : Half) : (crcShift v).getLsbD 15 = v.getLsbD 0 := by
  unfold crcShift
  cases v.getLsbD 0 <;> simp

theorem crcShift_injective {a b : Half} (h : crcShift a = crcShift b) : a = b := by
  have h0 : a.getLsbD 0 = b.getLsbD 0 := by rw [← crcShift_top, ← crcShift_top, h]
  have h1 : a >>> 1 = b >>> 1 := by
    unfold crcShift at h
    rw [h0] at h
    split_ifs at h
    · exact (BitVec.xor_left_inj _).1 h
    · exact h
  apply BitVec.eq_of_getLsbD_eq
  intro i hi
  cases i with
  | zero => exact h0
  | succ i =>
    have := congrArg (fun v : Half => v.getLsbD i) h1
    simpa [Nat.add_comm] using this

theorem crcShifts_injective {n : Nat} {a b : Half} (h : crcShifts n a = crcShifts n b) : a = b := by
  induction n generalizing a b with
  | zero => exact h
  | succ n ih => exact crcShift_injective (ih h)

/-- The checksum of a byte sequence fed in two pieces (R118 b). -/
theorem crcModbus_append (a b : List Byte) (seed : Half) :
    crcModbus (a ++ b) seed = crcModbus b (crcModbus a seed) := by simp [crcModbus]

end Sys2Proof.Machine
end

