-- ==== Sys2Proof/Laws/Decode.lean ====
section
/-! SUPPORT. The request encoding: the little-endian helpers undo one another, each format is read as
it is written, and which row an opcode byte belongs to. -/

namespace Sys2Proof

/-! ### Little-endian numbers -/

theorem of16_of_le16 (v : Half) : of16 (v.extractLsb' 0 8) (v.extractLsb' 8 8) = v := by
  apply BitVec.eq_of_getLsbD_eq
  intro k hk
  unfold of16
  rw [BitVec.getLsbD_append]
  split_ifs with h
  · simp [h]
  · simp [show k - 8 < 8 by omega, show 8 + (k - 8) = k by omega]

theorem of16_low (lo hi : Byte) : (of16 lo hi).extractLsb' 0 8 = lo := by
  apply BitVec.eq_of_getLsbD_eq
  intro k hk
  rw [BitVec.getLsbD_extractLsb', of16, BitVec.getLsbD_append]
  simp [hk]

theorem of16_high (lo hi : Byte) : (of16 lo hi).extractLsb' 8 8 = hi := by
  apply BitVec.eq_of_getLsbD_eq
  intro k hk
  rw [BitVec.getLsbD_extractLsb', of16, BitVec.getLsbD_append]
  simp [hk]

theorem le16_of_of16 (lo hi : Byte) : le16 (of16 lo hi) = [lo, hi] := by
  simp [le16, of16_low, of16_high]

theorem of32_of_le32 (v : Time) :
    of32 (v.extractLsb' 0 8) (v.extractLsb' 8 8) (v.extractLsb' 16 8) (v.extractLsb' 24 8) = v := by
  apply BitVec.eq_of_getLsbD_eq
  intro k hk
  unfold of32
  rw [BitVec.getLsbD_append, BitVec.getLsbD_append, BitVec.getLsbD_append]
  split_ifs with h1 h2 h3
  · simp [h2]
  · simp [show k - 8 < 8 by omega, show 8 + (k - 8) = k by omega]
  · simp [show k - 16 < 8 by omega, show 16 + (k - 16) = k by omega]
  · simp [show k - (8 + 8) - 8 < 8 by omega,
      show 24 + (k - (8 + 8) - 8) = k by omega]

theorem le32_of_of32 (b0 b1 b2 b3 : Byte) : le32 (of32 b0 b1 b2 b3) = [b0, b1, b2, b3] := by
  have h0 : (of32 b0 b1 b2 b3).extractLsb' 0 8 = b0 := by
    apply BitVec.eq_of_getLsbD_eq
    intro k hk
    rw [BitVec.getLsbD_extractLsb', of32, BitVec.getLsbD_append, BitVec.getLsbD_append]
    simp [hk, show k < 16 by omega]
  have h1 : (of32 b0 b1 b2 b3).extractLsb' 8 8 = b1 := by
    apply BitVec.eq_of_getLsbD_eq
    intro k hk
    rw [BitVec.getLsbD_extractLsb', of32, BitVec.getLsbD_append, BitVec.getLsbD_append]
    simp [hk, show 8 + k < 16 by omega]
  have h2 : (of32 b0 b1 b2 b3).extractLsb' 16 8 = b2 := by
    apply BitVec.eq_of_getLsbD_eq
    intro k hk
    rw [BitVec.getLsbD_extractLsb', of32, BitVec.getLsbD_append, BitVec.getLsbD_append,
      BitVec.getLsbD_append]
    simp [hk]
  have h3 : (of32 b0 b1 b2 b3).extractLsb' 24 8 = b3 := by
    apply BitVec.eq_of_getLsbD_eq
    intro k hk
    rw [BitVec.getLsbD_extractLsb', of32, BitVec.getLsbD_append, BitVec.getLsbD_append,
      BitVec.getLsbD_append]
    simp [hk, show ¬ 24 + k < 16 by omega, show ¬ 24 + k - 16 < 8 by omega,
      show 24 + k - 16 - 8 = k by omega]
  simp [le32, h0, h1, h2, h3]

/-- The low byte first, in numbers. -/
theorem le16_eq (v : Half) :
    le16 v = [BitVec.ofNat 8 (v.toNat % 256), BitVec.ofNat 8 (v.toNat / 256)] := by
  simp only [le16, List.cons.injEq, and_true]
  constructor <;> apply BitVec.eq_of_toNat_eq <;>
    simp [BitVec.extractLsb'_toNat, Nat.shiftRight_eq_div_pow]

/-- The lowest byte first, in numbers. -/
theorem le32_eq (v : Time) :
    le32 v = [BitVec.ofNat 8 (v.toNat % 256), BitVec.ofNat 8 (v.toNat / 2 ^ 8 % 256),
      BitVec.ofNat 8 (v.toNat / 2 ^ 16 % 256), BitVec.ofNat 8 (v.toNat / 2 ^ 24)] := by
  simp only [le32, List.cons.injEq, and_true]
  refine ⟨?_, ?_, ?_, ?_⟩ <;> apply BitVec.eq_of_toNat_eq <;>
    simp [BitVec.extractLsb'_toNat, Nat.shiftRight_eq_div_pow]

theorem spanCount_toNat {d : List Byte} (h : d.length < 65536) : (spanCount d).toNat = d.length := by
  simp [spanCount, Nat.mod_eq_of_lt h]

theorem spanCount_of_length {d : List Byte} {n : Half} (h : d.length = n.toNat) : spanCount d = n := by
  simp [spanCount, h]

/-! ### The formats -/

theorem argsZ_some {i j : Instr} {args : List Byte} (h : argsZ i args = some j) : args = [] ∧ j = i := by
  cases args with
  | nil => exact ⟨rfl, (Option.some.inj h).symm⟩
  | cons => simp [argsZ] at h

theorem argsB_some {mk : Byte → Instr} {j : Instr} {args : List Byte} (h : argsB mk args = some j) :
    ∃ b, args = [b] ∧ j = mk b := by
  unfold argsB at h
  split at h
  · exact ⟨_, rfl, (Option.some.inj h).symm⟩
  · simp at h

theorem argsN_some {mk : Half → Instr} {j : Instr} {args : List Byte} (h : argsN mk args = some j) :
    ∃ n, args = le16 n ∧ j = mk n := by
  unfold argsN at h
  split at h
  · rename_i lo hi
    exact ⟨of16 lo hi, (le16_of_of16 lo hi).symm, (Option.some.inj h).symm⟩
  · simp at h

theorem argsS_some {mk : List Byte → Instr} {j : Instr} {args : List Byte}
    (h : argsS mk args = some j) :
    ∃ d, args = le16 (spanCount d) ++ d ∧ d.length < 65536 ∧ j = mk d := by
  unfold argsS at h
  split at h
  · rename_i lo hi d
    split_ifs at h with hd
    refine ⟨d, ?_, ?_, (Option.some.inj h).symm⟩
    · rw [spanCount_of_length hd, le16_of_of16]
      rfl
    · rw [hd]
      exact (of16 lo hi).isLt
  · simp at h

theorem argsD_some {mk : Time → Instr} {j : Instr} {args : List Byte} (h : argsD mk args = some j) :
    ∃ v, args = le32 v ∧ j = mk v := by
  unfold argsD at h
  split at h
  · rename_i b0 b1 b2 b3
    exact ⟨of32 b0 b1 b2 b3, (le32_of_of32 b0 b1 b2 b3).symm, (Option.some.inj h).symm⟩
  · simp at h

theorem argsK_some {mk : Half → List Byte → Instr} {j : Instr} {args : List Byte}
    (h : argsK mk args = some j) :
    ∃ seed d, args = le16 seed ++ le16 (spanCount d) ++ d ∧ d.length < 65536 ∧ j = mk seed d := by
  unfold argsK at h
  split at h
  · rename_i s0 s1 lo hi d
    split_ifs at h with hd
    refine ⟨of16 s0 s1, d, ?_, ?_, (Option.some.inj h).symm⟩
    · rw [spanCount_of_length hd, le16_of_of16, le16_of_of16]
      rfl
    · rw [hd]
      exact (of16 lo hi).isLt
  · simp at h

@[simp] theorem argsN_le16 (mk : Half → Instr) (n : Half) : argsN mk (le16 n) = some (mk n) := by
  simp [argsN, le16, of16_of_le16]

@[simp] theorem argsD_le32 (mk : Time → Instr) (v : Time) : argsD mk (le32 v) = some (mk v) := by
  simp [argsD, le32, of32_of_le32]

theorem argsS_span (mk : List Byte → Instr) {d : List Byte} (h : d.length < 65536) :
    argsS mk (le16 (spanCount d) ++ d) = some (mk d) := by
  simp [argsS, le16, of16_of_le16, spanCount_toNat h]

theorem argsK_span (mk : Half → List Byte → Instr) (seed : Half) {d : List Byte}
    (h : d.length < 65536) :
    argsK mk (le16 seed ++ le16 (spanCount d) ++ d) = some (mk seed d) := by
  simp [argsK, le16, of16_of_le16, spanCount_toNat h]

/-! ### The rows -/

/-- No opcode byte belongs to two rows of the map (R69). -/
theorem opcodeMap_disjoint :
    opcodeMap.Pairwise fun r r' => (r.pat ^^^ r'.pat) &&& (r.mask &&& r'.mask) ≠ 0 := by decide

/-- The decoder on a request whose opcode byte has a row. -/
theorem decode_row {byte0 : Byte} {r : OpcodeRow} (h : rowOf byte0 = some r) (ch : Byte)
    (args : List Byte) :
    decode (byte0 :: ch :: args) =
      match readOperands r.op (selOf byte0) ch args with
      | some i => .request i
      | none => .malformed := by
  simp only [decode, h] <;> rfl

/-- An opcode byte that has a row is written by its row's operation and its FIFO select. -/
theorem row_byte : ∀ byte0 : Byte, ∀ r : OpcodeRow, rowOf byte0 = some r →
    (r.mask = 0xEF → byte0 = fifoOpcode r.pat (selOf byte0)) ∧ (r.mask = 0xFF → byte0 = r.pat) := by
  have key : ∀ n : Fin 256, ∀ r ∈ opcodeMap, rowOf (BitVec.ofNat 8 n) = some r →
      (r.mask = 0xEF → BitVec.ofNat 8 n = fifoOpcode r.pat (selOf (BitVec.ofNat 8 n))) ∧
        (r.mask = 0xFF → BitVec.ofNat 8 n = r.pat) := by decide +kernel
  intro byte0 r h
  have hm : r ∈ opcodeMap := List.mem_of_find?_eq_some h
  have := key ⟨byte0.toNat, byte0.isLt⟩ r hm
  simp only [BitVec.ofNat_toNat, BitVec.setWidth_eq] at this
  exact this h

end Sys2Proof
end

