-- ==== Sys2Proof/Laws/Timer.lean ====
section
/-! SUPPORT. Operand values and times as numbers: the policy operand (R82), a legal delay (R102), the
comparison of times (R101), a pending deadline (R105), a due timer (R104). -/

namespace Sys2Proof.Machine

theorem policyOf_reserved {b : Byte} (h : 1 < b.toNat) : policyOf b = none := by
  unfold policyOf
  rw [if_neg, if_neg] <;> (rintro rfl; revert h; decide)

theorem policyOf_legal {b : Byte} (h : b.toNat ≤ 1) : policyOf b = some (decide (b.toNat = 1)) := by
  have : b.toNat = 0 ∨ b.toNat = 1 := by omega
  rcases this with h | h
  · obtain rfl : b = 0 := BitVec.eq_of_toNat_eq (by simpa using h)
    rfl
  · obtain rfl : b = 1 := BitVec.eq_of_toNat_eq (by simpa using h)
    rfl

theorem delayLegal_iff {d : Time} : delayLegal d = true ↔ d.toNat < 2 ^ 31 := by
  simp [delayLegal, BitVec.ult, Time.half]

theorem delayLegal_reserved {d : Time} (h : 2 ^ 31 ≤ d.toNat) : delayLegal d = false := by
  rw [Bool.eq_false_iff, ne_eq, delayLegal_iff]
  omega

theorem reached_iff {now d : Time} : reached now d = true ↔ (now - d).toNat < 2 ^ 31 := by
  simp [reached, BitVec.ult, Time.half]

theorem Timer.ahead_iff {now : Time} {tmr : Timer} :
    tmr.ahead now = true ↔
      (tmr.engaged = true → tmr.planned = true → (tmr.deadline - now).toNat < 2 ^ 31) := by
  simp [Timer.ahead, BitVec.ult, Time.half]
  cases tmr.engaged <;> cases tmr.planned <;> simp

theorem Timer.due_iff {now : Time} {tmr : Timer} :
    tmr.due now = true ↔
      tmr.engaged = true ∧ tmr.planned = true ∧ (now - tmr.deadline).toNat < 2 ^ 31 := by
  simp [Timer.due, reached, BitVec.ult, Time.half, and_assoc]

/-- The firing condition of a channel, in the words of a statement. -/
theorem Channel.dueAt_eq (now : Time) (c : Channel) : c.dueAt now = c.tmr.due now := by
  rw [Bool.eq_iff_iff, Timer.due_iff]
  simp [Channel.dueAt, and_assoc]

theorem Channel.afterFire_eq (c : Channel) : c.afterFire = c.fire := rfl

/-- A state keeps its deadlines ahead when every channel does, unless it is halted (R105). -/
theorem State.deadlinesAhead_iff {s : State} :
    s.deadlinesAhead = true ↔
      (s.halted = false → ∀ (k : Nat) (c : Channel), s.chans[k]? = some c →
        c.tmr.ahead s.now = true) := by
  simp only [State.deadlinesAhead, Bool.or_eq_true, List.all_eq_true]
  constructor
  · rintro h hs k c hc
    rcases h with h | h
    · rw [hs] at h; cases h
    · exact h c (List.mem_of_getElem? hc)
  · intro h
    cases hs : s.halted with
    | true => exact .inl rfl
    | false =>
      refine .inr fun c hc => ?_
      obtain ⟨k, hk⟩ := List.mem_iff_getElem?.1 hc
      exact h hs k c hk

end Sys2Proof.Machine
end

