-- ==== Sys2Proof/Laws/Exec.lean ====
section
/-! SUPPORT. What an operation can do, said once: to the channel it works on (`Channel.After`), to the
channels a `TICK` fires (`fireDue_spec`), and to the whole state (`exec_cases`).  Every invariant of the
machine is derived from these. -/

namespace Sys2Proof.Machine

/-! ### What an operation can do to its channel -/

/-- What the operation `i` (any but `TICK`) may leave of a channel `c` of the state `s`. -/
structure Channel.After (i : Instr) (s : State) (c c' : Channel) : Prop where
  cfg : c'.cfg = c.cfg
  wf : 0 < s.cfg.capacity → c.wf s.cfg.capacity = true → c'.wf s.cfg.capacity = true
  rx_inited : c.rxf.inited = true → c'.rxf.inited = true
  tx_inited : c.txf.inited = true → c'.txf.inited = true
  engaged : c.tmr.engaged = true → c'.tmr.engaged = true
  wireOut : c.wireOut <+: c'.wireOut
  wireOut_eq : (∀ ch k, i ≠ .pump ch k) → c'.wireOut = c.wireOut
  calls : c.app.calls <+: c'.app.calls
  app_eq : (∀ ch, i ≠ .fpProcess ch) → c'.app = c.app
  tmr : c'.tmr = c.tmr ∨ c'.tmr.planned = false ∨
    ∃ delay, (delayLegal delay = true ∨ delay = s.cfg.idleDelay) ∧ armsTimer i = true ∧ c'.tmr = c.tmr.arm s.now delay

theorem Channel.After.setFifo {i : Instr} {s : State} {c : Channel} {f : FifoSel}
    {F : Fifo} (hwf : 0 < s.cfg.capacity → (c.fifo f).wf s.cfg.capacity = true → F.wf s.cfg.capacity = true)
    (hin : (c.fifo f).inited = true → F.inited = true) : Channel.After i s c (c.setFifo f F) where
  cfg := by simp
  wf hc h := Channel.wf_setFifo h f (hwf hc (Channel.wf_fifo h f))
  rx_inited h := by cases f; exacts [hin h, h]
  tx_inited h := by cases f; exacts [h, hin h]
  engaged h := by simpa using h
  wireOut := by simp
  wireOut_eq _ := by simp
  calls := by simp
  app_eq _ := by simp
  tmr := .inl (by simp)

theorem Channel.After.setTimer {i : Instr} {s : State} {c : Channel} {t : Timer}
    (hen : c.tmr.engaged = true → t.engaged = true)
    (ht : t = c.tmr ∨ t.planned = false ∨
      ∃ delay, (delayLegal delay = true ∨ delay = s.cfg.idleDelay) ∧ armsTimer i = true ∧ t = c.tmr.arm s.now delay) :
    Channel.After i s c { c with tmr := t } where
  cfg := rfl
  wf _ h := h
  rx_inited h := h
  tx_inited h := h
  engaged := hen
  wireOut := List.prefix_rfl
  wireOut_eq _ := rfl
  calls := List.prefix_rfl
  app_eq _ := rfl
  tmr := ht

theorem Channel.After.initFifos (i : Instr) (s : State) (c : Channel) :
    Channel.After i s c c.initFifos where
  cfg := rfl
  wf hc _ := by
    simp only [Channel.wf, Channel.initFifos, Bool.and_eq_true]
    exact ⟨(Fifo.ring_init hc _).wf, (Fifo.ring_init hc _).wf⟩
  rx_inited _ := rfl
  tx_inited _ := rfl
  engaged h := h
  wireOut := List.prefix_rfl
  wireOut_eq _ := rfl
  calls := List.prefix_rfl
  app_eq _ := rfl
  tmr := .inl rfl

theorem Channel.tmrInit_some {now : Time} {c c' : Channel} (h : c.tmrInit now = some c') :
    (c.tmr.engaged = true ∧ c' = c) ∨
      (c.tmr.engaged = false ∧ c.cfg.timerSlot = true ∧ c' = { c with tmr := c.tmr.engage now }) := by
  unfold Channel.tmrInit at h
  split_ifs at h with h1 h2
  · exact .inl ⟨h1, (Option.some.inj h).symm⟩
  · exact .inr ⟨by simpa using h1, h2, (Option.some.inj h).symm⟩

theorem Channel.After.trans_timer {i : Instr} {s : State} {c d e : Channel}
    (h : Channel.After i s c d)
    (ht : d.tmr = c.tmr) (hc : e.cfg = d.cfg) (hr : e.rxf = d.rxf) (hx : e.txf = d.txf)
    (hw : e.wireOut = d.wireOut) (ha : e.app = d.app) (he : d.tmr.engaged = true → e.tmr.engaged = true)
    (htm : e.tmr = d.tmr ∨ e.tmr.planned = false ∨
      ∃ delay, (delayLegal delay = true ∨ delay = s.cfg.idleDelay) ∧ armsTimer i = true ∧ e.tmr = d.tmr.arm s.now delay) :
    Channel.After i s c e where
  cfg := hc.trans h.cfg
  wf hp hcw := by
    have := h.wf hp hcw
    simpa [Channel.wf, hr, hx] using this
  rx_inited hh := by rw [hr]; exact h.rx_inited hh
  tx_inited hh := by rw [hx]; exact h.tx_inited hh
  engaged hh := he (by rw [ht]; exact hh)
  wireOut := by rw [hw]; exact h.wireOut
  wireOut_eq hi := by rw [hw]; exact h.wireOut_eq hi
  calls := by rw [ha]; exact h.calls
  app_eq hi := by rw [ha]; exact h.app_eq hi
  tmr := by rwa [ht] at htm

/-! ### What `TICK` does to the channels -/

/-- `fireDue` walks the channels in order: it fires the due ones up to the first due channel whose
`RXF` is not initialised, and leaves that one and the rest as they are (R104). -/
theorem fireDue_spec (now : Time) (l : List Channel) :
    (fireDue now l).1.length = l.length ∧
      ∀ (k : Nat) (c' : Channel), (fireDue now l).1[k]? = some c' →
        ∃ c, l[k]? = some c ∧
          (c' = c ∧ ((fireDue now l).2.2 = false → c.tmr.due now = false) ∨
            c' = c.fire ∧ c.tmr.due now = true ∧ c.rxf.inited = true) := by
  induction l with
  | nil => simp [fireDue]
  | cons c rest ih =>
    obtain ⟨ihl, ihk⟩ := ih
    unfold fireDue
    by_cases hd : c.tmr.due now = true
    · by_cases hi : c.rxf.inited = true
      · simp only [hd, hi, if_true]
        refine ⟨by simp [ihl], fun k c' hk => ?_⟩
        cases k with
        | zero => exact ⟨c, rfl, .inr ⟨(Option.some.inj hk).symm, hd, hi⟩⟩
        | succ k => exact ihk k c' hk
      · simp only [hd, hi, if_true]
        exact ⟨rfl, fun k c' hk => ⟨c', hk, .inl ⟨rfl, by simp⟩⟩⟩
    · simp only [hd]
      refine ⟨by simp [ihl], fun k c' hk => ?_⟩
      cases k with
      | zero => exact ⟨c, rfl, .inl ⟨(Option.some.inj hk).symm, fun _ => by simpa using hd⟩⟩
      | succ k => exact ihk k c' hk

/-- Without an uninitialised `RXF` among the due channels every due channel fires (R104). -/
theorem fireDue_all {now : Time} {l : List Channel}
    (h : ∀ c ∈ l, c.tmr.due now = true → c.rxf.inited = true) :
    fireDue now l = (l.map fun c => if c.tmr.due now then c.fire else c,
      (l.filter fun c => c.tmr.due now).length, false) := by
  induction l with
  | nil => rfl
  | cons c rest ih =>
    have ih := ih fun c hc => h c (by simp [hc])
    unfold fireDue
    by_cases hd : c.tmr.due now = true
    · simp [hd, h c (by simp) hd, ih]
    · simp [hd, ih]

/-- At the first due channel whose `RXF` is not initialised the walk ends (R104, R106). -/
theorem fireDue_fault {now : Time} {pre post : List Channel} {c : Channel}
    (h : ∀ d ∈ pre, d.tmr.due now = true → d.rxf.inited = true) (hd : c.tmr.due now = true)
    (hi : c.rxf.inited = false) :
    (fireDue now (pre ++ c :: post)).1 =
        (pre.map fun d => if d.tmr.due now then d.fire else d) ++ c :: post ∧
      (fireDue now (pre ++ c :: post)).2.2 = true := by
  induction pre with
  | nil => simp [fireDue, hd, hi]
  | cons d rest ih =>
    obtain ⟨i1, i2⟩ := ih fun e he => h e (by simp [he])
    simp only [List.cons_append]
    unfold fireDue
    by_cases hdd : d.tmr.due now = true
    · simp [hdd, h d (by simp) hdd, i1, i2]
    · simp [hdd, i1, i2]

/-! ### What an operation can do to the state -/

/-- The channel operations: an answer alone, a fault alone, the working channel replaced, or `CH_INIT`
out of a timer slot. -/
inductive ChannelOutcome (i : Instr) (s t : State) : Prop
  | answered (r : Result) (h : t = s.answered r)
  | faulted (code : FaultCode) (hs : s.halted = false) (h : t = s.faulted code)
  | committed (ch : Byte) (c c' : Channel) (r : Result) (hch : channelOf i = some ch)
      (hc : s.ready ch c) (hafter : Channel.After i s c c') (h : t = s.committed ch c' r)
  | unslotted (ch : Byte) (c c' : Channel) (hch : channelOf i = some ch) (hc : s.ready ch c)
      (hafter : Channel.After i s c c')
      (h : t = State.faulted { s with chans := s.chans.set ch.toNat c' } .timerAllocFail)

theorem onChannel_outcome {i : Instr} {s t : State} {ch : Byte} {k : Channel → Outcome}
    (h : onChannel s ch k = .next t)
    (hk : ∀ c, s.ready ch c → k c = .next t → ChannelOutcome i s t) : ChannelOutcome i s t := by
  rcases onChannel_next h with ⟨-, h⟩ | ⟨hs, -, h⟩ | ⟨c, hc, h⟩
  · exact .answered _ h
  · exact .faulted _ hs h
  · exact hk c hc h

theorem commit_outcome {i : Instr} {s t : State} {ch : Byte} {c c' : Channel} {r : Result}
    (hch : channelOf i = some ch) (hc : s.ready ch c) (hafter : Channel.After i s c c')
    (h : commit s ch c' r = .next t) : ChannelOutcome i s t :=
  .committed ch c c' r hch hc hafter (commit_next h)

/-- A `PUT` that succeeds keeps what a Ring Buffer promises. -/
theorem Fifo.put_keeps {cap : Nat} {F G : Fifo} {b : Byte} (h : F.put cap b = some G)
    (hi : F.inited = true) :
    (F.wf cap = true → G.wf cap = true) ∧ G.inited = true := by
  refine ⟨fun hw => ((Fifo.ring_of_wf hw hi).put_some h).1.wf, ?_⟩
  unfold Fifo.put at h
  split_ifs at h <;> (cases h; exact hi)

theorem Fifo.putAll_inited (cap : Nat) (F : Fifo) (d : List Byte) :
    (F.putAll cap d).inited = F.inited := by
  induction d generalizing F with
  | nil => rfl
  | cons b rest ih =>
    simp only [Fifo.putAll, ih]
    cases h : F.put cap b with
    | none => rfl
    | some G =>
      unfold Fifo.put at h
      split_ifs at h <;> (cases h; rfl)

theorem Fifo.putSpan_keeps {cap : Nat} {F G : Fifo} {d : List Byte} (h : F.putSpan cap d = some G)
    (hi : F.inited = true) :
    (F.wf cap = true → G.wf cap = true) ∧ G.inited = true := by
  rw [Fifo.putSpan_eq] at h
  split_ifs at h with hd
  obtain rfl := Option.some.inj h
  exact ⟨fun hw => ((Fifo.ring_of_wf hw hi).putAll hd).1.wf, (Fifo.putAll_inited _ _ _).trans hi⟩

/-- A response queued whole or dropped whole keeps what `TXF` promises (R135). -/
theorem Fifo.putSpan_getD_keeps {cap : Nat} {F : Fifo} {d : List Byte} (hi : F.inited = true) :
    (F.wf cap = true → ((F.putSpan cap d).getD F).wf cap = true) ∧
      ((F.putSpan cap d).getD F).inited = true := by
  cases h : F.putSpan cap d with
  | none => exact ⟨id, hi⟩
  | some G => exact Fifo.putSpan_keeps h hi

theorem Fifo.takeAll_keeps {cap : Nat} {F : Fifo} {n : Nat} (hn : n ≤ F.length)
    (hi : F.inited = true) :
    (F.wf cap = true → (Fifo.takeAll cap n F).2.wf cap = true) ∧
      (Fifo.takeAll cap n F).2.inited = true :=
  ⟨fun hw => ((Fifo.ring_of_wf hw hi).takeAll hn).2.2.2.wf, (Fifo.takeAll_frame cap n F).2.1.trans hi⟩

theorem Fifo.dropped_keeps {cap : Nat} {F : Fifo} (hl : 0 < F.length) (hi : F.inited = true) :
    (F.wf cap = true → (F.dropped cap).wf cap = true) ∧ (F.dropped cap).inited = true :=
  ⟨fun hw => ((Fifo.ring_of_wf hw hi).dropped hl).wf, hi⟩

/-- With fewer than 4 bytes queued no tag is looked up; a tag that is unknown has 4 bytes queued, and
a frame that is validated is queued whole (R126). -/
theorem phaseOf_length {table : List TableEntry} {q : List Byte} :
    (phaseOf table q = .unknownTag → 4 ≤ q.length) ∧
      ∀ e, phaseOf table q = .validating e → frameLength e ≤ q.length := by
  unfold phaseOf
  split
  · rename_i b0 b1 b2 b3 rest
    split
    · exact ⟨fun _ => by simp, fun e h => by simp at h⟩
    · rename_i e _
      unfold phaseOfEntry
      split_ifs with h1 h2
      · exact ⟨by simp, by simp⟩
      · exact ⟨by simp, by simp⟩
      · refine ⟨by simp, fun e' he => ?_⟩
        obtain rfl := Phase.validating.inj he
        omega
  all_goals exact ⟨by simp, by simp⟩

/-- What `FP_PROCESS` does to its channel. -/
theorem execFpProcess_outcome {ch : Byte} {s t : State} (h : execFpProcess ch s = .next t) :
    ChannelOutcome (.fpProcess ch) s t := by
  refine onChannel_outcome h fun c hc h => ?_
  rcases whenInited_next h with ⟨-, h⟩ | ⟨hi, h⟩
  · exact .faulted _ hc.1 h
  obtain ⟨hrx, htx⟩ := Bool.and_eq_true_iff.1 hi
  obtain ⟨-, h⟩ := whenAddressable_next h
  obtain ⟨hunk, hval⟩ := @phaseOf_length c.cfg.table (c.rxf.contents s.cfg.capacity)
  cases hph : phaseOf c.cfg.table (c.rxf.contents s.cfg.capacity) with
  | awaitingTag => rw [hph] at h; exact .answered _ (answer_next h)
  | awaitingPayload e => rw [hph] at h; exact .answered _ (answer_next h)
  | awaitingChecksum e => rw [hph] at h; exact .answered _ (answer_next h)
  | unknownTag =>
    rw [hph] at h
    have hl := hunk hph
    rw [Fifo.contents_length] at hl
    obtain ⟨k1, k2⟩ := Fifo.dropped_keeps (cap := s.cfg.capacity) (F := c.rxf) (by omega) hrx
    exact commit_outcome rfl hc (Channel.After.setFifo (f := .rx) (fun _ => k1) fun _ => k2) h
  | validating e =>
    rw [hph] at h
    have hl := hval e hph
    rw [Fifo.contents_length] at hl
    obtain ⟨k1, k2⟩ := Fifo.takeAll_keeps (cap := s.cfg.capacity) hl hrx
    have hafter : Channel.After (.fpProcess ch) s c
        { c with rxf := (Fifo.takeAll s.cfg.capacity (frameLength e) c.rxf).2 } :=
      Channel.After.setFifo (f := .rx) (fun _ => k1) fun _ => k2
    simp only [consumeFrame] at h
    split_ifs at h
    · refine commit_outcome rfl hc ?_ h
      obtain ⟨g1, g2⟩ := Fifo.putSpan_getD_keeps (cap := s.cfg.capacity) (d := encodeFrame s.cfg e.tag
        (callHandler ch.toNat e.handler e.tag
          (framePayload (Fifo.takeAll s.cfg.capacity (frameLength e) c.rxf).1) c.app).1) htx
      exact ⟨hafter.cfg, fun hp hcw => by
          have h1 := hafter.wf hp hcw
          simp only [Channel.wf, Bool.and_eq_true] at h1 hcw ⊢
          exact ⟨h1.1, g1 hcw.2⟩, hafter.rx_inited, fun _ => g2, hafter.engaged, hafter.wireOut,
        hafter.wireOut_eq, List.prefix_append _ _, fun hi => absurd rfl (hi ch), hafter.tmr⟩
    · exact commit_outcome rfl hc hafter h

/-- What `CH_INIT` does. -/
theorem execChInit_outcome {ch : Byte} {s t : State} (h : execChInit ch s = .next t) :
    ChannelOutcome (.chInit ch) s t := by
  refine onChannel_outcome h fun c hc h => ?_
  split_ifs at h
  · cases hti : c.initFifos.tmrInit s.now with
    | none =>
      rw [hti] at h
      exact .unslotted ch c _ rfl hc (Channel.After.initFifos _ s c) (raiseFault_next h)
    | some c' =>
      rw [hti] at h
      refine commit_outcome rfl hc ?_ h
      rcases Channel.tmrInit_some hti with ⟨-, rfl⟩ | ⟨-, -, rfl⟩
      · exact Channel.After.initFifos _ s c
      · exact (Channel.After.initFifos _ s c).trans_timer rfl rfl rfl rfl rfl rfl
          (fun _ => rfl)
          (.inr (.inl rfl))
  · exact .faulted _ hc.1 (raiseFault_next h)

/-- What `RXBYTE` does. -/
theorem execRxByte_outcome {ch b : Byte} {s t : State} (h : execRxByte ch b s = .next t) :
    ChannelOutcome (.rxByte ch b) s t := by
  refine onChannel_outcome h fun c hc h => ?_
  rcases whenInited_next h with ⟨-, h⟩ | ⟨hi, h⟩
  · exact .faulted _ hc.1 h
  obtain ⟨hrx, -⟩ := Bool.and_eq_true_iff.1 hi
  obtain ⟨-, h⟩ := whenAddressable_next h
  cases hp : c.rxf.put s.cfg.capacity b with
  | none =>
    simp only [hp] at h
    exact commit_outcome rfl hc (Channel.After.setTimer (t := c.tmr.arm s.now s.cfg.idleDelay)
      (fun h => h) (.inr (.inr ⟨_, .inr rfl, rfl, rfl⟩))) h
  | some F =>
    simp only [hp] at h
    obtain ⟨k1, k2⟩ := Fifo.put_keeps hp hrx
    refine commit_outcome rfl hc ?_ h
    exact (Channel.After.setFifo (s := s) (c := c) (f := .rx) (fun _ => k1) fun _ => k2).trans_timer
      rfl rfl rfl rfl rfl rfl (fun h => h) (.inr (.inr ⟨_, .inr rfl, rfl, rfl⟩))

/-- What `PUMP` does. -/
theorem execPump_outcome {ch : Byte} {k : Half} {s t : State} (h : execPump ch k s = .next t) :
    ChannelOutcome (.pump ch k) s t := by
  refine onChannel_outcome h fun c hc h => ?_
  rcases whenInited_next h with ⟨-, h⟩ | ⟨hi, h⟩
  · exact .faulted _ hc.1 h
  obtain ⟨-, h⟩ := whenAddressable_next h
  obtain ⟨k1, k2⟩ := Fifo.takeAll_keeps (cap := s.cfg.capacity)
    (Nat.min_le_right k.toNat c.txf.length) hi
  refine commit_outcome rfl hc ?_ h
  have hafter := Channel.After.setFifo (i := .pump ch k) (s := s) (c := c) (f := .tx) (fun _ => k1)
    fun _ => k2
  exact ⟨hafter.cfg, hafter.wf, hafter.rx_inited, hafter.tx_inited, hafter.engaged,
    List.prefix_append _ _, fun hi => absurd rfl (hi ch k), hafter.calls, hafter.app_eq,
    hafter.tmr⟩

theorem onFifo_outcome {i : Instr} {s t : State} {f : FifoSel} {ch : Byte}
    {k : Channel → Fifo → Outcome} (h : onFifo s f ch k = .next t)
    (hk : ∀ c, s.ready ch c → (c.fifo f).inited = true → k c (c.fifo f) = .next t →
      ChannelOutcome i s t) : ChannelOutcome i s t := by
  refine onChannel_outcome h fun c hc h => ?_
  rcases whenInited_next h with ⟨-, h⟩ | ⟨hi, h⟩
  · exact .faulted _ hc.1 h
  · exact hk c hc hi h

theorem onStorage_outcome {i : Instr} {s t : State} {f : FifoSel} {ch : Byte}
    {k : Channel → Fifo → Outcome} (h : onStorage s f ch k = .next t)
    (hk : ∀ c, s.ready ch c → (c.fifo f).inited = true → k c (c.fifo f) = .next t →
      ChannelOutcome i s t) : ChannelOutcome i s t :=
  onFifo_outcome h fun c hc hi h => hk c hc hi (whenAddressable_next h).2

/-- What an operation other than `TICK` can do to the state. -/
theorem exec_channelOutcome {i : Instr} {s t : State} (hi : ∀ ch, i ≠ .tick ch)
    (h : exec i s = .next t) : ChannelOutcome i s t := by
  cases i with
  | tick ch => exact absurd rfl (hi ch)
  | fifoInit f ch =>
    simp only [exec, execFifoInit] at h
    exact onChannel_outcome h fun c hc h => commit_outcome rfl hc
      (Channel.After.setFifo (fun hp _ => (Fifo.ring_init hp _).wf) fun _ => rfl) h
  | fifoReset f ch =>
    simp only [exec, execFifoReset] at h
    exact onFifo_outcome h fun c hc hi h => commit_outcome rfl hc
      (Channel.After.setFifo (fun hp hw => Fifo.wf_reset hp hw) fun h => h) h
  | fifoSetOvw f ch b =>
    simp only [exec, execFifoSetOvw] at h
    refine onChannel_outcome h fun c hc h => ?_
    cases hp : policyOf b with
    | none => rw [hp] at h; exact .faulted _ hc.1 (raiseFault_next h)
    | some p =>
      rw [hp] at h
      rcases whenInited_next h with ⟨-, h⟩ | ⟨-, h⟩
      · exact .faulted _ hc.1 h
      · exact commit_outcome rfl hc (Channel.After.setFifo (F := (c.fifo f).setOverwrite p)
          (fun _ hw => hw) fun h => h) h
  | put f ch b =>
    simp only [exec, execPut] at h
    refine onStorage_outcome h fun c hc hi h => ?_
    cases hp : (c.fifo f).put s.cfg.capacity b with
    | none => simp only [hp] at h; exact .answered _ (answer_next h)
    | some F =>
      simp only [hp] at h
      obtain ⟨k1, k2⟩ := Fifo.put_keeps hp hi
      exact commit_outcome rfl hc (Channel.After.setFifo (fun _ => k1) fun _ => k2) h
  | putSpan f ch d =>
    simp only [exec, execPutSpan] at h
    refine onStorage_outcome h fun c hc hi h => ?_
    cases hp : (c.fifo f).putSpan s.cfg.capacity d with
    | none => simp only [hp] at h; exact .answered _ (answer_next h)
    | some F =>
      simp only [hp] at h
      obtain ⟨k1, k2⟩ := Fifo.putSpan_keeps hp hi
      exact commit_outcome rfl hc (Channel.After.setFifo (fun _ => k1) fun _ => k2) h
  | get f ch =>
    simp only [exec, execGet] at h
    refine onStorage_outcome h fun c hc hi h => ?_
    simp only [Fifo.get] at h
    by_cases hl : (c.fifo f).length = 0
    · simp only [hl, if_true] at h; exact .answered _ (answer_next h)
    · simp only [hl, if_false] at h
      obtain ⟨k1, k2⟩ := Fifo.dropped_keeps (cap := s.cfg.capacity) (Nat.pos_of_ne_zero hl) hi
      exact commit_outcome rfl hc (Channel.After.setFifo (fun _ => k1) fun _ => k2) h
  | peek f ch =>
    simp only [exec, execPeek] at h
    refine onStorage_outcome h fun c hc hi h => ?_
    cases hp : (c.fifo f).peek with
    | none => simp only [hp] at h; exact .answered _ (answer_next h)
    | some b => simp only [hp] at h; exact .answered _ (answer_next h)
  | getSpan f ch n =>
    simp only [exec, execGetSpan] at h
    refine onStorage_outcome h fun c hc hi h => ?_
    simp only [Fifo.getSpan] at h
    by_cases hl : (c.fifo f).length < n.toNat
    · simp only [hl, if_true] at h; exact .answered _ (answer_next h)
    · simp only [hl, if_false] at h
      obtain ⟨k1, k2⟩ := Fifo.takeAll_keeps (cap := s.cfg.capacity) (Nat.le_of_not_lt hl) hi
      exact commit_outcome rfl hc (Channel.After.setFifo (fun _ => k1) fun _ => k2) h
  | size f ch =>
    simp only [exec, execSize] at h
    exact onFifo_outcome h fun c hc hi h => .answered _ (answer_next h)
  | tmrInit ch =>
    simp only [exec, execTmrInit] at h
    refine onChannel_outcome h fun c hc h => ?_
    cases hti : c.tmrInit s.now with
    | none => simp only [hti] at h; exact .faulted _ hc.1 (raiseFault_next h)
    | some c' =>
      simp only [hti] at h
      refine commit_outcome rfl hc ?_ h
      rcases Channel.tmrInit_some hti with ⟨-, rfl⟩ | ⟨-, -, rfl⟩
      · exact Channel.After.setTimer (fun h => h) (.inl rfl)
      · exact Channel.After.setTimer (fun _ => rfl) (.inr (.inl rfl))
  | tmrArm ch delay =>
    simp only [exec, execTmrArm] at h
    refine onChannel_outcome h fun c hc h => ?_
    split_ifs at h with hd
    · rcases whenInited_next h with ⟨-, h⟩ | ⟨-, h⟩
      · exact .faulted _ hc.1 h
      · exact commit_outcome rfl hc
          (Channel.After.setTimer (t := c.tmr.arm s.now delay) (fun h => h)
            (.inr (.inr ⟨_, .inl hd, rfl, rfl⟩))) h
    · exact .faulted _ hc.1 (raiseFault_next h)
  | tmrCancel ch =>
    simp only [exec, execTmrCancel] at h
    refine onChannel_outcome h fun c hc h => ?_
    rcases whenInited_next h with ⟨-, h⟩ | ⟨-, h⟩
    · exact .faulted _ hc.1 h
    · exact commit_outcome rfl hc (Channel.After.setTimer (t := c.tmr.cancel s.now) (fun h => h)
        (.inr (.inl rfl))) h
  | crc16 ch seed d =>
    simp only [exec, execCrc16] at h
    rcases unlessHalted_next h with ⟨-, h⟩ | ⟨-, h⟩
    · exact .answered _ h
    · exact .answered _ (answer_next h)
  | fpProcess ch => exact execFpProcess_outcome h
  | chInit ch => exact execChInit_outcome h
  | rxByte ch b => exact execRxByte_outcome h
  | pump ch k => exact execPump_outcome h

/-- What `TICK` does: it always answers a next state (R104, R166). -/
theorem execTick_cases (ch : Byte) (s : State) :
    (s.halted = true ∧
      execTick ch s = .next (State.answered { s with now := s.now + 1#32 } (.ok (.fired 0)))) ∨
    (s.halted = false ∧ (fireDue (s.now + 1#32) s.chans).2.2 = true ∧
      execTick ch s = .next (State.faulted
        { s with now := s.now + 1#32, chans := (fireDue (s.now + 1#32) s.chans).1 } .assertUninit)) ∨
    (s.halted = false ∧ (fireDue (s.now + 1#32) s.chans).2.2 = false ∧
      execTick ch s = .next (State.answered
        { s with now := s.now + 1#32, chans := (fireDue (s.now + 1#32) s.chans).1 }
        (.ok (.fired (BitVec.ofNat 8 (fireDue (s.now + 1#32) s.chans).2.1))))) := by
  unfold execTick
  cases hs : s.halted with
  | true => exact .inl ⟨rfl, by simp [answer]⟩
  | false =>
    cases hf : (fireDue (s.now + 1#32) s.chans).2.2 with
    | true => exact .inr (.inl ⟨rfl, rfl, by simp [raiseFault, hf]⟩)
    | false => exact .inr (.inr ⟨rfl, rfl, by simp [answer, hf]⟩)

/-- What a step can do: idle, perform the next request, or answer a reserved opcode. -/
theorem step_next {s t : State} (h : step s = .next t) :
    s.tablesLegal = true ∧
      ((s.requests = [] ∧ t = s) ∨
        ∃ r rest, s.requests = r :: rest ∧
          ((∃ i, decode r = .request i ∧ exec i { s with requests := rest } = .next t) ∨
            (∃ b, decode r = .reservedOpcode b ∧
              answerReserved { s with requests := rest } = .next t))) := by
  unfold step performNext at h
  split_ifs at h with hl
  refine ⟨hl, ?_⟩
  cases hr : s.requests with
  | nil =>
    simp only [fetchRequest, hr] at h
    exact .inl ⟨rfl, (Host.Outcome.next.inj h).symm⟩
  | cons r rest =>
    simp only [fetchRequest, hr, perform] at h
    refine .inr ⟨r, rest, rfl, ?_⟩
    cases hd : decode r with
    | request i => rw [hd] at h; exact .inl ⟨i, rfl, h⟩
    | reservedOpcode b => rw [hd] at h; exact .inr ⟨b, rfl, h⟩
    | malformed => rw [hd] at h; simp at h

/-- A step is idle, or performs an operation, or answers a reserved opcode, on the state whose first
request is taken off. -/
theorem step_cases {s t : State} (h : step s = .next t) :
    t = s ∨ ∃ rest, (∃ i, exec i { s with requests := rest } = .next t) ∨
      (s.halted = true ∧ t = State.answered { s with requests := rest } (.fault s.faultCode)) ∨
      (s.halted = false ∧ t = State.faulted { s with requests := rest } .illegalRequest) := by
  obtain ⟨-, ⟨-, rfl⟩ | ⟨r, rest, hr, ⟨i, -, hx⟩ | ⟨b, -, hx⟩⟩⟩ := step_next h
  · exact .inl rfl
  · exact .inr ⟨rest, .inl ⟨i, hx⟩⟩
  · refine .inr ⟨rest, .inr ?_⟩
    rcases unlessHalted_next hx with h | ⟨h1, h2⟩
    · exact .inl h
    · exact .inr ⟨h1, raiseFault_next h2⟩

theorem getElem?_set_cases {α : Type} {l : List α} {n k : Nat} {a d : α}
    (h : (l.set n a)[k]? = some d) : (k = n ∧ d = a) ∨ (k ≠ n ∧ l[k]? = some d) := by
  rw [List.getElem?_set] at h
  split_ifs at h with h1 h2
  · exact .inl ⟨h1.symm, (Option.some.inj h).symm⟩
  · exact .inr ⟨fun hh => h1 hh.symm, h⟩

/-- What an operation does to each channel: nothing, what its own meaning does, or `FIRE`. -/
theorem exec_channels {i : Instr} {s t : State} (h : exec i s = .next t) :
    t.cfg = s.cfg ∧ t.chans.length = s.chans.length ∧
      ∀ (k : Nat) (d : Channel), t.chans[k]? = some d → ∃ c : Channel, s.chans[k]? = some c ∧
        (d = c ∨
          (∃ ch : Byte, channelOf i = some ch ∧ ch.toNat = k ∧ s.halted = false ∧
            Channel.After i s c d) ∨
          (∃ ch, i = .tick ch) ∧ d = c.fire ∧ c.rxf.inited = true) := by
  by_cases hi : ∃ ch, i = .tick ch
  · obtain ⟨ch, rfl⟩ := hi
    have hs := fireDue_spec (s.now + 1#32) s.chans
    have key : ∀ (k : Nat) (d : Channel), (fireDue (s.now + 1#32) s.chans).1[k]? = some d →
        ∃ c : Channel, s.chans[k]? = some c ∧ (d = c ∨
          (∃ ch' : Byte, channelOf (.tick ch) = some ch' ∧ ch'.toNat = k ∧ s.halted = false ∧
            Channel.After (.tick ch) s c d) ∨
          (∃ ch', Instr.tick ch = .tick ch') ∧ d = c.fire ∧ c.rxf.inited = true) := by
      intro k d hd
      obtain ⟨c, hc, ⟨rfl, -⟩ | ⟨rfl, -, hi⟩⟩ := hs.2 k d hd
      · exact ⟨_, hc, .inl rfl⟩
      · exact ⟨c, hc, .inr (.inr ⟨⟨ch, rfl⟩, rfl, hi⟩)⟩
    rcases execTick_cases ch s with ⟨-, he⟩ | ⟨-, -, he⟩ | ⟨-, -, he⟩ <;>
      (rw [exec, he] at h; obtain rfl := Host.Outcome.next.inj h)
    · exact ⟨rfl, rfl, fun k d hd => ⟨d, hd, .inl rfl⟩⟩
    · exact ⟨rfl, hs.1, key⟩
    · exact ⟨rfl, hs.1, key⟩
  · have := exec_channelOutcome (fun ch hc => hi ⟨ch, hc⟩) h
    cases this with
    | answered r h => subst h; exact ⟨rfl, rfl, fun k d hd => ⟨d, hd, .inl rfl⟩⟩
    | faulted r hs h => subst h; exact ⟨rfl, rfl, fun k d hd => ⟨d, hd, .inl rfl⟩⟩
    | committed ch c c' r hch hc ha h =>
      subst h
      refine ⟨rfl, by simp, fun k d hd => ?_⟩
      rcases getElem?_set_cases hd with ⟨rfl, rfl⟩ | ⟨-, hd⟩
      · exact ⟨c, hc.2, .inr (.inl ⟨ch, hch, rfl, hc.1, ha⟩)⟩
      · exact ⟨d, hd, .inl rfl⟩
    | unslotted ch c c' hch hc ha h =>
      subst h
      refine ⟨rfl, by simp, fun k d hd => ?_⟩
      rcases getElem?_set_cases hd with ⟨rfl, rfl⟩ | ⟨-, hd⟩
      · exact ⟨c, hc.2, .inr (.inl ⟨ch, hch, rfl, hc.1, ha⟩)⟩
      · exact ⟨d, hd, .inl rfl⟩

/-- The invariant of the machine holds when it holds channel by channel. -/
theorem State.wf_of_channels {s t : State} (hcfg : t.cfg = s.cfg) (h : s.wf = true)
    (hk : ∀ (k : Nat) (d : Channel), t.chans[k]? = some d → ∃ c : Channel, s.chans[k]? = some c ∧
      d.cfg = c.cfg ∧ (c.wf s.cfg.capacity = true → d.wf s.cfg.capacity = true)) : t.wf = true := by
  simp only [State.wf, Bool.and_eq_true, hcfg] at h ⊢
  refine ⟨⟨h.1.1, ?_⟩, ?_⟩
  · simp only [State.tablesLegal, List.all_eq_true] at h ⊢
    intro d hd
    obtain ⟨k, hk'⟩ := List.mem_iff_getElem?.1 hd
    obtain ⟨c, hc, he, -⟩ := hk k d hk'
    rw [he]
    exact h.1.2 c (List.mem_of_getElem? hc)
  · simp only [List.all_eq_true] at h ⊢
    intro d hd
    obtain ⟨k, hk'⟩ := List.mem_iff_getElem?.1 hd
    obtain ⟨c, hc, -, hw⟩ := hk k d hk'
    exact hw (h.2 c (List.mem_of_getElem? hc))

/-- Every operation keeps the invariant of the machine. -/
theorem exec_wf {i : Instr} {s t : State} (hw : s.wf = true) (h : exec i s = .next t) :
    t.wf = true := by
  obtain ⟨h1, -, h3⟩ := exec_channels h
  refine State.wf_of_channels h1 hw fun k d hd => ?_
  obtain ⟨c, hc, rfl | ⟨-, -, -, -, ha⟩ | ⟨-, rfl, -⟩⟩ := h3 k d hd
  · exact ⟨_, hc, rfl, id⟩
  · exact ⟨_, hc, ha.cfg, ha.wf (State.wf_capacity hw)⟩
  · refine ⟨c, hc, rfl, fun h => ?_⟩
    simp only [Channel.wf, Bool.and_eq_true] at h ⊢
    exact ⟨Fifo.wf_reset (State.wf_capacity hw) h.1, h.2⟩

/-- Check 1 of R167 for every operation but `TICK`. -/
theorem exec_halted {s : State} (hs : s.halted = true) {i : Instr} (hi : ∀ ch, i ≠ .tick ch) :
    exec i s = .next (s.answered (.fault s.faultCode)) := by
  cases i with
  | tick ch => exact absurd rfl (hi ch)
  | crc16 => exact unlessHalted_halted hs _
  | _ => exact onChannel_halted hs _ _

/-- Check 3 of R167 for every operation with a channel. -/
theorem exec_badChannel {s : State} (hs : s.halted = false) {i : Instr} {ch : Byte}
    (hi : channelOf i = some ch) (hc : s.chans.length ≤ ch.toNat) :
    exec i s = .next (s.faulted .assertBadChannel) := by
  have hn : s.chans[ch.toNat]? = none := List.getElem?_eq_none hc
  cases i with
  | tick | crc16 => cases hi
  | _ =>
    obtain rfl := Option.some.inj hi
    exact onChannel_none hs hn _

/-- Checks 1 and 3 in the words of a statement. -/
theorem checksFirst {i : Instr} {ch : Byte} (hi : channelOf i = some ch) (s : State) :
    ChecksFirst i ch s :=
  ⟨fun h => exec_halted h (by rintro c rfl; cases hi), fun h hc => exec_badChannel h hi hc⟩

end Sys2Proof.Machine
end

