-- ==== Sys2Proof/Laws/Parser.lean ====
section
/-! SUPPORT. The frame parser: tag lookup (R125), the phases (R126), the wire frame (R61 to R66), and what
`FP_PROCESS` does in each phase (R129 to R135). -/

namespace Sys2Proof.Machine

/-! ### Lookup and phases -/

theorem tagBytes_inj {t t' : Tag} (h : tagBytes t = tagBytes t') : t = t' := by
  cases t
  cases t'
  simp [tagBytes] at h
  simp [h]

theorem lookup_none {table : List TableEntry} {t : Tag} (h : ∀ e ∈ table, e.tag ≠ t) :
    lookup table t = none := by
  simp only [lookup, List.find?_eq_none, beq_iff_eq]
  exact h

/-- In a table without a repeated tag an entry is found under its own tag (R63, R125). -/
theorem lookup_self {table : List TableEntry} (hn : (table.map TableEntry.tag).Nodup) {e : TableEntry}
    (he : e ∈ table) : lookup table e.tag = some e := by
  induction table with
  | nil => simp at he
  | cons x rest ih =>
    simp only [List.map_cons, List.nodup_cons] at hn
    rcases List.mem_cons.1 he with rfl | he
    · simp [lookup]
    · have hx : x.tag ≠ e.tag := fun h => hn.1 (h ▸ List.mem_map_of_mem he)
      simpa [lookup, hx] using ih hn.2 he

theorem phaseOf_short {table : List TableEntry} {q : List Byte} (h : q.length < 4) :
    phaseOf table q = .awaitingTag := by
  unfold phaseOf
  split
  · simp at h; omega
  all_goals rfl

/-- With 4 bytes or more queued the phase is that of the tag they spell (R126). -/
theorem phaseOf_tag {table : List TableEntry} {q : List Byte} {t : Tag} (h : tagBytes t = q.take 4) :
    phaseOf table q =
      match lookup table t with
      | none => .unknownTag
      | some e => phaseOfEntry e q.length := by
  unfold phaseOf
  split
  · rename_i b0 b1 b2 b3 rest
    have ht : t = ⟨b0, b1, b2, b3⟩ := tagBytes_inj (by simpa [tagBytes] using h)
    rw [ht] <;> rfl
  all_goals simp [tagBytes] at h

theorem exists_tag {q : List Byte} (h : 4 ≤ q.length) : ∃ t, tagBytes t = q.take 4 := by
  match q, h with
  | b0 :: b1 :: b2 :: b3 :: _, _ => exact ⟨⟨b0, b1, b2, b3⟩, by simp [tagBytes]⟩

theorem phaseOf_unknown {table : List TableEntry} {q : List Byte} (h4 : 4 ≤ q.length)
    (h : ∀ e ∈ table, tagBytes e.tag ≠ q.take 4) : phaseOf table q = .unknownTag := by
  obtain ⟨t, ht⟩ := exists_tag h4
  rw [phaseOf_tag ht, lookup_none fun e he hh => h e he (by rw [hh, ht])]

theorem phaseOf_known {table : List TableEntry} (hn : (table.map TableEntry.tag).Nodup)
    {q : List Byte} {e : TableEntry} (he : e ∈ table) (h : tagBytes e.tag = q.take 4) :
    phaseOf table q = phaseOfEntry e q.length := by
  rw [phaseOf_tag h, lookup_self hn he]

theorem State.table_nodup {s : State} (h : s.tablesLegal = true) {k : Nat} {c : Channel}
    (hc : s.chans[k]? = some c) : (c.cfg.table.map TableEntry.tag).Nodup := by
  simp only [State.tablesLegal, List.all_eq_true, tableLegal, decide_eq_true_eq] at h
  exact h c (List.mem_of_getElem? hc)

theorem tableFits_iff {cap : Nat} {table : List TableEntry} :
    tableFits cap table = true ↔ ∀ e ∈ table, 6 + e.payloadLen ≤ cap := by
  simp only [tableFits, List.all_eq_true, decide_eq_true_eq]
  exact Iff.rfl

/-! ### Frames -/

@[simp] theorem tagBytes_length (t : Tag) : (tagBytes t).length = 4 := rfl

@[simp] theorem enc16_length (lsb : Bool) (v : Half) : (enc16 lsb v).length = 2 := by
  cases lsb <;> rfl

@[simp] theorem encodeFrame_length (cfg : Config) (t : Tag) (payload : List Byte) :
    (encodeFrame cfg t payload).length = 6 + payload.length := by
  simp [encodeFrame]
  omega

/-- The two checksum bytes, and that reading them back gives the checksum, in either wire order. -/
theorem enc16_dec16 (lsb : Bool) (v : Half) :
    ∃ b0 b1, enc16 lsb v = [b0, b1] ∧ dec16 lsb b0 b1 = v := by
  cases lsb
  · exact ⟨v.extractLsb' 8 8, v.extractLsb' 0 8, rfl, of16_of_le16 v⟩
  · exact ⟨v.extractLsb' 0 8, v.extractLsb' 8 8, rfl, of16_of_le16 v⟩

/-- The parts of a frame that is written as tag, payload and two checksum bytes. -/
theorem frame_parts (cfg : Config) (t : Tag) (payload : List Byte) (x0 x1 : Byte) :
    framePayload (tagBytes t ++ payload ++ [x0, x1]) = payload ∧
      frameField cfg (tagBytes t ++ payload ++ [x0, x1]) = dec16 cfg.crcLsbFirst x0 x1 ∧
      (tagBytes t ++ payload ++ [x0, x1]).take ((tagBytes t ++ payload ++ [x0, x1]).length - 2) =
        tagBytes t ++ payload := by
  have hlen : (tagBytes t ++ payload ++ [x0, x1]).length - 2 = (tagBytes t ++ payload).length := by
    simp
    omega
  have hlen1 : (tagBytes t ++ payload ++ [x0, x1]).length - 1 = (tagBytes t ++ payload).length + 1 := by
    simp
    omega
  have htake : (tagBytes t ++ payload ++ [x0, x1]).take
      ((tagBytes t ++ payload ++ [x0, x1]).length - 2) = tagBytes t ++ payload := by
    rw [hlen, List.take_left']
    rfl
  refine ⟨?_, ?_, htake⟩
  · rw [framePayload, htake]
    rfl
  · rw [frameField, hlen, hlen1]
    simp only [List.getD_eq_getElem?_getD, List.getElem?_append_right (le_refl _),
      List.getElem?_append_right (Nat.le_succ _)]
    simp

theorem frameValid_iff (cfg : Config) (t : Tag) (payload : List Byte) (x0 x1 : Byte) :
    frameValid cfg (tagBytes t ++ payload ++ [x0, x1]) = true ↔
      crc16 cfg.checksum (tagBytes t ++ payload) cfg.crcSeed = dec16 cfg.crcLsbFirst x0 x1 := by
  obtain ⟨-, h2, h3⟩ := frame_parts cfg t payload x0 x1
  rw [frameValid, h2, h3, frameChecksum, beq_iff_eq]

/-! ### `FP_PROCESS` -/

/-- `FP_PROCESS` past its checks. -/
theorem execFpProcess_ready {s : State} {ch : Byte} {c : Channel} (hc : s.ready ch c)
    (hr : c.rxf.inited = true) (hx : c.txf.inited = true)
    (har : c.rxf.addressable s.cfg.capacity = true) (hax : c.txf.addressable s.cfg.capacity = true) :
    execFpProcess ch s =
      match phaseOf c.cfg.table (c.rxf.contents s.cfg.capacity) with
      | .awaitingTag => answer s (.ok (.outcome .noFrame))
      | .awaitingPayload _ => answer s (.ok (.outcome .noFrame))
      | .awaitingChecksum _ => answer s (.ok (.outcome .noFrame))
      | .unknownTag =>
        commit s ch { c with rxf := c.rxf.dropped s.cfg.capacity } (.ok (.outcome .resync))
      | .validating e => consumeFrame s ch c e := by
  simp only [execFpProcess, onChannel_ready hc, hr, hx, har, hax, Bool.and_self, whenInited_true,
    whenAddressable_true] <;>
    cases phaseOf c.cfg.table (c.rxf.contents s.cfg.capacity) <;> rfl

/-- The result of the handler is the application's next written-out answer, if it has one. -/
theorem callHandler_answer {k h : Nat} {t : Tag} {payload : List Byte} {app : App} {a : List Byte}
    {as : List (List Byte)} (ha : app.answers = a :: as) : (callHandler k h t payload app).1 = a := by
  simp [callHandler, ha]

/-- The calls of the application after a dispatch. -/
theorem callHandler_calls (k h : Nat) (t : Tag) (payload : List Byte) (app : App) :
    (callHandler k h t payload app).2 =
      { answers := app.answers.tail
        calls := app.calls ++ [⟨h, t, payload, (callHandler k h t payload app).1⟩] } := rfl

/-- What a complete candidate frame at the head of the queue comes to: it is consumed, and dispatched or
discarded (R130, R131, R132). -/
theorem consumeFrame_frame {s : State} {ch : Byte} {c : Channel} {e : TableEntry}
    {payload rest : List Byte} {x0 x1 : Byte} (hR : c.rxf.Ring s.cfg.capacity)
    (hp : payload.length = e.payloadLen)
    (hq : c.rxf.contents s.cfg.capacity = tagBytes e.tag ++ payload ++ [x0, x1] ++ rest) :
    ∃ R : Fifo, R.Ring s.cfg.capacity ∧ R.contents s.cfg.capacity = rest ∧
      R = { c.rxf with
        getIndex := (c.rxf.getIndex + (6 + e.payloadLen)) % s.cfg.capacity
        length := c.rxf.length - (6 + e.payloadLen) } ∧
      consumeFrame s ch c e =
        if crc16 s.cfg.checksum (tagBytes e.tag ++ payload) s.cfg.crcSeed =
            dec16 s.cfg.crcLsbFirst x0 x1 then
          dispatchFrame s ch { c with rxf := R } e (tagBytes e.tag ++ payload ++ [x0, x1])
        else commit s ch { c with rxf := R } (.ok (.outcome .discard)) := by
  have hfl : (tagBytes e.tag ++ payload ++ [x0, x1]).length = frameLength e := by
    simp [frameLength, hp]
    omega
  have hle : frameLength e ≤ c.rxf.length := by
    rw [← Fifo.contents_length s.cfg.capacity c.rxf, hq, List.length_append, hfl]
    omega
  obtain ⟨h1, h2, h3, h4⟩ := hR.takeAll hle
  have ht : (Fifo.takeAll s.cfg.capacity (frameLength e) c.rxf).1 =
      tagBytes e.tag ++ payload ++ [x0, x1] := by
    rw [h1, hq, ← hfl, List.take_left']
    rfl
  refine ⟨_, h4, ?_, h3, ?_⟩
  · rw [h2, hq, ← hfl, List.drop_left']
    rfl
  · unfold consumeFrame
    simp only [ht, frameValid_iff]

end Sys2Proof.Machine
end

