-- ==== Sys2Proof/Laws/PerInstr.lean ====
section
/-! SUPPORT. One lemma per operation about its request as syntax: byte 0 belongs to the operation's own
row of the opcode map (R69), and the request has the length its format gives (R67). -/

namespace Sys2Proof.Laws.RequestShape

/-- Byte 0 of the request belongs to the operation's row, and the length is that of the row's format:
the fixed bytes and then the data bytes. -/
def Statement (i : Instr) : Prop :=
  ∃ r ∈ opcodeMap, r.op = i.op ∧ rowOf ((encode i).headD 0) = some r ∧
    (encode i).length = r.format.fixedLength + i.dataLength

theorem fifoInit (f : FifoSel) (ch : Byte) : Statement (.fifoInit f ch) := by
  refine ⟨⟨.fifoInit, 0x00, 0xEF, .Z⟩, by decide, rfl, ?_, rfl⟩
  cases f <;> (simp only [encode, fifoOpcode, List.headD_cons]; decide)

theorem fifoReset (f : FifoSel) (ch : Byte) : Statement (.fifoReset f ch) := by
  refine ⟨⟨.fifoReset, 0x01, 0xEF, .Z⟩, by decide, rfl, ?_, rfl⟩
  cases f <;> (simp only [encode, fifoOpcode, List.headD_cons]; decide)

theorem fifoSetOvw (f : FifoSel) (ch : Byte) (b : Byte) : Statement (.fifoSetOvw f ch b) := by
  refine ⟨⟨.fifoSetOvw, 0x02, 0xEF, .B⟩, by decide, rfl, ?_, rfl⟩
  cases f <;> (simp only [encode, fifoOpcode, List.headD_cons]; decide)

theorem put (f : FifoSel) (ch : Byte) (b : Byte) : Statement (.put f ch b) := by
  refine ⟨⟨.put, 0x03, 0xEF, .B⟩, by decide, rfl, ?_, rfl⟩
  cases f <;> (simp only [encode, fifoOpcode, List.headD_cons]; decide)

theorem putSpan (f : FifoSel) (ch : Byte) (d : List Byte) : Statement (.putSpan f ch d) := by
  refine ⟨⟨.putSpan, 0x04, 0xEF, .S⟩, by decide, rfl, ?_, ?_⟩
  · cases f <;> (simp only [encode, fifoOpcode, List.headD_cons]; decide)
  · simp [encode, le16, Format.fixedLength, Instr.dataLength]
    omega

theorem get (f : FifoSel) (ch : Byte) : Statement (.get f ch) := by
  refine ⟨⟨.get, 0x05, 0xEF, .Z⟩, by decide, rfl, ?_, rfl⟩
  cases f <;> (simp only [encode, fifoOpcode, List.headD_cons]; decide)

theorem peek (f : FifoSel) (ch : Byte) : Statement (.peek f ch) := by
  refine ⟨⟨.peek, 0x06, 0xEF, .Z⟩, by decide, rfl, ?_, rfl⟩
  cases f <;> (simp only [encode, fifoOpcode, List.headD_cons]; decide)

theorem getSpan (f : FifoSel) (ch : Byte) (n : Half) : Statement (.getSpan f ch n) := by
  refine ⟨⟨.getSpan, 0x07, 0xEF, .N⟩, by decide, rfl, ?_, rfl⟩
  cases f <;> (simp only [encode, fifoOpcode, List.headD_cons]; decide)

theorem size (f : FifoSel) (ch : Byte) : Statement (.size f ch) := by
  refine ⟨⟨.size, 0x08, 0xEF, .Z⟩, by decide, rfl, ?_, rfl⟩
  cases f <;> (simp only [encode, fifoOpcode, List.headD_cons]; decide)

theorem tmrInit (ch : Byte) : Statement (.tmrInit ch) :=
  ⟨⟨.tmrInit, 0x20, 0xFF, .Z⟩, by decide, rfl, by simp only [encode, List.headD_cons]; decide, rfl⟩

theorem tmrArm (ch : Byte) (delay : Time) : Statement (.tmrArm ch delay) :=
  ⟨⟨.tmrArm, 0x21, 0xFF, .D⟩, by decide, rfl, by simp only [encode, List.headD_cons]; decide, rfl⟩

theorem tmrCancel (ch : Byte) : Statement (.tmrCancel ch) :=
  ⟨⟨.tmrCancel, 0x22, 0xFF, .Z⟩, by decide, rfl, by simp only [encode, List.headD_cons]; decide, rfl⟩

theorem tick (ch : Byte) : Statement (.tick ch) :=
  ⟨⟨.tick, 0x23, 0xFF, .Z⟩, by decide, rfl, by simp only [encode, List.headD_cons]; decide, rfl⟩

theorem crc16 (ch : Byte) (seed : Half) (d : List Byte) : Statement (.crc16 ch seed d) := by
  refine ⟨⟨.crc16, 0x30, 0xFF, .K⟩, by decide, rfl, by simp only [encode, List.headD_cons]; decide, ?_⟩
  simp [encode, le16, Format.fixedLength, Instr.dataLength]
  omega

theorem fpProcess (ch : Byte) : Statement (.fpProcess ch) :=
  ⟨⟨.fpProcess, 0x40, 0xFF, .Z⟩, by decide, rfl, by simp only [encode, List.headD_cons]; decide, rfl⟩

theorem chInit (ch : Byte) : Statement (.chInit ch) :=
  ⟨⟨.chInit, 0x50, 0xFF, .Z⟩, by decide, rfl, by simp only [encode, List.headD_cons]; decide, rfl⟩

theorem rxByte (ch : Byte) (b : Byte) : Statement (.rxByte ch b) :=
  ⟨⟨.rxByte, 0x51, 0xFF, .B⟩, by decide, rfl, by simp only [encode, List.headD_cons]; decide, rfl⟩

theorem pump (ch : Byte) (k : Half) : Statement (.pump ch k) :=
  ⟨⟨.pump, 0x52, 0xFF, .N⟩, by decide, rfl, by simp only [encode, List.headD_cons]; decide, rfl⟩

end Sys2Proof.Laws.RequestShape
end

