-- ==== Sys2Proof/Laws/Pseudo.lean ====
section
/-! SUPPORT. Sequences of operations (R74): a sequence is run piece by piece. -/

namespace Sys2Proof.Machine

theorem runResults_append (is js : List Instr) (s : State) :
    runResults (is ++ js) s =
      (runResults is s).bind fun r => (runResults js r.2).map fun q => (r.1 ++ q.1, q.2) := by
  induction is generalizing s with
  | nil => simp [runResults]
  | cons i rest ih =>
    simp only [List.cons_append, runResults]
    cases exec i s with
    | next t =>
      simp only [ih]
      cases runResults rest t <;> simp [Option.map_map, Function.comp_def]
    | fault => rfl
    | refused => rfl

theorem execList_append (is js : List Instr) (s : State) :
    execList (is ++ js) s =
      match execList is s with
      | .next t => execList js t
      | .fault r => .fault r
      | .refused r => .refused r := by
  induction is generalizing s with
  | nil => rfl
  | cons i rest ih =>
    simp only [List.cons_append, execList]
    cases exec i s with
    | next t => exact ih t
    | fault => rfl
    | refused => rfl

end Sys2Proof.Machine
end

