-- ==== Sys2Proof/Machine/Ports.lean ====
section
/-! DEFINITION. Ports and agents (`20_memory.md` R46, R47): which port carries an operation and which
agents issue it.  The block checks neither (R173): the request encoding names no port, and an
operation issued on the wrong port is performed like any other, so no meaning reads these tables (log
entry 14).
They say what the role discipline of R192 is about. -/

namespace Sys2Proof.Machine

/-- The ports of R46: of each FIFO, of the timer, of the channel, and of the checksum unit. -/
inductive Port
  /-- `W` of a FIFO: the producer. -/
  | write (f : FifoSel)
  /-- `R` of a FIFO: the consumer. -/
  | read (f : FifoSel)
  /-- `K` of a FIFO: control. -/
  | control (f : FifoSel)
  /-- `K` of `TMR`. -/
  | timerControl
  /-- `EV`: peripheral and timer events. -/
  | event
  /-- `P`: the frame-processing context. -/
  | process
  /-- `X` of `CRC`. -/
  | checksum
deriving DecidableEq, Repr

/-- The agents of R47. -/
inductive Agent
  | source
  | sink
  | proc
  | clock
  | control
  | client
deriving DecidableEq, Repr

/-- The ports that carry an operation (R46); `SIZE` is accepted on every port of its FIFO (R88). -/
def portsOf : Instr → List Port
  | .fifoInit f _ => [.control f]
  | .fifoReset f _ => [.control f]
  | .fifoSetOvw f _ _ => [.control f]
  | .put f _ _ => [.write f]
  | .putSpan f _ _ => [.write f]
  | .get f _ => [.read f]
  | .peek f _ => [.read f]
  | .getSpan f _ _ => [.read f]
  | .size f _ => [.write f, .read f, .control f]
  | .tmrInit _ => [.timerControl]
  | .tmrArm _ _ => [.timerControl]
  | .tmrCancel _ => [.timerControl]
  | .tick _ => [.event]
  | .crc16 _ _ _ => [.checksum]
  | .fpProcess _ => [.process]
  | .chInit _ => [.process]
  | .rxByte _ _ => [.event]
  | .pump _ _ => [.event]

/-- The agents that issue an operation (R47): `Control` the `K` operations and `CH_INIT`, `Client` the
raw `W` and `R` operations and `CRC16`. -/
def agentsOf : Instr → List Agent
  | .fifoInit _ _ => [.control]
  | .fifoReset _ _ => [.control]
  | .fifoSetOvw _ _ _ => [.control]
  | .put _ _ _ => [.client]
  | .putSpan _ _ _ => [.client]
  | .get _ _ => [.client]
  | .peek _ _ => [.client]
  | .getSpan _ _ _ => [.client]
  | .size _ _ => [.control, .client]
  | .tmrInit _ => [.control]
  | .tmrArm _ _ => [.control]
  | .tmrCancel _ => [.control]
  | .tick _ => [.clock]
  | .crc16 _ _ _ => [.client]
  | .fpProcess _ => [.proc]
  | .chInit _ => [.control]
  | .rxByte _ _ => [.source]
  | .pump _ _ => [.sink, .proc]

end Sys2Proof.Machine
end

