-- ==== Sys2Proof/Tests/Slice0.lean ====
section
/-! SUPPORT. Small tests: the spec's own encodings and vectors, each about one request or one step, the
refusals of the well-formedness checks, and for every statement with hypotheses a state and operands
that meet them all. -/

namespace Sys2Proof.Tests

set_option Elab.async false

open Sys2Proof Sys2Proof.Machine

/-! ### Helpers: small states -/

/-- The fixture table of `95_test_vectors.md`. -/
def ping : TableEntry := ⟨⟨0x70, 0x69, 0x6E, 0x67⟩, 0, 0⟩
def echo : TableEntry := ⟨⟨0x65, 0x63, 0x68, 0x6F⟩, 4, 1⟩
def sum2 : TableEntry := ⟨⟨0x73, 0x75, 0x6D, 0x32⟩, 2, 2⟩
def fixture : List TableEntry := [ping, echo, sum2]

/-- A storage with the given bytes from index 0 on. -/
def stored : Nat → List Byte → Memory
  | _, [] => []
  | a, b :: rest => (stored (a + 1) rest).write a b

/-- An initialised Ring Buffer. -/
def ring (bytes : List Byte) (length putIndex getIndex : Nat) (policy : Bool) : Fifo :=
  ⟨stored 0 bytes, length, putIndex, getIndex, policy, true⟩

/-- An initialised Ring Buffer with the given bytes queued from index 0 on. -/
def queued (bytes : List Byte) : Fifo := ring bytes bytes.length bytes.length 0 false

def idle : Timer := ⟨false, 0x800003E8, true⟩
def pending (deadline : Time) : Timer := ⟨true, deadline, true⟩

/-- A channel with the fixture's table, nothing on the wire, no answer ready and no call made. -/
def chan (rxf txf : Fifo) (tmr : Timer) : Channel := ⟨⟨fixture, true⟩, rxf, txf, tmr, [], ⟨[], []⟩⟩

/-- The same channel, the application having the given answers ready. -/
def answering (answers : List (List Byte)) (c : Channel) : Channel := { c with app := ⟨answers, []⟩ }

/-- A channel that has just been brought up. -/
def fresh : Channel := chan (queued []) (queued []) idle

/-- A channel of which nothing is initialised. -/
def down : Channel := Channel.powerOn ⟨fixture, true⟩ []

/-- A block with the given capacity, time and channels, no request issued. -/
def board (cap : Nat) (now : Time) (chans : List Channel) : State :=
  { State.powerOn Config.default [] now [] with
    cfg := { Config.default with capacity := cap }, chans := chans }

/-- The same block, halted with `AssertUninit`. -/
def haltedBoard (chans : List Channel) : State := { board 4 101 chans with halted := true }

/-- What `p` sees after the next step on request `r`. -/
def after {α : Type} (s : State) (r : List Byte) (p : State → α) : Option α :=
  (nextOf (step (s.withRequest r))).map p

/-- The result bytes. -/
def shown (s : State) : Option (List Byte) := s.result.map resultBytes

def rx0 (s : State) : Option Fifo := s.chans[0]?.map Channel.rxf
def tx0 (s : State) : Option Fifo := s.chans[0]?.map Channel.txf
def tmr0 (s : State) : Option Timer := s.chans[0]?.map Channel.tmr
def calls0 (s : State) : Option (List HandlerCall) := s.chans[0]?.map fun c => c.app.calls
def wire0 (s : State) : Option (List Byte) := s.chans[0]?.map Channel.wireOut

theorem next_of_isSome {o : Outcome} (h : (nextOf o).isSome = true) : ∃ t, o = .next t := by
  cases o with
  | next t => exact ⟨t, rfl⟩
  | fault r => cases h
  | refused r => cases h

theorem next_of_map {α : Type} {o : Outcome} {p : State → α} {x : α}
    (h : (nextOf o).map p = some x) : ∃ t, o = .next t ∧ p t = x := by
  cases o with
  | next t => exact ⟨t, rfl, Option.some.inj h⟩
  | fault r => cases h
  | refused r => cases h

theorem chan_of_isSome {o : Outcome} {k : Nat}
    (h : ((nextOf o).bind fun t => t.chans[k]?).isSome = true) :
    ∃ t d, o = .next t ∧ t.chans[k]? = some d := by
  cases o with
  | next t => exact ⟨t, _, rfl, (Option.some_get h).symm⟩
  | fault r => cases h
  | refused r => cases h

/-! ### Well-formedness (R67: the count of a span is 16 bits) -/

theorem test_wf_putSpan_too_long :
    (Instr.putSpan .rx 0 (List.replicate 65536 0)).WellFormed = false := by
  rw [Instr.WellFormed, spanFits, List.length_replicate]; decide

theorem test_wf_crc16_too_long :
    (Instr.crc16 0 0 (List.replicate 65536 0)).WellFormed = false := by
  rw [Instr.WellFormed, spanFits, List.length_replicate]; decide

theorem test_wf_putSpan_longest :
    (Instr.putSpan .tx 0 (List.replicate 65535 0)).WellFormed = true := by
  rw [Instr.WellFormed, spanFits, List.length_replicate]; decide

/-! ### Decoding: one word per operation, written out from R67 and R69
(byte 0: `000f` and the function in the FIFO group; bit 4 is `f`) -/

theorem test_decode_fifoInit : decode [0b00010000, 0x02] = .request (.fifoInit .tx 2) := by decide
theorem test_decode_fifoReset : decode [0b00000001, 0x00] = .request (.fifoReset .rx 0) := by decide
theorem test_decode_fifoSetOvw :
    decode [0b00010010, 0x00, 0x01] = .request (.fifoSetOvw .tx 0 1) := by decide
theorem test_decode_put : decode [0b00010011, 0x00, 0x41] = .request (.put .tx 0 0x41) := by decide
theorem test_decode_putSpan :
    decode [0b00000100, 0x00, 0x02, 0x00, 0x43, 0x44] = .request (.putSpan .rx 0 [0x43, 0x44]) := by
  decide
theorem test_decode_get : decode [0b00000101, 0x01] = .request (.get .rx 1) := by decide
theorem test_decode_peek : decode [0b00010110, 0x00] = .request (.peek .tx 0) := by decide
theorem test_decode_getSpan :
    decode [0b00010111, 0x00, 0x2C, 0x01] = .request (.getSpan .tx 0 300) := by decide
theorem test_decode_size : decode [0b00001000, 0xFF] = .request (.size .rx 255) := by decide
theorem test_decode_tmrInit : decode [0b00100000, 0x00] = .request (.tmrInit 0) := by decide
theorem test_decode_tmrArm :
    decode [0b00100001, 0x00, 0xD0, 0x07, 0x00, 0x80] = .request (.tmrArm 0 0x800007D0) := by decide
theorem test_decode_tmrCancel : decode [0b00100010, 0x00] = .request (.tmrCancel 0) := by decide
theorem test_decode_tick : decode [0b00100011, 0x09] = .request (.tick 9) := by decide
theorem test_decode_crc16 :
    decode [0b00110000, 0x07, 0x34, 0x12, 0x01, 0x00, 0xAB] = .request (.crc16 7 0x1234 [0xAB]) := by
  decide
theorem test_decode_fpProcess : decode [0b01000000, 0x00] = .request (.fpProcess 0) := by decide
theorem test_decode_chInit : decode [0b01010000, 0x01] = .request (.chInit 1) := by decide
theorem test_decode_rxByte : decode [0b01010001, 0x00, 0x70] = .request (.rxByte 0 0x70) := by decide
theorem test_decode_pump : decode [0b01010010, 0x00, 0xFF, 0x00] = .request (.pump 0 255) := by decide

/-- R70: reserved opcodes, and byte sequences that are no request. -/
theorem test_decode_rejects :
    decode [0x09, 0x00] = .reservedOpcode 0x09 ∧ decode [0x6F, 0x05] = .reservedOpcode 0x6F ∧
      decode [0x03, 0x00] = .malformed ∧ decode [0x05, 0x00, 0x00] = .malformed ∧
      decode [0x04, 0x00, 0x02, 0x00, 0x43] = .malformed ∧ decode [0x05] = .malformed ∧
      decode [] = .malformed := by
  decide

/-- No byte 0 belongs to two rows of the opcode map. -/
theorem test_opcode_rows_disjoint :
    opcodeMap.Pairwise fun a b => ∀ k < 256,
      ¬ (BitVec.ofNat 8 k &&& a.mask = a.pat ∧ BitVec.ofNat 8 k &&& b.mask = b.pat) := by
  decide +kernel

/-- Table words: byte 0 is the low byte; operand bytes the word does not give are zeros. -/
theorem test_table_words :
    decodeTableWord 24 0x410013 = some (.put .tx 0 0x41) ∧
      decodeTableWord 16 0x0021 = some (.tmrArm 0 0) ∧
      decodeTableWord 32 0x00010004 = some (.putSpan .rx 0 [0x00]) ∧
      decodeTableWord 8 0x50 = some (.chInit 0) ∧ decodeTableWord 8 0x30 = some (.crc16 0 0 []) ∧
      decodeTableWord 16 0x0009 = none := by
  decide

/-- The first operation after reset: `CH_INIT` from a table word (R185, R145, vector E1). -/
theorem test_first_operation :
    (nextOf (step (State.reset.withFetchWord 16 0x0050))).map shown = some (some [0x00]) := by
  decide +kernel

/-! ### One step per test: the vectors of `95_test_vectors.md`, with the same numbers -/

/-- F2. -/
theorem test_put_wraps :
    after (board 4 0 [chan (ring [0x41, 0x42, 0x43] 2 3 1 false) Fifo.powerOn idle])
      [0x03, 0x00, 0x44] (fun t => (shown t, rx0 t)) =
      some (some [0x00], some (ring [0x41, 0x42, 0x43, 0x44] 3 0 1 false)) := by decide +kernel

/-- F5. -/
theorem test_put_overwrites :
    after (board 4 0 [chan (ring [0x45, 0x42, 0x43, 0x44] 4 1 1 true) Fifo.powerOn idle])
      [0x03, 0x00, 0x46] (fun t => (shown t, rx0 t)) =
      some (some [0x00], some (ring [0x45, 0x46, 0x43, 0x44] 4 2 2 true)) := by decide +kernel

/-- F9. -/
theorem test_putSpan_longer_than_capacity :
    after (board 4 0 [chan (ring [0x45, 0x46, 0x43, 0x44] 1 2 1 true) Fifo.powerOn idle])
      [0x04, 0x00, 0x06, 0x00, 0x61, 0x62, 0x63, 0x64, 0x65, 0x66] (fun t => (shown t, rx0 t)) =
      some (some [0x00], some (ring [0x63, 0x64, 0x65, 0x66] 4 0 0 true)) := by decide +kernel

/-- F10. -/
theorem test_putSpan_all_or_nothing :
    after (board 4 0 [chan (ring [0x41, 0x42] 2 2 0 false) Fifo.powerOn idle])
      [0x04, 0x00, 0x03, 0x00, 0x43, 0x44, 0x45] (fun t => (shown t, rx0 t)) =
      some (some [0x01], some (ring [0x41, 0x42] 2 2 0 false)) := by decide +kernel

/-- P1 step 3. -/
theorem test_get_oldest :
    after (board 4 0 [chan (ring [0x41, 0x42, 0x43] 3 3 0 false) Fifo.powerOn idle])
      [0x05, 0x00] (fun t => (shown t, rx0 t)) =
      some (some [0x00, 0x41], some (ring [0x41, 0x42, 0x43] 2 3 1 false)) := by decide +kernel

/-- F22. -/
theorem test_get_before_init :
    after (board 4 0 [down]) [0x05, 0x00] (fun t => (shown t, t.halted, t.faultCode)) =
      some (some [0x02, 0x01], true, .assertUninit) := by decide +kernel

/-- F6. -/
theorem test_peek_oldest :
    after (board 4 0 [chan (ring [0x45, 0x46, 0x43, 0x44] 4 2 2 false) Fifo.powerOn idle])
      [0x06, 0x00] (fun t => (shown t, rx0 t)) =
      some (some [0x00, 0x43], some (ring [0x45, 0x46, 0x43, 0x44] 4 2 2 false)) := by decide +kernel

/-- F8. -/
theorem test_getSpan_wraps :
    after (board 4 0 [chan (ring [0x45, 0x46, 0x43, 0x44] 4 2 2 false) Fifo.powerOn idle])
      [0x07, 0x00, 0x03, 0x00] (fun t => (shown t, rx0 t)) =
      some (some [0x00, 0x43, 0x44, 0x45], some (ring [0x45, 0x46, 0x43, 0x44] 1 2 1 false)) := by
  decide +kernel

/-- F7. -/
theorem test_getSpan_too_many :
    after (board 4 0 [chan (ring [0x45, 0x46, 0x43, 0x44] 4 2 2 false) Fifo.powerOn idle])
      [0x07, 0x00, 0x05, 0x00] shown = some (some [0x01]) := by decide +kernel

/-- F17. -/
theorem test_reset_keeps_storage :
    after (board 4 0 [chan (ring [0x41, 0x42, 0x43, 0x44] 3 0 1 true) Fifo.powerOn idle])
      [0x01, 0x00] (fun t => (shown t, rx0 t)) =
      some (some [0x00], some (ring [0x41, 0x42, 0x43, 0x44] 0 0 0 false)) := by decide +kernel

/-- F18. -/
theorem test_init_zeroes_storage :
    after (board 4 0 [chan (ring [0x41, 0x42, 0x43, 0x44] 3 0 1 true) Fifo.powerOn idle])
      [0x00, 0x00] (fun t => (shown t, rx0 t)) =
      some (some [0x00], some (ring [0x00, 0x00, 0x00, 0x00] 0 0 0 false)) := by decide +kernel

/-- F4 and F23: the policy flag, and the reserved operand before the initialisation. -/
theorem test_setOvw :
    after (board 4 0 [chan (ring [0x45] 4 1 1 false) Fifo.powerOn idle])
      [0x02, 0x00, 0x01] (fun t => (shown t, rx0 t)) =
      some (some [0x00], some (ring [0x45] 4 1 1 true)) ∧
    after (board 4 0 [down]) [0x02, 0x00, 0x02] (fun t => (shown t, t.halted)) =
      some (some [0x02, 0x06], true) := by decide +kernel

/-- F19. -/
theorem test_size :
    after (board 4 0 [chan (ring [] 3 3 0 false) Fifo.powerOn idle]) [0x08, 0x00] shown =
      some (some [0x00, 0x03, 0x00]) := by decide +kernel

/-- The start of section 2.3, and T25. -/
theorem test_tmrInit :
    after (board 4 1000 [down]) [0x20, 0x00] (fun t => (shown t, tmr0 t)) =
      some (some [0x00], some ⟨false, 0x800003E8, true⟩) ∧
    after (board 4 1000 [Channel.powerOn ⟨[], false⟩ []]) [0x20, 0x00]
      (fun t => (shown t, t.halted, (tmr0 t).map Timer.engaged)) =
      some (some [0x02, 0x03], true, some false) := by decide +kernel

/-- T20. -/
theorem test_tmrArm_wraps :
    after (board 4 0xFFFFFF00 [fresh]) [0x21, 0x00, 0xD0, 0x07, 0x00, 0x00]
      (fun t => (shown t, tmr0 t)) = some (some [0x00], some ⟨true, 0x000006D0, true⟩) := by
  decide +kernel

/-- T17. -/
theorem test_tmrArm_reserved_delay :
    after (board 4 0 [down]) [0x21, 0x00, 0x00, 0x00, 0x00, 0x80] (fun t => (shown t, tmr0 t)) =
      some (some [0x02, 0x06], some Timer.powerOn) := by decide +kernel

/-- T21. -/
theorem test_tmrCancel :
    after (board 4 5000 [chan (queued []) (queued []) (pending 5001)]) [0x22, 0x00]
      (fun t => (shown t, tmr0 t)) = some (some [0x00], some ⟨false, 0x80001388, true⟩) := by
  decide +kernel

/-- T7. -/
theorem test_tick_fires :
    after (board 4 1004 [chan (queued [0x01, 0x02]) (queued []) (pending 0x3ED)]) [0x23, 0x00]
      (fun t => (shown t, t.now, tmr0 t, rx0 t)) =
      some (some [0x00, 0x01], 1005, some ⟨false, 0x3ED, true⟩,
        some (ring [0x01, 0x02] 0 0 0 false)) := by decide +kernel

/-- T23: `FIRE` on an uninitialised `RXF`; `now` stays advanced. -/
theorem test_tick_faults :
    after (board 4 50 [chan Fifo.powerOn (queued []) (pending 50)]) [0x23, 0x00]
      (fun t => (shown t, t.now, t.halted, tmr0 t)) =
      some (some [0x02, 0x01], 51, true, some (pending 50)) := by decide +kernel

/-- K9. -/
theorem test_crc16_ping :
    after State.reset [0x30, 0x00, 0xFF, 0xFF, 0x04, 0x00, 0x70, 0x69, 0x6E, 0x67] shown =
      some (some [0x00, 0xA7, 0x72]) := by decide +kernel

/-- K2. -/
theorem test_crc16_empty :
    after State.reset [0x30, 0x07, 0x34, 0x12, 0x00, 0x00] shown = some (some [0x00, 0x34, 0x12]) := by
  decide +kernel

/-- X9 with the fixture's answer to `ping`: exactly the frame is consumed, and the response queued. -/
theorem test_fpProcess_dispatch :
    after (board 16 0 [answering [[]]
        (chan (queued [0x70, 0x69, 0x6E, 0x67, 0xA7, 0x72, 0x65]) (queued []) idle)])
      [0x40, 0x00] (fun t => (shown t, (rx0 t).map (Fifo.contents 16), (tx0 t).map (Fifo.contents 16),
        calls0 t)) =
      some (some [0x00, 0x01], some [0x65], some [0x70, 0x69, 0x6E, 0x67, 0xA7, 0x72],
        some [⟨0, ping.tag, [], []⟩]) := by decide +kernel

/-- X10: checksum bytes swapped. -/
theorem test_fpProcess_discard :
    after (board 16 0
        [chan (queued [0x73, 0x75, 0x6D, 0x32, 0x10, 0x20, 0xA8, 0x37]) (queued []) idle])
      [0x40, 0x00] (fun t => (shown t, (rx0 t).map (Fifo.contents 16), tx0 t, calls0 t)) =
      some (some [0x00, 0x02], some [], some (queued []), some []) := by decide +kernel

/-- E10 and E9: the frame that just fits `C`, and one byte more. -/
theorem test_chInit_table :
    after (board 10 1000 [down]) [0x50, 0x00] (fun t => (shown t, t.chans)) =
      some (some [0x00], [fresh]) ∧
    after (board 9 1000 [down]) [0x50, 0x00] (fun t => (shown t, t.faultCode, t.chans)) =
      some (some [0x02, 0x04], .configFrameTooLong, [down]) := by decide +kernel

/-- E11: the Ring Buffers stay initialised. -/
theorem test_chInit_no_slot :
    after (board 16 5 [Channel.powerOn ⟨[], false⟩ []]) [0x50, 0x00]
      (fun t => (shown t, rx0 t, tx0 t, (tmr0 t).map Timer.engaged)) =
      some (some [0x02, 0x03], some (queued []), some (queued []), some false) := by decide +kernel

/-- E2. -/
theorem test_rxByte_arms :
    after (board 4 4000 [fresh]) [0x51, 0x00, 0x70] (fun t => (shown t, rx0 t, tmr0 t)) =
      some (some [0x00], some (queued [0x70]), some ⟨true, 0x1770, true⟩) := by decide +kernel

/-- E3 with `C` = 4: the dropped byte still arms. -/
theorem test_rxByte_dropped_byte_arms :
    after (board 4 10 [chan (ring [1, 2, 3, 4] 4 0 0 false) (queued []) idle]) [0x51, 0x00, 0x07]
      (fun t => (shown t, rx0 t, tmr0 t)) =
      some (some [0x01], some (ring [1, 2, 3, 4] 4 0 0 false), some ⟨true, 0x7DA, true⟩) := by
  decide +kernel

/-- E5. -/
theorem test_pump_partial :
    after (board 16 0 [chan (queued []) (queued [0x70, 0x69, 0x6E, 0x67, 0xA7, 0x72]) idle])
      [0x52, 0x00, 0x04, 0x00] (fun t => (shown t, wire0 t, (tx0 t).map (Fifo.contents 16))) =
      some (some [0x00, 0x04, 0x00], some [0x70, 0x69, 0x6E, 0x67], some [0xA7, 0x72]) := by
  decide +kernel

/-- E6. -/
theorem test_pump_more_than_queued :
    after (board 16 0 [chan (queued []) (queued [0xA7, 0x72]) idle])
      [0x52, 0x00, 0x08, 0x00] (fun t => (shown t, wire0 t, (tx0 t).map Fifo.length)) =
      some (some [0x00, 0x02, 0x00], some [0xA7, 0x72], some 0) := by decide +kernel

/-! ### Witnesses: states and operands that meet the hypotheses of the statements -/

/-- A channel whose `RXF` has the given length out of 4 and policy, from index 1 on. -/
def filled (length : Nat) (policy : Bool) : Channel :=
  chan (ring [0x45, 0x42, 0x43, 0x44] length ((1 + length) % 4) 1 policy)
    (ring [0x45, 0x42, 0x43, 0x44] length ((1 + length) % 4) 1 policy) idle

theorem test_witness_DecodeOfEncode :
    (Instr.putSpan .rx 0 (List.replicate 65535 0)).WellFormed = true ∧
      (Instr.crc16 0 0xFFFF []).WellFormed = true := by
  simp only [Instr.WellFormed, spanFits, List.length_replicate, List.length_nil]; decide

theorem test_witness_EncodeOfDecode :
    decode [0x17, 0xFF, 0xFF, 0xFF] = .request (.getSpan .tx 255 65535) ∧
      decode [0x04, 0x00, 0x00, 0x00] = .request (.putSpan .rx 0 []) := by decide

/-- Each clause of `ReservedEncodings`: the ends of the reserved ranges, a request with a reserved
opcode, byte sequences that are no request, the least and the greatest reserved operands. -/
theorem test_witness_ReservedEncodings_opcodes :
    (∀ op ∈ [0x09, 0x0F, 0x19, 0x1F, 0x24, 0x2F, 0x31, 0x3F, 0x41, 0x4F, 0x53, 0x5F, 0x60, 0xFF],
        decode (op :: 0x00 :: []) = .reservedOpcode op) ∧
      (∀ op ∈ [0x08, 0x10, 0x18, 0x20, 0x23, 0x30, 0x40, 0x50, 0x52],
        decode (op :: 0x00 :: []) ≠ .reservedOpcode op) ∧
      (board 4 0 [down]).tablesLegal = true ∧ (board 4 0 [down]).halted = false ∧
      ((board 4 0 [down]).withRequest [0x09, 0x00]).requests = [0x09, 0x00] :: [] := by
  decide +kernel

/-- The empty sequence, a request without its operand, and a span of 65536 bytes, whose count would be 0:
the words of an operation that is not well-formed. -/
theorem test_witness_ReservedEncodings_malformed :
    (∀ i : Instr, i.WellFormed = true → encode i ≠ []) ∧ (∀ op, decode [] ≠ .reservedOpcode op) ∧
      (∀ i : Instr, i.WellFormed = true → encode i ≠ [0x03, 0x00]) ∧
      (∀ op, decode [0x03, 0x00] ≠ .reservedOpcode op) := by
  refine ⟨fun i _ => ?_, fun op => by simp [decode], fun i hi => ?_, fun op => by
    rw [show decode [0x03, 0x00] = .malformed by decide]; simp⟩
  · cases i <;> simp [encode]
  · clear hi
    cases i <;> simp [encode, le16, le32, fifoOpcode] <;>
      (rename_i f _; cases f <;> simp)

theorem test_witness_ReservedEncodings_span_too_long :
    encode (.putSpan .rx 0 (List.replicate 65536 0)) = 0x04 :: 0x00 :: 0x00 :: 0x00 :: List.replicate 65536 0 ∧
      (∀ i : Instr, i.WellFormed = true →
        encode i ≠ 0x04 :: 0x00 :: 0x00 :: 0x00 :: List.replicate 65536 0) ∧
      ∀ op, decode (0x04 :: 0x00 :: 0x00 :: 0x00 :: List.replicate 65536 0) ≠ .reservedOpcode op := by
  refine ⟨?_, fun i hi h => ?_, fun op h => ?_⟩
  · rw [encode, spanCount, List.length_replicate]; rfl
  · have hl := congrArg List.length h
    simp only [List.length_cons, List.length_replicate] at hl
    cases i with
    | putSpan f ch d =>
      simp only [Instr.WellFormed, spanFits, decide_eq_true_eq] at hi
      simp [encode, le16] at hl
      omega
    | crc16 ch seed d => cases (List.cons.inj h).1
    | _ => simp [encode, le16, le32] at hl
  · simp only [decode, show rowOf 0x04 = some ⟨.putSpan, 0x04, 0xEF, .S⟩ by decide] at h
    split at h <;> cases h

theorem test_witness_ReservedEncodings_operands :
    (board 4 0 [down]).ready 0 down ∧ 1 < (0x02 : Byte).toNat ∧ 1 < (0xFF : Byte).toNat ∧
      2 ^ 31 ≤ (0x80000000 : Time).toNat ∧ 2 ^ 31 ≤ (0xFFFFFFFF : Time).toNat := by
  unfold State.ready; decide +kernel

theorem test_witness_StepPerformsTheNextRequest :
    State.reset.tablesLegal = true ∧ State.reset.requests = [] ∧
      (State.reset.withRequest [0x23, 0x00]).tablesLegal = true ∧
      (State.reset.withRequest [0x23, 0x00]).requests = [0x23, 0x00] :: [] ∧
      decode [0x23, 0x00] = .request (.tick 0) := by decide +kernel

theorem test_witness_PowerOnMeetsTheInvariants :
    0 < ({ Config.default with capacity := 1, idleDelay := 0x7FFFFFFF } : Config).capacity ∧
      ({ Config.default with capacity := 1, idleDelay := 0x7FFFFFFF } : Config).idleDelay.toNat <
        2 ^ 31 ∧
      ∀ c ∈ [(ChannelConfig.mk fixture false, [[0x30]]), (ChannelConfig.mk [] true, [])],
        (c.1.table.map TableEntry.tag).Nodup := by decide +kernel

/-- An answer, a status failure, a fault, and a halted block. -/
theorem test_witness_EveryOperationAnswersInItsForm :
    (∃ t, exec (.pump 0 65535) (board 4 0 [fresh]) = .next t) ∧
      (nextOf (exec (.get .rx 0) (board 4 0 [fresh]))).map State.result = some (some .fail) ∧
      (nextOf (exec (.get .rx 1) (board 4 0 [fresh]))).map State.result =
        some (some (.fault .assertBadChannel)) ∧
      (nextOf (exec (.get .rx 1) (haltedBoard [fresh]))).map State.result =
        some (some (.fault .assertUninit)) :=
  ⟨next_of_isSome (by decide +kernel), by decide +kernel, by decide +kernel, by decide +kernel⟩

theorem test_witness_ResultBytes : 65535 < 65536 := by decide

/-- A state with a full Ring Buffer, a pending deadline, and an operation issued. -/
def busy : State := (board 4 1000 [filled 4 true, chan (queued [1]) (queued []) (pending 1001)]).withRequest
  [0x23, 0x00]

/-- For `StepKeepsTheRingInvariants`, `StepKeepsDeadlinesAhead` and `ConfigurationNeverChanges`. -/
theorem test_witness_StepKeepsTheInvariants :
    busy.wf = true ∧ busy.deadlinesAhead = true ∧ ∃ t, step busy = .next t :=
  ⟨by decide +kernel, by decide +kernel, next_of_isSome (by decide +kernel)⟩

/-- Halted, with each kind of request: `TICK`, another operation, a reserved opcode, none. -/
theorem test_witness_HaltIsFinal :
    (haltedBoard [fresh]).halted = true ∧
      (∃ t, step ((haltedBoard [fresh]).withRequest [0x23, 0x00]) = .next t) ∧
      (∃ t, step ((haltedBoard [fresh]).withRequest [0x50, 0x00]) = .next t) ∧
      (∃ t, step ((haltedBoard [fresh]).withRequest [0x09, 0x00]) = .next t) ∧
      ∃ t, step (haltedBoard [fresh]) = .next t :=
  ⟨rfl, next_of_isSome (by decide +kernel), next_of_isSome (by decide +kernel),
    next_of_isSome (by decide +kernel), next_of_isSome (by decide +kernel)⟩

theorem test_witness_HaltedBlockAnswersFault :
    (haltedBoard [fresh]).halted = true ∧ ∀ ch, Instr.crc16 0 0 [] ≠ .tick ch := by
  refine ⟨rfl, fun ch => ?_⟩
  simp

theorem test_witness_UnitsStayInitialised :
    (∃ t d, step (busy.withRequest [0x00, 0x00]) = .next t ∧ t.chans[0]? = some d) ∧
      (busy.withRequest [0x00, 0x00]).chans[0]? = some (filled 4 true) ∧
      (filled 4 true).rxf.inited = true ∧ (filled 4 true).txf.inited = true ∧
      (filled 4 true).tmr.engaged = true :=
  ⟨chan_of_isSome (by decide +kernel), by decide +kernel, rfl, rfl, rfl⟩

theorem test_witness_WireOutOnlyGrows :
    (∃ t d, exec (.pump 0 2) busy = .next t ∧ t.chans[0]? = some d) ∧
      (∃ t d, exec (.pump 0 2) busy = .next t ∧ t.chans[1]? = some d) ∧
      busy.chans[0]? = some (filled 4 true) ∧ busy.chans[1]?.isSome = true ∧
      ∀ (ch : Byte) (room : Half), Instr.pump 0 2 = .pump ch room → ch.toNat ≠ 1 :=
  ⟨chan_of_isSome (by decide +kernel), chan_of_isSome (by decide +kernel), by decide +kernel,
    by decide +kernel, fun ch room h => by cases h; decide⟩

theorem test_witness_OnlyTickMovesNow :
    (∃ t, exec (.tick 0) (board 4 0xFFFFFFFF [fresh]) = .next t) ∧
      (∃ t, exec (.size .rx 0) (board 4 0xFFFFFFFF [fresh]) = .next t) ∧
      ∀ ch, Instr.size .rx 0 ≠ .tick ch :=
  ⟨next_of_isSome (by decide +kernel), next_of_isSome (by decide +kernel), fun ch => by simp⟩

theorem test_witness_StorageWritesOneByte :
    Memory.wf (stored 0 [0x45, 0x00, 0x43, 0x44]) = true ∧
      Memory.below 4 (stored 0 [0x45, 0x00, 0x43, 0x44]) = true ∧ 3 < 4 ∧
      (∀ a, (stored 0 [0x45, 0x00]).read a = (stored 0 [0x45]).read a) := by
  refine ⟨by decide +kernel, by decide +kernel, by decide, fun a => ?_⟩
  rw [show stored 0 [0x45, 0x00] = stored 0 [0x45] by decide +kernel]

/-- The premises the Ring Buffer statements share, for `RXF` and `TXF`, at every length that matters
(0, 1, `C` - 1 and `C`) under both policies; and a Ring Buffer that is not initialised; a channel that
does not exist (the first index past the last); a halted block.  The last is the witness of the checks
that come first in every statement.  These are the premises of `FifoInitZeroesAndEmpties`,
`FifoResetKeepsStorage`, `PutStoresOrFails`, `GetRemovesTheOldest` and `SizeReturnsTheLength`; the
statements after them have witnesses of their own. -/
theorem test_witness_ring_premises :
    (∀ n ∈ [0, 1, 3, 4], ∀ policy ∈ [false, true], ∀ f ∈ [FifoSel.rx, FifoSel.tx],
      (board 4 0 [filled n policy]).ready 0 (filled n policy) ∧
        ((filled n policy).fifo f).inited = true ∧ ((filled n policy).fifo f).wf 4 = true ∧
        ((filled n policy).fifo f).length = n ∧
        ((filled n policy).fifo f).allowOverwrite = policy) ∧
      (∀ f ∈ [FifoSel.rx, FifoSel.tx],
        (board 4 0 [down]).ready 0 down ∧ (down.fifo f).inited = false) ∧
      (haltedBoard [fresh]).halted = true ∧
      (board 4 0 [fresh]).halted = false ∧ (board 4 0 [fresh]).chans.length ≤ (1 : Byte).toNat := by
  unfold State.ready; decide +kernel

theorem test_witness_FifoInitZeroesAndEmpties :
    ∃ t, exec (.fifoInit .rx 0) (board 4 0 [filled 4 true]) = .next t :=
  next_of_isSome (by decide +kernel)

theorem test_witness_FifoSetOvwWritesThePolicy :
    1 < (2 : Byte).toNat ∧ (0 : Byte).toNat ≤ 1 ∧ (1 : Byte).toNat ≤ 1 ∧
      (board 4 0 [filled 4 false]).ready 0 (filled 4 false) ∧
      ((filled 4 false).fifo .rx).inited = true ∧ (down.fifo .rx).inited = false := by
  unfold State.ready; decide +kernel

/-- The exact fit, one byte more under each policy, and the empty span. -/
theorem test_witness_PutSpanIsAllOrNothing :
    (board 4 0 [filled 3 false]).ready 0 (filled 3 false) ∧
      (board 4 0 [filled 3 true]).ready 0 (filled 3 true) ∧
      ((filled 3 false).fifo .rx).inited = true ∧ ((filled 3 true).fifo .rx).inited = true ∧
      ((filled 3 false).fifo .rx).wf 4 = true ∧ ((filled 3 true).fifo .rx).wf 4 = true ∧
      ((filled 3 false).fifo .rx).length + ([0x01] : List Byte).length ≤ 4 ∧
      ((filled 3 false).fifo .rx).allowOverwrite = false ∧
      4 < ((filled 3 false).fifo .rx).length + ([0x01, 0x02] : List Byte).length ∧
      ((filled 3 true).fifo .rx).allowOverwrite = true ∧ ([] : List Byte).length < 65536 := by
  unfold State.ready; decide +kernel

theorem test_witness_PeekChangesNothing :
    (board 4 0 [filled 2 false]).ready 0 (filled 2 false) ∧
      ((filled 2 false).fifo .rx).inited = true ∧ ((filled 2 false).fifo .rx).wf 4 = true ∧
      ((filled 2 false).fifo .rx).contents 4 = 0x42 :: [0x43] := by
  unfold State.ready; decide +kernel

/-- `n` = 0, `n` = `length`, `n` = `length` + 1. -/
theorem test_witness_GetSpanIsAllOrNothing :
    (board 4 0 [filled 3 false]).ready 0 (filled 3 false) ∧
      ((filled 3 false).fifo .rx).inited = true ∧ ((filled 3 false).fifo .rx).wf 4 = true ∧
      (0 : Half).toNat = 0 ∧ (3 : Half).toNat ≤ ((filled 3 false).fifo .rx).length ∧
      ((filled 3 false).fifo .rx).length < (4 : Half).toNat := by
  unfold State.ready; decide +kernel

/-- Two blocks with one queue at different places, and one Ring Buffer that is not initialised. -/
theorem test_witness_RingBufferIsItsQueue :
    (board 4 0 [chan (ring [0x41, 0x42] 2 2 0 false) Fifo.powerOn idle]).wf = true ∧
      (board 4 0 [chan (ring [0x42, 0x00, 0x07, 0x41] 2 1 3 false)
        { Fifo.powerOn with length := 1 } idle]).wf = true ∧
      (board 4 0 [chan (ring [0x41, 0x42] 2 2 0 false) Fifo.powerOn idle]).Alike
        (board 4 0 [chan (ring [0x42, 0x00, 0x07, 0x41] 2 1 3 false)
          { Fifo.powerOn with length := 1 } idle]) ∧
      ∃ t, exec (.rxByte 0 0x09) (board 4 0 [chan (ring [0x41, 0x42] 2 2 0 false) Fifo.powerOn idle]) =
        .next t := by
  refine ⟨by decide +kernel, by decide +kernel, ⟨rfl, rfl, fun k c d hc hd => ?_⟩,
    next_of_isSome (by decide +kernel)⟩
  cases k with
  | succ k => simp [board] at hc
  | zero =>
    obtain rfl := Option.some.inj hc
    obtain rfl := Option.some.inj hd
    exact ⟨⟨rfl, fun _ => by decide +kernel, fun _ => rfl⟩,
      ⟨rfl, fun h => absurd h (by decide), fun h => absurd h (by decide)⟩, rfl⟩

theorem test_witness_BytesComeOutInOrder :
    (board 4 0 [filled 2 false]).ready 0 (filled 2 false) ∧
      ((filled 2 false).fifo .tx).inited = true ∧ ((filled 2 false).fifo .tx).wf 4 = true ∧
      ((filled 2 false).fifo .tx).length + ([0x07, 0x08] : List Byte).length ≤ 4 := by
  unfold State.ready; decide +kernel

theorem test_witness_OverwriteDropsTheOldest :
    (board 4 0 [filled 4 true]).ready 0 (filled 4 true) ∧
      ((filled 4 true).fifo .rx).inited = true ∧ ((filled 4 true).fifo .rx).wf 4 = true ∧
      ((filled 4 true).fifo .rx).length = 4 ∧
      ((filled 4 true).fifo .rx).allowOverwrite = true := by
  unfold State.ready; decide +kernel

theorem test_witness_ReachedComparesAcrossTheWrap :
    0 < (1 : Time).toNat ∧ (1 : Time).toNat ≤ 2 ^ 31 ∧ (0x80000000 : Time).toNat ≤ 2 ^ 31 ∧
      (0x7FFFFFFF : Time).toNat < 2 ^ 31 ∧ (0x80000000 : Time).toNat = 2 ^ 31 := by decide

/-- The timer statements: engaged; not engaged with and without a timer slot. -/
theorem test_witness_TmrInitEngagesOnce :
    (board 4 0 [fresh]).ready 0 fresh ∧ fresh.tmr.engaged = true ∧
      (board 4 0 [down]).ready 0 down ∧ down.tmr.engaged = false ∧ down.cfg.timerSlot = true ∧
      (board 4 0 [Channel.powerOn ⟨[], false⟩ []]).ready 0 (Channel.powerOn ⟨[], false⟩ []) ∧
      (Channel.powerOn ⟨[], false⟩ []).tmr.engaged = false ∧
      (Channel.powerOn ⟨[], false⟩ []).cfg.timerSlot = false := by
  unfold State.ready; decide +kernel

theorem test_witness_TmrArmReplacesTheDeadline :
    (board 4 0 [fresh]).ready 0 fresh ∧ fresh.tmr.engaged = true ∧
      (board 4 0 [down]).ready 0 down ∧ down.tmr.engaged = false ∧
      (0x7FFFFFFF : Time).toNat < 2 ^ 31 ∧ (0 : Time).toNat < 2 ^ 31 ∧
      2 ^ 31 ≤ (0x80000000 : Time).toNat := by
  unfold State.ready; decide +kernel

theorem test_witness_TmrCancelUnplans :
    (board 4 0 [fresh]).ready 0 fresh ∧ fresh.tmr.engaged = true ∧
      (board 4 0 [down]).ready 0 down ∧ down.tmr.engaged = false ∧
      (0x7FFFFFFF : Time).toNat < 2 ^ 31 := by
  unfold State.ready; decide +kernel

theorem test_witness_OnlyArmingPlansAFire :
    (board 4 0 [fresh]).chans[0]? = some fresh ∧ fresh.tmr.planned = false ∧
      ∃ t d, (exec (.rxByte 0 1) (board 4 0 [fresh]) = .next t ∧ t.chans[0]? = some d) ∧
        d.tmr.planned = true := by
  refine ⟨by decide +kernel, rfl, ?_⟩
  obtain ⟨t, d, h, hd⟩ := chan_of_isSome (o := exec (.rxByte 0 1) (board 4 0 [fresh])) (k := 0)
    (by decide +kernel)
  refine ⟨t, d, ⟨h, hd⟩, ?_⟩
  have : ((nextOf (exec (.rxByte 0 1) (board 4 0 [fresh]))).bind fun t =>
      t.chans[0]?).map (fun d => d.tmr.planned) = some true := by decide +kernel
  rw [h] at this
  simpa [nextOf, hd] using this

/-- A channel that is due at `now` = 1001, and one that is due with an uninitialised `RXF`. -/
def dueUp : Channel := chan (queued [0x01]) (queued []) (pending 1001)
def dueDown : Channel := chan Fifo.powerOn (queued []) (pending 1001)

theorem test_witness_TickFiresEveryDueChannel :
    (haltedBoard [dueUp]).halted = true ∧
      (board 4 1000 [dueUp, down, dueUp]).halted = false ∧
      (∀ c ∈ (board 4 1000 [dueUp, down, dueUp]).chans,
        c.dueAt (1000 + 1#32) = true → c.rxf.inited = true) ∧
      dueUp.dueAt (1000 + 1#32) = true ∧ dueUp.dueAt (999 + 1#32) = false ∧
      (board 4 1000 [dueUp, dueDown, dueUp]).halted = false ∧
      (board 4 1000 [dueUp, dueDown, dueUp]).chans = [dueUp] ++ dueDown :: [dueUp] ∧
      (∀ d ∈ [dueUp], d.dueAt (1000 + 1#32) = true → d.rxf.inited = true) ∧
      dueDown.dueAt (1000 + 1#32) = true ∧ dueDown.rxf.inited = false := by decide +kernel

theorem test_witness_ArmedDeadlineFiresOnTime :
    (board 4 0xFFFFFFFF [fresh, filled 2 false]).ready 0 fresh ∧ fresh.tmr.engaged = true ∧
      (∀ e ∈ (board 4 0xFFFFFFFF [fresh, filled 2 false]).chans, e.rxf.inited = true) ∧
      0 < 2 ^ 31 ∧ 1 < 2 ^ 31 ∧ 2147483647 < 2 ^ 31 := by
  unfold State.ready; decide +kernel

theorem test_witness_CrcIsPure :
    (haltedBoard [fresh]).halted = true ∧ State.reset.halted = false ∧
      State.reset.cfg.checksum = .modbus ∧ (List.replicate 65535 (0 : Byte)).length < 65536 := by
  refine ⟨rfl, rfl, rfl, ?_⟩
  rw [List.length_replicate]; decide

theorem test_witness_DefaultChecksumProperties :
    Config.default.checksum = .modbus ∧ Config.default.crcLsbFirst = true ∧
      6 ≤ ([0x70, 0x69, 0x6E, 0x67, 0xA7, 0x72] : List Byte).length := by decide

theorem test_witness_FrameLayout :
    enc16 true 0x72A7 = [0xA7, 0x72] ∧ enc16 false 0x72A7 = [0x72, 0xA7] := by decide

/-- One queue for each clause at its boundary: 3 bytes; an unknown tag; `N` = 4 with 4 + `N` - 1,
4 + `N`, 6 + `N` - 1 and 6 + `N` bytes; and a tag with `N` = 0. -/
theorem test_witness_PhaseOfTheQueuedBytes :
    ([0x65, 0x63, 0x68] : List Byte).length < 4 ∧
      (∀ e ∈ fixture, tagBytes e.tag ≠ ([0xFF, 0x63, 0x68, 0x6F] : List Byte).take 4) ∧
      echo ∈ fixture ∧ (fixture.map TableEntry.tag).Nodup ∧
      (∀ n ∈ [3, 4, 5, 6],
        tagBytes echo.tag = (tagBytes echo.tag ++ List.replicate n (0 : Byte)).take 4) ∧
      (tagBytes echo.tag ++ List.replicate 3 (0 : Byte)).length < 4 + echo.payloadLen ∧
      4 + echo.payloadLen ≤ (tagBytes echo.tag ++ List.replicate 4 (0 : Byte)).length ∧
      (tagBytes echo.tag ++ List.replicate 5 (0 : Byte)).length < 6 + echo.payloadLen ∧
      6 + echo.payloadLen ≤ (tagBytes echo.tag ++ List.replicate 6 (0 : Byte)).length ∧
      ping ∈ fixture ∧ ping.payloadLen = 0 := by decide +kernel

theorem test_witness_FpProcessNeedsBothBuffers :
    (board 16 0 [chan (queued []) Fifo.powerOn idle]).ready 0 (chan (queued []) Fifo.powerOn idle) ∧
      (chan (queued []) Fifo.powerOn idle).txf.inited = false ∧
      (board 16 0 [down]).ready 0 down ∧ down.rxf.inited = false := by
  unfold State.ready; decide +kernel

/-- Channels with 3 bytes queued, with all but one byte of a `ping`, and with 4 bytes that are no tag. -/
def with3 : Channel := chan (queued [0x70, 0x69, 0x6E]) (queued []) idle
def with5 : Channel := chan (queued [0x70, 0x69, 0x6E, 0x67, 0xA7]) (queued []) idle
def withGarbage : Channel := chan (queued [0x00, 0x73, 0x75, 0x6D]) (queued []) idle

theorem test_witness_ParserWaitsOrResyncs :
    (∀ c ∈ [with3, with5, withGarbage],
      (board 16 0 [c]).ready 0 c ∧ c.rxf.inited = true ∧ c.txf.inited = true ∧
        c.rxf.wf 16 = true ∧ c.txf.wf 16 = true ∧ (board 16 0 [c]).tablesLegal = true) ∧
      with3.rxf.length < 4 ∧
      (∃ e ∈ with5.cfg.table, tagBytes e.tag = (with5.rxf.contents 16).take 4 ∧
        with5.rxf.length < 6 + e.payloadLen) ∧
      4 ≤ withGarbage.rxf.length ∧
      ∀ e ∈ withGarbage.cfg.table, tagBytes e.tag ≠ (withGarbage.rxf.contents 16).take 4 := by
  unfold State.ready; decide +kernel

/-- A `sum2` frame and one byte more, with the right and with the wrong checksum (X10, and the fixture's
frame); the application's answer is one byte. -/
def withFrame (x0 x1 : Byte) (txf : Fifo) : Channel :=
  answering [[0x30]] (chan (queued [0x73, 0x75, 0x6D, 0x32, 0x10, 0x20, x0, x1, 0x65]) txf idle)

theorem test_witness_ChecksumMismatchDiscardsTheFrame :
    (board 16 0 [withFrame 0xA8 0x37 (queued [])]).ready 0 (withFrame 0xA8 0x37 (queued [])) ∧
      (withFrame 0xA8 0x37 (queued [])).rxf.wf 16 = true ∧
      (withFrame 0xA8 0x37 (queued [])).txf.wf 16 = true ∧
      (board 16 0 [withFrame 0xA8 0x37 (queued [])]).tablesLegal = true ∧
      sum2 ∈ (withFrame 0xA8 0x37 (queued [])).cfg.table ∧
      ([0x10, 0x20] : List Byte).length = sum2.payloadLen ∧
      (withFrame 0xA8 0x37 (queued [])).rxf.contents 16 =
        tagBytes sum2.tag ++ [0x10, 0x20] ++ [0xA8, 0x37] ++ [0x65] ∧
      crc16 .modbus (tagBytes sum2.tag ++ [0x10, 0x20]) 0xFFFF ≠ dec16 true 0xA8 0x37 := by
  unfold State.ready; decide +kernel

/-- `TXF` empty (the response fits), full with the policy off (it does not), full with the policy on. -/
def txfEmpty : Channel := withFrame 0x37 0xA8 (queued [])
def txfFull (policy : Bool) : Channel :=
  withFrame 0x37 0xA8 (ring (List.replicate 16 0xEE) 16 0 0 policy)

theorem test_witness_ValidFrameIsDispatched :
    (∀ c ∈ [txfEmpty, txfFull false, txfFull true],
      (board 16 0 [c]).ready 0 c ∧ c.rxf.inited = true ∧ c.txf.inited = true ∧
        c.rxf.wf 16 = true ∧ c.txf.wf 16 = true ∧ (board 16 0 [c]).tablesLegal = true ∧
        sum2 ∈ c.cfg.table ∧
        c.rxf.contents 16 = tagBytes sum2.tag ++ [0x10, 0x20] ++ [0x37, 0xA8] ++ [0x65]) ∧
      ([0x10, 0x20] : List Byte).length = sum2.payloadLen ∧
      crc16 .modbus (tagBytes sum2.tag ++ [0x10, 0x20]) 0xFFFF = dec16 true 0x37 0xA8 ∧
      txfEmpty.app.answers = [0x30] :: [] ∧
      txfEmpty.txf.length + (6 + ([0x30] : List Byte).length) ≤ 16 ∧
      (txfFull false).txf.allowOverwrite = false ∧
      16 < (txfFull false).txf.length + (6 + ([0x30] : List Byte).length) ∧
      (txfFull true).txf.allowOverwrite = true := by
  unfold State.ready; decide +kernel

theorem test_witness_ProcessingMakesProgressAndEnds :
    (board 16 0 [txfEmpty]).wf = true ∧ (board 16 0 [txfEmpty]).ready 0 txfEmpty ∧
      txfEmpty.rxf.inited = true ∧ txfEmpty.txf.inited = true ∧ txfEmpty.rxf.wf 16 = true ∧
      ∃ t, exec (.fpProcess 0) (board 16 0 [txfEmpty]) = .next t :=
  ⟨by decide +kernel, ⟨rfl, rfl⟩, rfl, rfl, by decide +kernel, next_of_isSome (by decide +kernel)⟩

/-- The longest frame of the table, of exactly `C` bytes. -/
theorem test_witness_FrameRoundTrip :
    (board 10 0 [fresh]).wf = true ∧ (board 10 0 [fresh]).ready 0 fresh ∧ fresh.up = true ∧
      fresh.rxf.length = 0 ∧ echo ∈ fresh.cfg.table ∧
      ([0x01, 0x02, 0x03, 0x04] : List Byte).length = echo.payloadLen ∧ 6 + echo.payloadLen ≤ 10 := by
  unfold State.ready; decide +kernel

/-- A table with a frame longer than `C`, one whose longest frame is `C`; and the three timer cases. -/
theorem test_witness_ChInitBringsTheChannelUp :
    (board 9 0 [down]).ready 0 down ∧ (∃ e ∈ down.cfg.table, 9 < 6 + e.payloadLen) ∧
      (board 10 0 [down]).ready 0 down ∧ (∀ e ∈ down.cfg.table, 6 + e.payloadLen ≤ 10) ∧
      down.tmr.engaged = false ∧ down.cfg.timerSlot = true ∧
      (board 10 0 [fresh]).ready 0 fresh ∧ (∀ e ∈ fresh.cfg.table, 6 + e.payloadLen ≤ 10) ∧
      fresh.tmr.engaged = true ∧
      (board 10 0 [Channel.powerOn ⟨fixture, false⟩ []]).ready 0 (Channel.powerOn ⟨fixture, false⟩ []) ∧
      (Channel.powerOn ⟨fixture, false⟩ []).tmr.engaged = false ∧
      (Channel.powerOn ⟨fixture, false⟩ []).cfg.timerSlot = false := by
  unfold State.ready; decide +kernel

theorem test_witness_RxByteQueuesAndArms :
    (∀ c ∈ [filled 3 false, filled 4 false, filled 4 true],
      (board 4 0 [c]).ready 0 c ∧ c.rxf.inited = true ∧ c.tmr.engaged = true ∧ c.rxf.wf 4 = true) ∧
      (filled 3 false).rxf.length < 4 ∧ (filled 4 false).rxf.length = 4 ∧
      (filled 4 false).rxf.allowOverwrite = false ∧ (filled 4 true).rxf.allowOverwrite = true ∧
      (board 4 0 [down]).ready 0 down ∧ down.rxf.inited = false ∧
      (chan (queued []) (queued []) Timer.powerOn).tmr.engaged = false := by
  unfold State.ready; decide +kernel

theorem test_witness_PumpMovesTheOldestBytes :
    (board 4 0 [filled 4 false]).ready 0 (filled 4 false) ∧ (filled 4 false).txf.inited = true ∧
      (filled 4 false).txf.wf 4 = true ∧ min (3 : Half).toNat (filled 4 false).txf.length = 3 ∧
      min (65535 : Half).toNat (filled 4 false).txf.length = 4 ∧
      (board 4 0 [down]).ready 0 down ∧ down.txf.inited = false := by
  unfold State.ready; decide +kernel

/-- A run that dispatches a frame and pumps its response out, `TXF` left to the parser and the pump. -/
theorem test_witness_ResponsesLeaveInOrder :
    (board 16 0 [txfEmpty]).wf = true ∧ (board 16 0 [txfEmpty]).chans[0]? = some txfEmpty ∧
      txfEmpty.txf.inited = true ∧ txfEmpty.txf.allowOverwrite = false ∧
      (∀ i ∈ [Instr.fpProcess 0, Instr.put .rx 0 1, Instr.pump 0 4], ∀ ch : Byte, ch.toNat = 0 →
        i ≠ .fifoInit .tx ch ∧ i ≠ .fifoReset .tx ch ∧ (∀ b, i ≠ .fifoSetOvw .tx ch b) ∧
        (∀ b, i ≠ .put .tx ch b) ∧ (∀ x, i ≠ .putSpan .tx ch x) ∧ i ≠ .get .tx ch ∧
        (∀ n, i ≠ .getSpan .tx ch n) ∧ i ≠ .chInit ch) ∧
      ∃ t d, execList [Instr.fpProcess 0, Instr.put .rx 0 1, Instr.pump 0 4] (board 16 0 [txfEmpty]) =
        .next t ∧ t.chans[0]? = some d := by
  refine ⟨by decide +kernel, by decide +kernel, rfl, rfl, fun i hi ch _ => ?_,
    chan_of_isSome (by decide +kernel)⟩
  simp only [List.mem_cons, List.not_mem_nil, or_false] at hi
  obtain rfl | rfl | rfl := hi <;> simp

/-- Each level of the order of the checks, with the later ones failing too: a reserved opcode on a
channel that does not exist, halted and not; a channel that does not exist with a reserved operand; a
reserved operand on units that are not initialised; units that are not initialised; a table that does
not fit and no timer slot; a status failure. -/
theorem test_witness_OrderOfTheChecks :
    (board 4 0 [down]).tablesLegal = true ∧ decode [0x6F, 0x05] = .reservedOpcode 0x6F ∧
      ((haltedBoard [down]).withRequest [0x6F, 0x05]).requests = [0x6F, 0x05] :: [] ∧
      (haltedBoard [down]).halted = true ∧ (board 4 0 [down]).halted = false ∧
      channelOf (.fifoSetOvw .rx 1 2) = some 1 ∧
      (board 4 0 [down]).chans.length ≤ (1 : Byte).toNat ∧
      (board 4 0 [down]).ready 0 down ∧ 1 < (2 : Byte).toNat ∧
      2 ^ 31 ≤ (0x80000000 : Time).toNat ∧ (down.fifo .rx).inited = false ∧
      (down.fifo .tx).inited = false ∧ down.tmr.engaged = false ∧ down.rxf.inited = false ∧
      down.txf.inited = false ∧ (1 : Byte).toNat ≤ 1 ∧ (0x7FFFFFFF : Time).toNat < 2 ^ 31 ∧
      (∃ e ∈ down.cfg.table, (board 4 0 [down]).cfg.capacity < 6 + e.payloadLen) ∧
      (nextOf (exec (.get .rx 0) (board 4 0 [filled 0 false]))).map State.result =
        some (some .fail) := by
  unfold State.ready; decide +kernel

/-- Two blocks that agree on channel 0 and differ on channel 1. -/
theorem test_witness_ChannelsAreIndependent :
    channelOf (.put .rx 0 1) = some 0 ∧
      (board 4 0 [fresh, down]).cfg = (board 4 0 [fresh, filled 2 true]).cfg ∧
      (board 4 0 [fresh, down]).now = (board 4 0 [fresh, filled 2 true]).now ∧
      (board 4 0 [fresh, down]).halted = (board 4 0 [fresh, filled 2 true]).halted ∧
      (board 4 0 [fresh, down]).faultCode = (board 4 0 [fresh, filled 2 true]).faultCode ∧
      (board 4 0 [fresh, down]).chans[(0 : Byte).toNat]? =
        (board 4 0 [fresh, filled 2 true]).chans[(0 : Byte).toNat]? ∧
      ∃ t, exec (.put .rx 0 1) (board 4 0 [fresh, filled 2 true]) = .next t :=
  ⟨by decide, by decide +kernel, by decide +kernel, by decide +kernel, by decide +kernel,
    by decide +kernel, next_of_isSome (by decide +kernel)⟩

/-- Two channels that both dispatch a frame: neither takes an answer from the other. -/
theorem test_witness_OperationsOnChannelsCommute :
    channelOf (.fpProcess 0) = some 0 ∧ channelOf (.fpProcess 1) = some 1 ∧ (0 : Byte) ≠ 1 ∧
      ∃ t u, exec (.fpProcess 0) (board 16 0 [txfEmpty, txfFull true]) = .next t ∧
        exec (.fpProcess 1) (board 16 0 [txfEmpty, txfFull true]) = .next u ∧
        t.halted = (board 16 0 [txfEmpty, txfFull true]).halted ∧
        u.halted = (board 16 0 [txfEmpty, txfFull true]).halted := by
  refine ⟨by decide, by decide, by decide, ?_⟩
  obtain ⟨t, ht, hh⟩ := next_of_map (p := State.halted) (x := false)
    (o := exec (.fpProcess 0) (board 16 0 [txfEmpty, txfFull true])) (by decide +kernel)
  obtain ⟨u, hu, hk⟩ := next_of_map (p := State.halted) (x := false)
    (o := exec (.fpProcess 1) (board 16 0 [txfEmpty, txfFull true])) (by decide +kernel)
  exact ⟨t, u, ht, hu, hh, hk⟩

end Sys2Proof.Tests
end

section
/-! Proofs about the scope: the parameters and command tables are constants of a run. -/

namespace Sys2Proof.Machine

/-- Whatever an operation does to a channel, `FIRE` included, leaves that channel's parameters as they
were: the case split is that of `exec_channels`. -/
theorem exec_channelCfg {i : Instr} {s t : State} (h : exec i s = .next t) {k : Nat} {d : Channel}
    (hd : t.chans[k]? = some d) : ∃ c : Channel, s.chans[k]? = some c ∧ d.cfg = c.cfg := by
  obtain ⟨-, -, hchans⟩ := exec_channels h
  obtain ⟨c, hc, rfl | ⟨-, -, -, -, hafter⟩ | ⟨-, rfl, -⟩⟩ := hchans k d hd
  · exact ⟨d, hc, rfl⟩
  · exact ⟨c, hc, hafter.cfg⟩
  · exact ⟨c, hc, c.fire_cfg⟩

/-- No operation changes a shared parameter, the number of channels or a channel's parameters. -/
theorem exec_configuration {i : Instr} {s t : State} (h : exec i s = .next t) :
    t.cfg = s.cfg ∧ t.chans.map Channel.cfg = s.chans.map Channel.cfg := by
  obtain ⟨hcfg, hlen, -⟩ := exec_channels h
  refine ⟨hcfg, List.ext_getElem (by simp [hlen]) fun k hk _ => ?_⟩
  simp only [List.length_map] at hk
  obtain ⟨c, hc, hd⟩ := exec_channelCfg h (List.getElem?_eq_getElem hk)
  obtain ⟨_, rfl⟩ := List.getElem?_eq_some_iff.1 hc
  simpa using hd

end Sys2Proof.Machine

namespace Sys2Proof
open Machine

/-- Settles O15: a step is idle, an operation (`exec_configuration`), or the answer to a reserved
opcode, which writes only the result and the halt record (R53, R8). -/
theorem configurationNeverChanges : Obligations.ConfigurationNeverChanges := by
  intro s t h
  obtain rfl | ⟨rest, ⟨i, hexec⟩ | ⟨-, rfl⟩ | ⟨-, rfl⟩⟩ := step_cases h
  · exact ⟨rfl, rfl⟩
  · exact exec_configuration (s := { s with requests := rest }) hexec
  · exact ⟨rfl, rfl⟩
  · exact ⟨rfl, rfl⟩

end Sys2Proof
end

section
/-! Proofs about the state: the invariants at power-on and along every step, what a halted block still
does, which operations move `now` and `wireOut` and make a deadline pending, and the storage. -/

namespace Sys2Proof.Machine

/-! ### Power-on -/

/-- A channel at power-on meets the invariants at every capacity: its Ring Buffers are not initialised
and list no byte. -/
theorem Channel.powerOn_wf (cap : Nat) (cfg : ChannelConfig) (answers : List (List Byte)) :
    (Channel.powerOn cfg answers).wf cap = true := rfl

theorem State.powerOn_wf {cfg : Config} {channels : List (ChannelConfig × List (List Byte))}
    (hcap : 0 < cfg.capacity) (hdelay : cfg.idleDelay.toNat < 2 ^ 31)
    (htags : ∀ c ∈ channels, (c.1.table.map TableEntry.tag).Nodup) (now : Time)
    (requests : List (List Byte)) : (State.powerOn cfg channels now requests).wf = true := by
  have htables : (State.powerOn cfg channels now requests).tablesLegal = true := by
    simpa [State.tablesLegal, State.powerOn, Channel.powerOn, tableLegal] using htags
  have hchans : (State.powerOn cfg channels now requests).chans.all
      (Channel.wf cfg.capacity) = true := by
    simp [State.powerOn, Channel.powerOn_wf]
  simp only [State.wf, Bool.and_eq_true, decide_eq_true_eq]
  exact ⟨⟨⟨hcap, delayLegal_iff.2 hdelay⟩, htables⟩, hchans⟩

/-- No timer is engaged at power-on, so no deadline is pending. -/
theorem State.powerOn_deadlinesAhead (cfg : Config)
    (channels : List (ChannelConfig × List (List Byte))) (now : Time) (requests : List (List Byte)) :
    (State.powerOn cfg channels now requests).deadlinesAhead = true := by
  simp [State.deadlinesAhead, State.powerOn, Channel.powerOn, Timer.powerOn, Timer.ahead]

/-! ### What an operation does to a channel -/

/-- A channel changes by an operation on that channel or by `FIRE` only: `exec_channels` for a channel
that is known before and after. -/
theorem exec_channel_cases {i : Instr} {s t : State} (h : exec i s = .next t) {k : Nat}
    {c d : Channel} (hc : s.chans[k]? = some c) (hd : t.chans[k]? = some d) :
    d = c ∨ (∃ ch : Byte, channelOf i = some ch ∧ ch.toNat = k ∧ Channel.After i s c d) ∨
      d = c.fire := by
  obtain ⟨-, -, hchans⟩ := exec_channels h
  obtain ⟨c', hc', hcd⟩ := hchans k d hd
  obtain rfl : c = c' := Option.some.inj (hc.symm.trans hc')
  obtain hcd | ⟨ch, hch, hk, -, hafter⟩ | ⟨-, hcd, -⟩ := hcd
  · exact .inl hcd
  · exact .inr (.inl ⟨ch, hch, hk, hafter⟩)
  · exact .inr (.inr hcd)

/-- No operation takes a unit of a channel out of use (R15, R22). -/
theorem exec_units {i : Instr} {s t : State} (h : exec i s = .next t) {k : Nat} {c d : Channel}
    (hc : s.chans[k]? = some c) (hd : t.chans[k]? = some d) :
    (c.rxf.inited = true → d.rxf.inited = true) ∧ (c.txf.inited = true → d.txf.inited = true) ∧
      (c.tmr.engaged = true → d.tmr.engaged = true) := by
  obtain rfl | ⟨-, -, -, hafter⟩ | rfl := exec_channel_cases h hc hd
  · exact ⟨id, id, id⟩
  · exact ⟨hafter.rx_inited, hafter.tx_inited, hafter.engaged⟩
  · exact ⟨id, id, id⟩

/-- `TMR_ARM` and `RXBYTE` are the operations that arm a timer. -/
theorem armsTimer_iff {i : Instr} :
    armsTimer i = true ↔ (∃ ch delay, i = .tmrArm ch delay) ∨ ∃ ch b, i = .rxByte ch b := by
  cases i <;> simp [armsTimer]

/-! ### `now` and the halted block -/

/-- No operation but `TICK` changes `now`. -/
theorem exec_now {i : Instr} {s t : State} (hi : ∀ ch, i ≠ .tick ch) (h : exec i s = .next t) :
    t.now = s.now := by
  cases exec_channelOutcome hi h with
  | answered _ h | faulted _ _ h | committed _ _ _ _ _ _ _ h | unslotted _ _ _ _ _ _ h => rw [h]; rfl

/-- `TICK` advances `now` by 1, fault or not. -/
theorem execTick_now {ch : Byte} {s t : State} (h : exec (.tick ch) s = .next t) :
    t.now = s.now + 1#32 := by
  rw [exec] at h
  obtain ⟨-, he⟩ | ⟨-, -, he⟩ | ⟨-, -, he⟩ := execTick_cases ch s <;>
    (rw [he] at h; obtain rfl := Host.Outcome.next.inj h; rfl)

/-- `TICK` on a halted block counts and fires nothing (R166). -/
theorem execTick_halted {s : State} (hs : s.halted = true) (ch : Byte) :
    exec (.tick ch) s =
      .next { s with now := s.now + 1#32, result := some (.ok (.fired 0)) } := by
  simp [exec, execTick, hs, answer, State.answered]

/-- An operation on a halted block writes the result, and `TICK` writes `now` (R166). -/
theorem exec_of_halted {i : Instr} {s t : State} (hs : s.halted = true) (h : exec i s = .next t) :
    t = { s with now := t.now, result := t.result } ∧ (t.now = s.now ∨ t.now = s.now + 1#32) := by
  by_cases hi : ∃ ch, i = .tick ch
  · obtain ⟨ch, rfl⟩ := hi
    rw [execTick_halted hs] at h
    obtain rfl := Host.Outcome.next.inj h
    exact ⟨rfl, .inr rfl⟩
  · rw [exec_halted hs fun ch hc => hi ⟨ch, hc⟩] at h
    obtain rfl := Host.Outcome.next.inj h
    exact ⟨rfl, .inl rfl⟩

end Sys2Proof.Machine

namespace Sys2Proof
open Machine

/-- Settles O10: an operation keeps the invariant (`exec_wf`); the idle step and the answer to a
reserved opcode write no field that the invariant reads. -/
theorem stepKeepsTheRingInvariants : Obligations.StepKeepsTheRingInvariants := by
  intro s t hw h
  obtain rfl | ⟨rest, ⟨i, hexec⟩ | ⟨-, rfl⟩ | ⟨-, rfl⟩⟩ := step_cases h
  · exact hw
  · exact exec_wf (s := { s with requests := rest }) hw hexec
  · exact hw
  · exact hw

/-- Settles O12: on a halted block a step is idle, an operation that changes `now` and the result at
most (`exec_of_halted`), or `FAULT(faultCode)` for a reserved opcode. -/
theorem haltIsFinal : Obligations.HaltIsFinal := by
  intro s t hs h
  obtain rfl | ⟨rest, ⟨i, hexec⟩ | ⟨-, rfl⟩ | ⟨hrunning, -⟩⟩ := step_cases h
  · exact ⟨rfl, .inl rfl⟩
  · obtain ⟨heq, hnow⟩ := exec_of_halted (s := { s with requests := rest }) hs hexec
    exact ⟨by rw [heq], hnow⟩
  · exact ⟨rfl, .inl rfl⟩
  · simp [hs] at hrunning

/-- Settles O13: check 1 of R167 for every operation but `TICK`, and `TICK` on a halted block. -/
theorem haltedBlockAnswersFault : Obligations.HaltedBlockAnswersFault :=
  fun _ hs => ⟨fun _ hi => exec_halted hs hi, execTick_halted hs⟩

/-- Settles O14: an operation keeps every unit in use (`exec_units`) and the number of channels; the
other steps leave the channels alone. -/
theorem unitsStayInitialised : Obligations.UnitsStayInitialised := by
  intro s t h
  have hsame : ∀ (k : Nat) (c d : Channel), s.chans[k]? = some c → s.chans[k]? = some d →
      (c.rxf.inited = true → d.rxf.inited = true) ∧ (c.txf.inited = true → d.txf.inited = true) ∧
        (c.tmr.engaged = true → d.tmr.engaged = true) := by
    intro k c d hc hd
    obtain rfl : c = d := Option.some.inj (hc.symm.trans hd)
    exact ⟨id, id, id⟩
  obtain rfl | ⟨rest, ⟨i, hexec⟩ | ⟨-, rfl⟩ | ⟨-, rfl⟩⟩ := step_cases h
  · exact ⟨rfl, hsame⟩
  · obtain ⟨-, hlength, -⟩ := exec_channels hexec
    exact ⟨hlength, fun _ _ _ => exec_units hexec⟩
  · exact ⟨rfl, hsame⟩
  · exact ⟨rfl, hsame⟩

/-- Settles O16: what an operation leaves of its own channel extends `wireOut`, and keeps it unless the
operation is `PUMP`; `FIRE` keeps it. -/
theorem wireOutOnlyGrows : Obligations.WireOutOnlyGrows := by
  intro i s t h k c d hc hd
  obtain rfl | ⟨ch, hch, hk, hafter⟩ | rfl := exec_channel_cases h hc hd
  · exact ⟨⟨[], by simp⟩, fun _ => rfl⟩
  · obtain ⟨out, hout⟩ := hafter.wireOut
    refine ⟨⟨out, hout.symm⟩, fun hpump => hafter.wireOut_eq ?_⟩
    rintro ch' room rfl
    obtain rfl : ch' = ch := Option.some.inj hch
    exact hpump _ _ rfl hk
  · exact ⟨⟨[], by simp⟩, fun _ => rfl⟩

/-- Settles O17: `exec_now` and `execTick_now`. -/
theorem onlyTickMovesNow : Obligations.OnlyTickMovesNow := by
  intro i s t h
  refine ⟨fun hi => exec_now hi h, ?_⟩
  rintro ⟨ch, rfl⟩
  simp [execTick_now h, BitVec.toNat_add]

/-- Settles O18 from the laws of the storage. -/
theorem storageWritesOneByte : Obligations.StorageWritesOneByte := by
  refine ⟨fun m a b v hm => ?_, fun m a v hm => Memory.wf_write hm a v,
    fun m cap a v hm ha => Memory.below_write hm ha v, fun m m' => Memory.ext_of_read⟩
  simp only [Memory.read_write hm, eq_comm]

/-- Settles O37: an operation leaves the timer of its channel as it was, not planned, or armed, and
only `TMR_ARM` and `RXBYTE` arm; `FIRE` un-arms. -/
theorem onlyArmingPlansAFire : Obligations.OnlyArmingPlansAFire := by
  intro i s t h k c d hc hd hbefore hafterwards
  obtain rfl | ⟨ch, hch, hk, hafter⟩ | rfl := exec_channel_cases h hc hd
  · simp [hbefore] at hafterwards
  · obtain hsame | hunplanned | ⟨delay, -, harms, -⟩ := hafter.tmr
    · simp [hsame, hbefore] at hafterwards
    · simp [hunplanned] at hafterwards
    · obtain ⟨ch', delay', rfl⟩ | ⟨ch', b, rfl⟩ := armsTimer_iff.1 harms
      · obtain rfl : ch' = ch := Option.some.inj hch
        exact ⟨ch', hk, .inl ⟨delay', rfl⟩⟩
      · obtain rfl : ch' = ch := Option.some.inj hch
        exact ⟨ch', hk, .inr ⟨b, rfl⟩⟩
  · simp at hafterwards

/-- Settles O9: `State.reset` is the power-on state of a legal configuration. -/
theorem powerOnMeetsTheInvariants : Obligations.PowerOnMeetsTheInvariants :=
  ⟨fun cfg channels now requests hcap hdelay htags =>
      ⟨State.powerOn_wf hcap hdelay htags now requests,
        State.powerOn_deadlinesAhead cfg channels now requests⟩,
    State.powerOn_wf (by decide) (by decide) (by decide) _ _,
    State.powerOn_deadlinesAhead _ _ _ _, by decide⟩

end Sys2Proof
end

section
/-! Proofs about the abstract value of a Ring Buffer (R17): two Ring Buffers with the same queued bytes
and policy answer alike and stay alike, and so do two channels and two blocks that differ in nothing
else.  One lemma per Ring Buffer operation and one per check of R167; each operation is put together
from them. -/

namespace Sys2Proof.Machine

/-! ### Two Ring Buffers -/

/-- Two Ring Buffers in use that meet R16 and have the same abstract value (R17). -/
structure Fifo.Twins (cap : Nat) (F G : Fifo) : Prop where
  left : F.Ring cap
  right : G.Ring cap
  left_inited : F.inited = true
  right_inited : G.inited = true
  contents : F.contents cap = G.contents cap
  policy : F.allowOverwrite = G.allowOverwrite

theorem Fifo.Alike.twins {cap : Nat} {F G : Fifo} (h : F.Alike cap G) (hF : F.wf cap = true)
    (hG : G.wf cap = true) (hi : F.inited = true) : Fifo.Twins cap F G where
  left := Fifo.ring_of_wf hF hi
  right := Fifo.ring_of_wf hG (h.inited ▸ hi)
  left_inited := hi
  right_inited := h.inited ▸ hi
  contents := h.contents hi
  policy := h.policy hi

theorem Fifo.Twins.alike {cap : Nat} {F G : Fifo} (h : Fifo.Twins cap F G) : F.Alike cap G :=
  ⟨h.left_inited.trans h.right_inited.symm, fun _ => h.contents, fun _ => h.policy⟩

theorem Fifo.Alike.refl (cap : Nat) (F : Fifo) : F.Alike cap F := ⟨rfl, fun _ => rfl, fun _ => rfl⟩

/-- `FIFO_RESET` leaves an empty queue and no policy of either. -/
theorem Fifo.Alike.reset {cap : Nat} {F G : Fifo} (h : F.Alike cap G) : F.reset.Alike cap G.reset :=
  ⟨h.inited, fun _ => rfl, fun _ => rfl⟩

/-- `FIFO_SETOVW` leaves the queue of each as it was. -/
theorem Fifo.Alike.setOverwrite {cap : Nat} {F G : Fifo} (h : F.Alike cap G) (policy : Bool) :
    (F.setOverwrite policy).Alike cap (G.setOverwrite policy) :=
  ⟨h.inited, h.contents, fun _ => rfl⟩

section
variable {cap : Nat} {F G : Fifo} (h : Fifo.Twins cap F G)
include h

theorem Fifo.Twins.length : G.length = F.length := by
  simpa using congrArg List.length h.contents.symm

/-- The heads of equal queues: the oldest bytes agree, and what `GET` leaves is alike again. -/
theorem Fifo.Twins.oldest_dropped (hl : 0 < F.length) :
    G.oldest = F.oldest ∧ Fifo.Twins cap (F.dropped cap) (G.dropped cap) := by
  have hl' : 0 < G.length := by rwa [h.length]
  have hcons := h.contents
  rw [h.left.contents_cons hl, h.right.contents_cons hl'] at hcons
  obtain ⟨holdest, hrest⟩ := List.cons.inj hcons
  exact ⟨holdest.symm, h.left.dropped hl, h.right.dropped hl', h.left_inited, h.right_inited, hrest,
    h.policy⟩

theorem Fifo.Twins.peek : G.peek = F.peek := by
  unfold Fifo.peek
  rw [h.length]
  split_ifs with hl
  · rfl
  · rw [(h.oldest_dropped (Nat.pos_of_ne_zero hl)).1]

theorem Fifo.Twins.get :
    (F.get cap = none ∧ G.get cap = none) ∨
      ∃ b F' G', F.get cap = some (b, F') ∧ G.get cap = some (b, G') ∧ Fifo.Twins cap F' G' := by
  unfold Fifo.get
  rw [h.length]
  split_ifs with hl
  · exact .inl ⟨rfl, rfl⟩
  · obtain ⟨holdest, hdropped⟩ := h.oldest_dropped (Nat.pos_of_ne_zero hl)
    exact .inr ⟨_, _, _, rfl, by rw [holdest], hdropped⟩

theorem Fifo.Twins.takeAll {n : Nat} (hn : n ≤ F.length) :
    (Fifo.takeAll cap n G).1 = (Fifo.takeAll cap n F).1 ∧
      Fifo.Twins cap (Fifo.takeAll cap n F).2 (Fifo.takeAll cap n G).2 := by
  obtain ⟨hbytes, hrest, -, hring⟩ := h.left.takeAll hn
  obtain ⟨hbytes', hrest', -, hring'⟩ := h.right.takeAll (n := n) (by rwa [h.length])
  obtain ⟨-, hin, hpol⟩ := Fifo.takeAll_frame cap n F
  obtain ⟨-, hin', hpol'⟩ := Fifo.takeAll_frame cap n G
  exact ⟨by rw [hbytes, hbytes', h.contents], hring, hring', hin.trans h.left_inited,
    hin'.trans h.right_inited, by rw [hrest, hrest', h.contents],
    by rw [hpol, hpol', h.policy]⟩

theorem Fifo.Twins.getSpan (n : Nat) :
    (F.getSpan cap n = none ∧ G.getSpan cap n = none) ∨
      ∃ bs F' G', F.getSpan cap n = some (bs, F') ∧ G.getSpan cap n = some (bs, G') ∧
        Fifo.Twins cap F' G' := by
  unfold Fifo.getSpan
  rw [h.length]
  split_ifs with hl
  · exact .inl ⟨rfl, rfl⟩
  · obtain ⟨hbytes, hrest⟩ := h.takeAll (Nat.le_of_not_lt hl)
    exact .inr ⟨_, _, _, rfl, by rw [← hbytes], hrest⟩

/-- `PUT` has room in both, overwrites in both, or fails in both. -/
theorem Fifo.Twins.put (b : Byte) :
    (F.put cap b = none ∧ G.put cap b = none) ∨
      ∃ F' G', F.put cap b = some F' ∧ G.put cap b = some G' ∧ Fifo.Twins cap F' G' := by
  have hlen := h.length
  rcases Nat.lt_or_ge F.length cap with hroom | hfull
  · obtain ⟨F', hF, hR, hcont, hF'⟩ := h.left.put_room hroom b
    obtain ⟨G', hG, hR', hcont', hG'⟩ := h.right.put_room (by rwa [hlen]) b
    refine .inr ⟨F', G', hF, hG, hR, hR', ?_, ?_, by rw [hcont, hcont', h.contents], ?_⟩ <;>
      simp only [hF', hG', h.left_inited, h.right_inited, h.policy]
  · have hcap : F.length = cap := le_antisymm h.left.length_le hfull
    cases hpol : F.allowOverwrite with
    | false =>
      exact .inl ⟨Fifo.put_full hcap hpol b,
        Fifo.put_full (hlen.trans hcap) (h.policy ▸ hpol) b⟩
    | true =>
      obtain ⟨F', hF, hR, hcont, hF'⟩ := h.left.put_over hcap hpol b
      obtain ⟨G', hG, hR', hcont', hG'⟩ :=
        h.right.put_over (hlen.trans hcap) (h.policy ▸ hpol) b
      refine .inr ⟨F', G', hF, hG, hR, hR', ?_, ?_, by rw [hcont, hcont', h.contents], ?_⟩ <;>
        simp only [hF', hG', h.left_inited, h.right_inited, h.policy]

theorem Fifo.Twins.putSpan (d : List Byte) :
    (F.putSpan cap d = none ∧ G.putSpan cap d = none) ∨
      ∃ F' G', F.putSpan cap d = some F' ∧ G.putSpan cap d = some G' ∧ Fifo.Twins cap F' G' := by
  rw [Fifo.putSpan_eq, Fifo.putSpan_eq, h.length, ← h.policy]
  split_ifs with hfits
  · obtain ⟨hR, hcont, hin, hpol, -⟩ := h.left.putAll hfits
    obtain ⟨hR', hcont', hin', hpol', -⟩ := h.right.putAll (d := d) (by rwa [h.length, ← h.policy])
    exact .inr ⟨_, _, rfl, rfl, hR, hR', hin.trans h.left_inited, hin'.trans h.right_inited,
      by rw [hcont, hcont', h.length, h.contents], by rw [hpol, hpol', h.policy]⟩
  · exact .inl ⟨rfl, rfl⟩

/-- A response queued whole or dropped whole (R135) leaves them alike. -/
theorem Fifo.Twins.putSpan_getD (d : List Byte) :
    Fifo.Twins cap ((F.putSpan cap d).getD F) ((G.putSpan cap d).getD G) := by
  obtain ⟨hF, hG⟩ | ⟨F', G', hF, hG, hFG⟩ := h.putSpan d
  · simpa only [hF, hG, Option.getD_none] using h
  · simpa only [hF, hG, Option.getD_some] using hFG

end

/-! ### Two channels -/

/-- `Channel.Alike`, field by field. -/
theorem Channel.alike_iff {cap : Nat} {c d : Channel} :
    c.Alike cap d ↔ c.rxf.Alike cap d.rxf ∧ c.txf.Alike cap d.txf ∧ d.cfg = c.cfg ∧ d.tmr = c.tmr ∧
      d.wireOut = c.wireOut ∧ d.app = c.app := by
  constructor
  · rintro ⟨hrx, htx, hrest⟩
    rw [hrest]
    exact ⟨hrx, htx, rfl, rfl, rfl, rfl⟩
  · obtain ⟨cfg, rxf, txf, tmr, wireOut, app⟩ := d
    rintro ⟨hrx, htx, rfl, rfl, rfl, rfl⟩
    exact ⟨hrx, htx, rfl⟩

section
variable {cap : Nat} {c d : Channel} (h : c.Alike cap d)
include h

theorem Channel.Alike.cfg : d.cfg = c.cfg := by rw [h.rest]
theorem Channel.Alike.tmr : d.tmr = c.tmr := by rw [h.rest]
theorem Channel.Alike.wireOut : d.wireOut = c.wireOut := by rw [h.rest]
theorem Channel.Alike.app : d.app = c.app := by rw [h.rest]

theorem Channel.Alike.fifo (f : FifoSel) : (c.fifo f).Alike cap (d.fifo f) := by
  cases f
  exacts [h.rxf, h.txf]

theorem Channel.Alike.setFifo (f : FifoSel) {F G : Fifo} (hFG : F.Alike cap G) :
    (c.setFifo f F).Alike cap (d.setFifo f G) := by
  obtain ⟨hrx, htx, hrest⟩ := Channel.alike_iff.1 h
  cases f
  exacts [Channel.alike_iff.2 ⟨hFG, htx, hrest⟩, Channel.alike_iff.2 ⟨hrx, hFG, hrest⟩]

theorem Channel.Alike.setTimer (t : Timer) :
    Channel.Alike cap { c with tmr := t } { d with tmr := t } :=
  Channel.alike_iff.2 ⟨h.rxf, h.txf, h.cfg, rfl, h.wireOut, h.app⟩

theorem Channel.Alike.setWireOut (w : List Byte) :
    Channel.Alike cap { c with wireOut := w } { d with wireOut := w } :=
  Channel.alike_iff.2 ⟨h.rxf, h.txf, h.cfg, h.tmr, rfl, h.app⟩

theorem Channel.Alike.setApp (a : App) :
    Channel.Alike cap { c with app := a } { d with app := a } :=
  Channel.alike_iff.2 ⟨h.rxf, h.txf, h.cfg, h.tmr, h.wireOut, rfl⟩

theorem Channel.Alike.fire : c.fire.Alike cap d.fire :=
  Channel.alike_iff.2
    ⟨h.rxf.reset, h.txf, h.cfg, congrArg Timer.disarm h.tmr, h.wireOut, h.app⟩

theorem Channel.Alike.initFifos : c.initFifos.Alike cap d.initFifos :=
  Channel.alike_iff.2
    ⟨Fifo.Alike.refl cap _, Fifo.Alike.refl cap _, h.cfg, h.tmr, h.wireOut, h.app⟩

/-- `TMR_INIT` looks at the timer and the timer slot alone (R100). -/
theorem Channel.Alike.tmrInit (now : Time) :
    (c.tmrInit now = none ∧ d.tmrInit now = none) ∨
      ∃ c' d', c.tmrInit now = some c' ∧ d.tmrInit now = some d' ∧ c'.Alike cap d' := by
  simp only [Channel.tmrInit, h.tmr, h.cfg]
  split_ifs
  · exact .inr ⟨_, _, rfl, rfl, h⟩
  · exact .inr ⟨_, _, rfl, rfl, by simpa only [h.cfg] using h.setTimer (c.tmr.engage now)⟩
  · exact .inl ⟨rfl, rfl⟩

end

/-- `TICK` fires the same channels of both blocks and stops at the same place (R104). -/
theorem fireDue_alike {cap : Nat} (now : Time) {l m : List Channel}
    (h : List.Forall₂ (Channel.Alike cap) l m) :
    List.Forall₂ (Channel.Alike cap) (fireDue now l).1 (fireDue now m).1 ∧
      (fireDue now m).2 = (fireDue now l).2 := by
  induction h with
  | nil => exact ⟨.nil, rfl⟩
  | @cons c d l m hcd hlm ih =>
    obtain ⟨hchans, hcount⟩ := ih
    unfold fireDue
    rw [hcd.tmr, ← hcd.rxf.inited]
    split_ifs
    · exact ⟨.cons hcd.fire hchans, by simp only [hcount]⟩
    · exact ⟨.cons hcd hlm, rfl⟩
    · exact ⟨.cons hcd hchans, by simp only [hcount]⟩

/-! ### Two blocks -/

section
variable {s u : State} (h : s.Alike u)
include h

theorem State.Alike.exists_eq : ∃ m, u = { s with chans := m } := ⟨_, h.rest⟩

theorem State.Alike.cfg_eq : u.cfg = s.cfg := by rw [h.rest]
theorem State.Alike.now_eq : u.now = s.now := by rw [h.rest]
theorem State.Alike.halted_eq : u.halted = s.halted := by rw [h.rest]
theorem State.Alike.faultCode_eq : u.faultCode = s.faultCode := by rw [h.rest]
theorem State.Alike.result_eq : u.result = s.result := by rw [h.rest]

/-- The channels of both blocks at one index: none, or two that are alike. -/
theorem State.Alike.channel (k : Nat) :
    (s.chans[k]? = none ∧ u.chans[k]? = none) ∨
      ∃ c d, s.chans[k]? = some c ∧ u.chans[k]? = some d ∧ c.Alike s.cfg.capacity d := by
  rcases Nat.lt_or_ge k s.chans.length with hk | hk
  · have hc := List.getElem?_eq_getElem hk
    have hd := List.getElem?_eq_getElem (l := u.chans) (h.length ▸ hk)
    exact .inr ⟨_, _, hc, hd, h.chans k _ _ hc hd⟩
  · exact .inl ⟨List.getElem?_eq_none hk, List.getElem?_eq_none (by rwa [h.length])⟩

theorem State.Alike.forall₂ :
    List.Forall₂ (Channel.Alike s.cfg.capacity) s.chans u.chans :=
  List.forall₂_iff_get.2 ⟨h.length.symm, fun k hk hk' =>
    h.chans k _ _ (List.getElem?_eq_getElem hk) (List.getElem?_eq_getElem hk')⟩

theorem State.Alike.setChans {l m : List Channel}
    (hlm : List.Forall₂ (Channel.Alike s.cfg.capacity) l m) :
    State.Alike { s with chans := l } { u with chans := m } where
  rest := congrArg (fun v : State => { v with chans := m }) h.rest
  length := hlm.length_eq.symm
  chans k c d hc hd := by
    obtain ⟨hk, rfl⟩ := List.getElem?_eq_some_iff.1 hc
    obtain ⟨hk', rfl⟩ := List.getElem?_eq_some_iff.1 hd
    exact hlm.get hk hk'

theorem State.Alike.setChannel (k : Nat) {c d : Channel} (hcd : c.Alike s.cfg.capacity d) :
    State.Alike { s with chans := s.chans.set k c } { u with chans := u.chans.set k d } where
  rest := congrArg (fun v : State => { v with chans := u.chans.set k d }) h.rest
  length := by simpa using h.length
  chans j a b ha hb := by
    obtain ⟨rfl, rfl⟩ | ⟨hne, ha⟩ := getElem?_set_cases ha
    · obtain ⟨-, rfl⟩ | ⟨hne, -⟩ := getElem?_set_cases hb
      · exact hcd
      · exact absurd rfl hne
    · obtain ⟨rfl, -⟩ | ⟨-, hb⟩ := getElem?_set_cases hb
      · exact absurd rfl hne
      · exact h.chans j a b ha hb

theorem State.Alike.setNow (now : Time) :
    State.Alike { s with now := now } { u with now := now } :=
  ⟨congrArg (fun v : State => { v with now := now }) h.rest, h.length, h.chans⟩

theorem State.Alike.answered (r : Result) : (s.answered r).Alike (u.answered r) :=
  ⟨congrArg (State.answered · r) h.rest, h.length, h.chans⟩

theorem State.Alike.faulted (code : FaultCode) : (s.faulted code).Alike (u.faulted code) :=
  ⟨congrArg (State.faulted · code) h.rest, h.length, h.chans⟩

theorem State.Alike.committed (ch : Byte) {c d : Channel} (hcd : c.Alike s.cfg.capacity d)
    (r : Result) : (s.committed ch c r).Alike (u.committed ch d r) :=
  (h.setChannel ch.toNat hcd).answered r

end

/-! ### Two outcomes, check by check -/

/-- Where the first outcome is a next state, the second is one too, and the two are alike. -/
def AlikeOutcomes (o p : Outcome) : Prop := ∀ t, o = .next t → ∃ v, p = .next v ∧ t.Alike v

theorem AlikeOutcomes.of_next {t v : State} (h : t.Alike v) :
    AlikeOutcomes (.next t) (.next v) := by
  intro t' ht
  obtain rfl := Host.Outcome.next.inj ht
  exact ⟨v, rfl, h⟩

section
variable {s u : State} (h : s.Alike u)
include h

theorem State.Alike.answer (r : Result) : AlikeOutcomes (answer s r) (answer u r) :=
  .of_next (h.answered r)

theorem State.Alike.raiseFault (code : FaultCode) :
    AlikeOutcomes (raiseFault s code) (raiseFault u code) := .of_next (h.faulted code)

theorem State.Alike.commit (ch : Byte) {c d : Channel} (hcd : c.Alike s.cfg.capacity d)
    (r : Result) : AlikeOutcomes (commit s ch c r) (commit u ch d r) :=
  .of_next (h.committed ch hcd r)

/-- `TICK` reads no Ring Buffer but for `inited` (R104). -/
theorem execTick_alike (ch : Byte) : AlikeOutcomes (execTick ch s) (execTick ch u) := by
  obtain ⟨hchans, hcount⟩ := fireDue_alike (s.now + 1#32) h.forall₂
  have hticked := (h.setNow (s.now + 1#32)).setChans hchans
  obtain ⟨m, rfl⟩ := h.exists_eq
  simp only [execTick, hcount]
  split_ifs
  · exact (h.setNow _).answer _
  · exact hticked.raiseFault _
  · exact hticked.answer _

/-- A dispatch hands both applications the same payload and queues the same response (R133, R135). -/
theorem dispatchFrame_alike (ch : Byte) {c d : Channel} (hcd : c.Alike s.cfg.capacity d)
    (htx : Fifo.Twins s.cfg.capacity c.txf d.txf) (e : TableEntry) (fr : List Byte) :
    AlikeOutcomes (dispatchFrame s ch c e fr) (dispatchFrame u ch d e fr) := by
  simp only [dispatchFrame, h.cfg_eq, hcd.app]
  exact h.commit ch ((hcd.setFifo .tx (htx.putSpan_getD _).alike).setApp _) _

/-- The same candidate frame is taken from both and passes or fails validation in both (R130). -/
theorem consumeFrame_alike (ch : Byte) {c d : Channel} (hcd : c.Alike s.cfg.capacity d)
    (hrx : Fifo.Twins s.cfg.capacity c.rxf d.rxf) (htx : Fifo.Twins s.cfg.capacity c.txf d.txf)
    {e : TableEntry} (hl : frameLength e ≤ c.rxf.length) :
    AlikeOutcomes (consumeFrame s ch c e) (consumeFrame u ch d e) := by
  obtain ⟨hbytes, hrest⟩ := hrx.takeAll hl
  have htaken := hcd.setFifo .rx hrest.alike
  simp only [consumeFrame, h.cfg_eq, hbytes]
  split_ifs
  · exact dispatchFrame_alike h ch htaken htx e _
  · exact h.commit ch htaken _

theorem State.Alike.unlessHalted {k k' : Outcome} (hk : AlikeOutcomes k k') :
    AlikeOutcomes (unlessHalted s k) (unlessHalted u k') := by
  unfold Machine.unlessHalted
  rw [h.halted_eq, h.faultCode_eq]
  split_ifs
  · exact h.answer _
  · exact hk

theorem State.Alike.whenInited {a b : Bool} (hab : a = b) {k k' : Outcome}
    (hk : a = true → AlikeOutcomes k k') : AlikeOutcomes (whenInited s a k) (whenInited u b k') := by
  subst hab
  cases a with
  | false => exact h.raiseFault _
  | true => exact hk rfl

end

section
variable {s u : State} (h : s.Alike u) (hs : s.wf = true) (hu : u.wf = true)
include h hs hu

/-- Checks 1 and 3: the channels the operation continues with are alike, and so are their Ring
Buffers in use. -/
theorem State.Alike.onChannel {ch : Byte} {k k' : Channel → Outcome}
    (hk : ∀ c d, c.Alike s.cfg.capacity d →
      (∀ f, (c.fifo f).inited = true → Fifo.Twins s.cfg.capacity (c.fifo f) (d.fifo f)) →
      AlikeOutcomes (k c) (k' d)) :
    AlikeOutcomes (onChannel s ch k) (onChannel u ch k') := by
  refine h.unlessHalted ?_
  obtain ⟨hc, hd⟩ | ⟨c, d, hc, hd, hcd⟩ := h.channel ch.toNat
  · rw [hc, hd]
    exact h.raiseFault _
  · have hcwf := State.channel_wf hs hc
    have hdwf := State.channel_wf hu hd
    rw [h.cfg_eq] at hdwf
    rw [hc, hd]
    exact hk c d hcd fun f => (hcd.fifo f).twins (Channel.wf_fifo hcwf f) (Channel.wf_fifo hdwf f)

/-- Checks 1, 3 and 5 of a FIFO operation. -/
theorem State.Alike.onFifo {f : FifoSel} {ch : Byte} {k k' : Channel → Fifo → Outcome}
    (hk : ∀ c d, c.Alike s.cfg.capacity d → Fifo.Twins s.cfg.capacity (c.fifo f) (d.fifo f) →
      AlikeOutcomes (k c (c.fifo f)) (k' d (d.fifo f))) :
    AlikeOutcomes (onFifo s f ch k) (onFifo u f ch k') :=
  h.onChannel hs hu fun c d hcd htwins =>
    h.whenInited (hcd.fifo f).inited fun hi => hk c d hcd (htwins f hi)

/-- Ring Buffers that meet R16 are addressable, so the storage checks pass in both. -/
theorem State.Alike.onStorage {f : FifoSel} {ch : Byte} {k k' : Channel → Fifo → Outcome}
    (hk : ∀ c d, c.Alike s.cfg.capacity d → Fifo.Twins s.cfg.capacity (c.fifo f) (d.fifo f) →
      AlikeOutcomes (k c (c.fifo f)) (k' d (d.fifo f))) :
    AlikeOutcomes (onStorage s f ch k) (onStorage u f ch k') :=
  h.onFifo hs hu fun c d hcd htwins => by
    rw [h.cfg_eq, htwins.left.addressable, htwins.right.addressable]
    exact hk c d hcd htwins

/-! ### The operations, each from its checks and what it does to a Ring Buffer -/

/-- `TMR_INIT` on both channels comes to the same (R100). -/
theorem execTmrInit_alike (ch : Byte) : AlikeOutcomes (execTmrInit ch s) (execTmrInit ch u) := by
  refine h.onChannel hs hu fun c d hcd _ => ?_
  rw [h.now_eq]
  obtain ⟨hc, hd⟩ | ⟨c', d', hc, hd, hcd'⟩ := hcd.tmrInit s.now
  · simpa only [hc, hd] using h.raiseFault _
  · simpa only [hc, hd] using h.commit ch hcd' _

/-- `CH_INIT` overwrites both Ring Buffers (R145). -/
theorem execChInit_alike (ch : Byte) : AlikeOutcomes (execChInit ch s) (execChInit ch u) := by
  refine h.onChannel hs hu fun c d hcd _ => ?_
  have hunslotted := (h.setChannel ch.toNat hcd.initFifos).raiseFault .timerAllocFail
  have htimer := hcd.initFifos.tmrInit s.now
  obtain ⟨m, rfl⟩ := h.exists_eq
  simp only [hcd.cfg]
  split_ifs
  · obtain ⟨hc, hd⟩ | ⟨c', d', hc, hd, hcd'⟩ := htimer
    · simpa only [hc, hd] using hunslotted
    · simpa only [hc, hd] using h.commit ch hcd' _
  · exact h.raiseFault _

/-- `RXBYTE` arms the timer whether the byte was queued or not (R147). -/
theorem execRxByte_alike (ch b : Byte) : AlikeOutcomes (execRxByte ch b s) (execRxByte ch b u) := by
  refine h.onChannel hs hu fun c d hcd htwins =>
    h.whenInited (by rw [hcd.rxf.inited, hcd.tmr]) fun hi => ?_
  obtain ⟨hrx, -⟩ := Bool.and_eq_true_iff.1 hi
  have hring : Fifo.Twins s.cfg.capacity c.rxf d.rxf := htwins .rx hrx
  have harmed := hcd.setTimer (c.tmr.arm s.now s.cfg.idleDelay)
  simp only [h.cfg_eq, h.now_eq, hring.left.addressable, hring.right.addressable,
    whenAddressable_true]
  rw [hcd.tmr]
  obtain ⟨hF, hG⟩ | ⟨F', G', hF, hG, hFG⟩ := hring.put b
  · simpa only [hF, hG] using h.commit ch harmed _
  · simp only [hF, hG]
    exact h.commit ch (harmed.setFifo .rx hFG.alike) _

/-- `PUMP` moves the oldest bytes of equal queues (R148). -/
theorem execPump_alike (ch : Byte) (k : Half) :
    AlikeOutcomes (execPump ch k s) (execPump ch k u) := by
  refine h.onChannel hs hu fun c d hcd htwins => h.whenInited hcd.txf.inited fun hi => ?_
  have hring : Fifo.Twins s.cfg.capacity c.txf d.txf := htwins .tx hi
  obtain ⟨hbytes, hrest⟩ := hring.takeAll (Nat.min_le_right k.toNat c.txf.length)
  simp only [h.cfg_eq, hring.left.addressable, hring.right.addressable, whenAddressable_true,
    hring.length, hbytes, hcd.wireOut]
  exact h.commit ch ((hcd.setFifo .tx hrest.alike).setWireOut _) _

/-- `FP_PROCESS`: the phase is a function of the queued bytes and the table (R126). -/
theorem execFpProcess_alike (ch : Byte) :
    AlikeOutcomes (execFpProcess ch s) (execFpProcess ch u) := by
  refine h.onChannel hs hu fun c d hcd htwins =>
    h.whenInited (by rw [hcd.rxf.inited, hcd.txf.inited]) fun hi => ?_
  obtain ⟨hirx, hitx⟩ := Bool.and_eq_true_iff.1 hi
  have hrx : Fifo.Twins s.cfg.capacity c.rxf d.rxf := htwins .rx hirx
  have htx : Fifo.Twins s.cfg.capacity c.txf d.txf := htwins .tx hitx
  have hsame : phaseOf d.cfg.table (d.rxf.contents s.cfg.capacity) =
      phaseOf c.cfg.table (c.rxf.contents s.cfg.capacity) := by rw [hcd.cfg, hrx.contents]
  simp only [h.cfg_eq, hrx.left.addressable, hrx.right.addressable, htx.left.addressable,
    htx.right.addressable, Bool.and_self, whenAddressable_true, hsame]
  obtain ⟨hunknown, hvalid⟩ := @phaseOf_length c.cfg.table (c.rxf.contents s.cfg.capacity)
  rw [Fifo.contents_length] at hunknown hvalid
  cases hphase : phaseOf c.cfg.table (c.rxf.contents s.cfg.capacity) with
  | awaitingTag | awaitingPayload | awaitingChecksum => exact h.answer _
  | unknownTag =>
    have hl := hunknown hphase
    exact h.commit ch (hcd.setFifo .rx (hrx.oldest_dropped (by omega)).2.alike) _
  | validating e => exact consumeFrame_alike h ch hcd hrx htx (hvalid e hphase)

/-- Every operation, performed on two blocks that are alike, leaves them alike (R17). -/
theorem exec_alike (i : Instr) : AlikeOutcomes (exec i s) (exec i u) := by
  cases i with
  | fifoInit f ch =>
    exact h.onChannel hs hu fun c d hcd _ => h.commit ch (hcd.setFifo f (.refl _ _)) _
  | fifoReset f ch =>
    simp only [exec, execFifoReset]
    exact h.onFifo hs hu fun c d hcd hring => h.commit ch (hcd.setFifo f hring.alike.reset) _
  | fifoSetOvw f ch b =>
    refine h.onChannel hs hu fun c d hcd _ => ?_
    cases policyOf b with
    | none => exact h.raiseFault _
    | some policy =>
      exact h.whenInited (hcd.fifo f).inited fun _ =>
        h.commit ch (hcd.setFifo f ((hcd.fifo f).setOverwrite policy)) _
  | put f ch b =>
    simp only [exec, execPut]
    refine h.onStorage hs hu fun c d hcd hring => ?_
    rw [h.cfg_eq]
    obtain ⟨hF, hG⟩ | ⟨F', G', hF, hG, hFG⟩ := hring.put b
    · simpa only [hF, hG] using h.answer _
    · simpa only [hF, hG] using h.commit ch (hcd.setFifo f hFG.alike) _
  | putSpan f ch bytes =>
    simp only [exec, execPutSpan]
    refine h.onStorage hs hu fun c d hcd hring => ?_
    rw [h.cfg_eq]
    obtain ⟨hF, hG⟩ | ⟨F', G', hF, hG, hFG⟩ := hring.putSpan bytes
    · simpa only [hF, hG] using h.answer _
    · simpa only [hF, hG] using h.commit ch (hcd.setFifo f hFG.alike) _
  | get f ch =>
    simp only [exec, execGet]
    refine h.onStorage hs hu fun c d hcd hring => ?_
    rw [h.cfg_eq]
    obtain ⟨hF, hG⟩ | ⟨b, F', G', hF, hG, hFG⟩ := hring.get
    · simpa only [hF, hG] using h.answer _
    · simpa only [hF, hG] using h.commit ch (hcd.setFifo f hFG.alike) _
  | peek f ch =>
    simp only [exec, execPeek]
    refine h.onStorage hs hu fun c d _ hring => ?_
    rw [hring.peek]
    cases (c.fifo f).peek with
    | none => exact h.answer _
    | some b => exact h.answer _
  | getSpan f ch n =>
    simp only [exec, execGetSpan]
    refine h.onStorage hs hu fun c d hcd hring => ?_
    rw [h.cfg_eq]
    obtain ⟨hF, hG⟩ | ⟨bs, F', G', hF, hG, hFG⟩ := hring.getSpan n.toNat
    · simpa only [hF, hG] using h.answer _
    · simpa only [hF, hG] using h.commit ch (hcd.setFifo f hFG.alike) _
  | size f ch =>
    simp only [exec, execSize]
    refine h.onFifo hs hu fun c d _ hring => ?_
    rw [hring.length]
    exact h.answer _
  | tmrInit ch => exact execTmrInit_alike h hs hu ch
  | tmrArm ch delay =>
    refine h.onChannel hs hu fun c d hcd _ => ?_
    split_ifs
    · refine h.whenInited (by rw [hcd.tmr]) fun _ => ?_
      rw [h.now_eq, hcd.tmr]
      exact h.commit ch (hcd.setTimer _) _
    · exact h.raiseFault _
  | tmrCancel ch =>
    refine h.onChannel hs hu fun c d hcd _ => h.whenInited (by rw [hcd.tmr]) fun _ => ?_
    rw [h.now_eq, hcd.tmr]
    exact h.commit ch (hcd.setTimer _) _
  | tick ch => exact execTick_alike h ch
  | crc16 ch seed d =>
    refine h.unlessHalted ?_
    rw [h.cfg_eq]
    exact h.answer _
  | fpProcess ch => exact execFpProcess_alike h hs hu ch
  | chInit ch => exact execChInit_alike h hs hu ch
  | rxByte ch b => exact execRxByte_alike h hs hu ch b
  | pump ch k => exact execPump_alike h hs hu ch k

end

end Sys2Proof.Machine

namespace Sys2Proof
open Machine

/-- Settles O28: the next states are alike (`exec_alike`), and blocks that are alike hold the same
result. -/
theorem ringBufferIsItsQueue : Obligations.RingBufferIsItsQueue := by
  intro i s u t hs hu h hexec
  obtain ⟨v, hv, hAlike⟩ := exec_alike h hs hu i t hexec
  exact ⟨v, hv, hAlike.result_eq, hAlike⟩

end Sys2Proof
end

section
/-! Proofs about what two channels share (R54) and about a step (R48, R49).  An operation changes its
own channel and the halt record only (`exec_frame`); on two blocks that agree on that channel, the
parameters, `now` and the halt record it answers alike and leaves them so (`exec_agreeOn`).  That
operations on different channels commute follows from these two. -/

namespace Sys2Proof.Machine

/-! ### What an operation on a channel leaves unchanged -/

theorem ne_tick_of_channelOf {i : Instr} {ch : Byte} (hi : channelOf i = some ch) :
    ∀ ch', i ≠ .tick ch' := by
  rintro ch' rfl
  cases hi

/-- An operation on a channel changes no other channel and not the queue of requests. -/
theorem exec_frame {i : Instr} {ch : Byte} {s t : State} (hi : channelOf i = some ch)
    (h : exec i s = .next t) :
    t.requests = s.requests ∧ t.chans.length = s.chans.length ∧
      ∀ k, k ≠ ch.toNat → t.chans[k]? = s.chans[k]? := by
  have hset : ∀ (ch' : Byte) (c : Channel), channelOf i = some ch' →
      (s.chans.set ch'.toNat c).length = s.chans.length ∧
        ∀ k, k ≠ ch.toNat → (s.chans.set ch'.toNat c)[k]? = s.chans[k]? := by
    intro ch' c hch'
    obtain rfl : ch = ch' := Option.some.inj (hi.symm.trans hch')
    exact ⟨List.length_set, fun k hk => List.getElem?_set_ne hk.symm⟩
  cases exec_channelOutcome (ne_tick_of_channelOf hi) h with
  | answered _ h | faulted _ _ h =>
    subst h
    exact ⟨rfl, rfl, fun _ _ => rfl⟩
  | committed ch' _ c _ hch' _ _ h | unslotted ch' _ c hch' _ _ h =>
    subst h
    exact ⟨rfl, hset ch' c hch'⟩

/-- An operation on a channel that raises no fault leaves the halt record as it was. -/
theorem exec_faultCode {i : Instr} {ch : Byte} {s t : State} (hi : channelOf i = some ch)
    (h : exec i s = .next t) (hhalted : t.halted = s.halted) : t.faultCode = s.faultCode := by
  cases exec_channelOutcome (ne_tick_of_channelOf hi) h with
  | answered _ h | committed _ _ _ _ _ _ _ h => rw [h]; rfl
  | faulted _ hs h => simp [h, hs] at hhalted
  | unslotted _ _ _ _ hc _ h => simp [h, hc.1] at hhalted

/-! ### Two blocks that agree on what an operation on a channel reads -/

/-- The two blocks have the same parameters, `now`, halt record and channel `ch` (R54). -/
structure State.AgreeOn (ch : Byte) (s u : State) : Prop where
  cfg : u.cfg = s.cfg
  now : u.now = s.now
  halted : u.halted = s.halted
  faultCode : u.faultCode = s.faultCode
  channel : u.chans[ch.toNat]? = s.chans[ch.toNat]?

/-- Where the first outcome is a next state, the second is one too, with the same result, and the two
agree on channel `ch`. -/
def AgreeingOutcomes (ch : Byte) (o p : Outcome) : Prop :=
  ∀ t, o = .next t → ∃ v, p = .next v ∧ v.result = t.result ∧ t.AgreeOn ch v

theorem AgreeingOutcomes.of_next {ch : Byte} {t v : State} (hresult : v.result = t.result)
    (h : t.AgreeOn ch v) : AgreeingOutcomes ch (.next t) (.next v) := by
  intro t' ht
  obtain rfl := Host.Outcome.next.inj ht
  exact ⟨v, rfl, hresult, h⟩

section
variable {ch : Byte} {s u : State} (h : s.AgreeOn ch u)
include h

theorem State.AgreeOn.setChannel (c : Channel) :
    State.AgreeOn ch { s with chans := s.chans.set ch.toNat c }
      { u with chans := u.chans.set ch.toNat c } :=
  { h with channel := by simp [List.getElem?_set_self', h.channel] }

theorem State.AgreeOn.answer (r : Result) : AgreeingOutcomes ch (answer s r) (answer u r) :=
  .of_next rfl ⟨h.cfg, h.now, h.halted, h.faultCode, h.channel⟩

theorem State.AgreeOn.raiseFault (code : FaultCode) :
    AgreeingOutcomes ch (raiseFault s code) (raiseFault u code) :=
  .of_next rfl ⟨h.cfg, h.now, rfl, rfl, h.channel⟩

theorem State.AgreeOn.commit (c : Channel) (r : Result) :
    AgreeingOutcomes ch (commit s ch c r) (commit u ch c r) :=
  (h.setChannel c).answer r

/-- Checks 1 and 3 read the halt record and the channel of the operation. -/
theorem State.AgreeOn.onChannel {k k' : Channel → Outcome}
    (hk : ∀ c, AgreeingOutcomes ch (k c) (k' c)) :
    AgreeingOutcomes ch (onChannel s ch k) (onChannel u ch k') := by
  unfold Machine.onChannel unlessHalted
  rw [h.halted, h.faultCode, h.channel]
  split_ifs
  · exact h.answer _
  · cases s.chans[ch.toNat]? with
    | none => exact h.raiseFault _
    | some c => exact hk c

theorem State.AgreeOn.whenInited (b : Bool) {k k' : Outcome} (hk : AgreeingOutcomes ch k k') :
    AgreeingOutcomes ch (whenInited s b k) (whenInited u b k') := by
  cases b with
  | false => exact h.raiseFault _
  | true => exact hk

omit h in
theorem AgreeingOutcomes.whenAddressable (b : Bool) {k k' : Outcome}
    (hk : AgreeingOutcomes ch k k') :
    AgreeingOutcomes ch (whenAddressable b k) (whenAddressable b k') := by
  cases b with
  | false => exact fun _ ht => nomatch ht
  | true => exact hk

theorem State.AgreeOn.onFifo {f : FifoSel} {k k' : Channel → Fifo → Outcome}
    (hk : ∀ c F, AgreeingOutcomes ch (k c F) (k' c F)) :
    AgreeingOutcomes ch (onFifo s f ch k) (onFifo u f ch k') :=
  h.onChannel fun c => h.whenInited _ (hk c _)

theorem State.AgreeOn.onStorage {f : FifoSel} {k k' : Channel → Fifo → Outcome}
    (hk : ∀ c F, AgreeingOutcomes ch (k c F) (k' c F)) :
    AgreeingOutcomes ch (onStorage s f ch k) (onStorage u f ch k') :=
  h.onFifo fun c F => by
    rw [h.cfg]
    exact .whenAddressable _ (hk c F)

/-- The handler oracle reads the application's state of its own channel only (R28, R133). -/
theorem consumeFrame_agreeOn (c : Channel) (e : TableEntry) :
    AgreeingOutcomes ch (consumeFrame s ch c e) (consumeFrame u ch c e) := by
  simp only [consumeFrame, dispatchFrame, h.cfg]
  split_ifs
  · exact h.commit _ _
  · exact h.commit _ _

theorem execFpProcess_agreeOn :
    AgreeingOutcomes ch (execFpProcess ch s) (execFpProcess ch u) := by
  refine h.onChannel fun c => h.whenInited _ ?_
  rw [h.cfg]
  refine .whenAddressable _ ?_
  cases phaseOf c.cfg.table (c.rxf.contents s.cfg.capacity) with
  | awaitingTag | awaitingPayload | awaitingChecksum => exact h.answer _
  | unknownTag => exact h.commit _ _
  | validating e => exact consumeFrame_agreeOn h c e

theorem execChInit_agreeOn : AgreeingOutcomes ch (execChInit ch s) (execChInit ch u) := by
  refine h.onChannel fun c => ?_
  have hunslotted := (h.setChannel c.initFifos).raiseFault .timerAllocFail
  rw [h.cfg, h.now] at hunslotted ⊢
  split_ifs
  · cases c.initFifos.tmrInit s.now with
    | none => exact hunslotted
    | some c' => exact h.commit _ _
  · exact h.raiseFault _

theorem execRxByte_agreeOn (b : Byte) :
    AgreeingOutcomes ch (execRxByte ch b s) (execRxByte ch b u) := by
  refine h.onChannel fun c => h.whenInited _ ?_
  rw [h.cfg, h.now]
  refine .whenAddressable _ ?_
  cases c.rxf.put s.cfg.capacity b with
  | none => exact h.commit _ _
  | some F => exact h.commit _ _

end

/-- An operation on channel `ch` reads nothing but that channel, the parameters, `now` and the halt
record (R54). -/
theorem exec_agreeOn {i : Instr} {ch : Byte} {s u : State} (hi : channelOf i = some ch)
    (h : s.AgreeOn ch u) : AgreeingOutcomes ch (exec i s) (exec i u) := by
  cases i <;> cases hi
  case fifoInit f => exact h.onChannel fun c => h.commit _ _
  case fifoReset f =>
    simp only [exec, execFifoReset]
    exact h.onFifo fun c F => h.commit _ _
  case fifoSetOvw f b =>
    refine h.onChannel fun c => ?_
    cases policyOf b with
    | none => exact h.raiseFault _
    | some policy => exact h.whenInited _ (h.commit _ _)
  case put | putSpan | get | getSpan =>
    simp only [exec, execPut, execPutSpan, execGet, execGetSpan]
    refine h.onStorage fun c F => ?_
    rw [h.cfg]
    split
    · exact h.answer _
    · exact h.commit _ _
  case peek f =>
    simp only [exec, execPeek]
    refine h.onStorage fun c F => ?_
    cases F.peek with
    | none => exact h.answer _
    | some b => exact h.answer _
  case size f =>
    simp only [exec, execSize]
    exact h.onFifo fun c F => h.answer _
  case tmrInit =>
    refine h.onChannel fun c => ?_
    rw [h.now]
    cases c.tmrInit s.now with
    | none => exact h.raiseFault _
    | some c' => exact h.commit _ _
  case tmrArm delay =>
    refine h.onChannel fun c => ?_
    rw [h.now]
    split_ifs
    · exact h.whenInited _ (h.commit _ _)
    · exact h.raiseFault _
  case tmrCancel =>
    refine h.onChannel fun c => ?_
    rw [h.now]
    exact h.whenInited _ (h.commit _ _)
  case fpProcess => exact execFpProcess_agreeOn h
  case chInit => exact execChInit_agreeOn h
  case rxByte b => exact execRxByte_agreeOn h b
  case pump k =>
    refine h.onChannel fun c => h.whenInited _ ?_
    rw [h.cfg]
    exact .whenAddressable _ (h.commit _ _)

/-! ### Two operations on different channels -/

theorem State.AgreeOn.symm {ch : Byte} {s u : State} (h : s.AgreeOn ch u) : u.AgreeOn ch s :=
  ⟨h.cfg.symm, h.now.symm, h.halted.symm, h.faultCode.symm, h.channel.symm⟩

theorem State.AgreeOn.trans {ch : Byte} {s u v : State} (h : s.AgreeOn ch u) (h' : u.AgreeOn ch v) :
    s.AgreeOn ch v :=
  ⟨h'.cfg.trans h.cfg, h'.now.trans h.now, h'.halted.trans h.halted,
    h'.faultCode.trans h.faultCode, h'.channel.trans h.channel⟩

/-- Blocks that agree on one channel, and hold the same channels and requests, differ in the last
result at most. -/
theorem State.AgreeOn.eq_but_result {ch : Byte} {s u : State} (h : s.AgreeOn ch u)
    (hchans : u.chans = s.chans) (hrequests : u.requests = s.requests) :
    u = { s with result := u.result } := by
  obtain ⟨hcfg, hnow, hhalted, hcode, -⟩ := h
  rw [← hcfg, ← hnow, ← hhalted, ← hcode, ← hchans, ← hrequests]

/-- An operation that raises no fault leaves all that an operation on another channel reads. -/
theorem agreeOn_of_exec {i : Instr} {ch ch' : Byte} {s t : State} (hi : channelOf i = some ch)
    (hne : ch ≠ ch') (h : exec i s = .next t) (hhalted : t.halted = s.halted) :
    s.AgreeOn ch' t := by
  obtain ⟨hcfg, -, -⟩ := exec_channels h
  obtain ⟨-, -, hothers⟩ := exec_frame hi h
  exact ⟨hcfg, exec_now (ne_tick_of_channelOf hi) h, hhalted, exec_faultCode hi h hhalted,
    hothers _ fun heq => hne (BitVec.eq_of_toNat_eq heq.symm)⟩

/-! ### A step -/

theorem step_idle {s : State} (hlegal : s.tablesLegal = true) (hnone : s.requests = []) :
    step s = .next s := by
  simp only [step, performNext, hlegal, if_true, fetchRequest, hnone]

theorem step_request {s : State} (hlegal : s.tablesLegal = true) {r : List Byte}
    {rest : List (List Byte)} {i : Instr} (hnext : s.requests = r :: rest)
    (hdecode : decode r = .request i) : step s = exec i { s with requests := rest } := by
  simp only [step, performNext, hlegal, if_true, fetchRequest, hnext, perform, hdecode]

end Sys2Proof.Machine

namespace Sys2Proof
open Machine

/-- Settles O53: `exec_now` and `exec_frame` say what the operation leaves unchanged, `exec_agreeOn`
what it reads. -/
theorem channelsAreIndependent : Obligations.ChannelsAreIndependent := by
  refine ⟨fun i ch s t hi h => ⟨exec_now (ne_tick_of_channelOf hi) h, exec_frame hi h⟩, ?_⟩
  intro i ch s u t hi hcfg hnow hhalted hcode hchannel h
  obtain ⟨v, hv, hresult, hagree⟩ := exec_agreeOn hi ⟨hcfg, hnow, hhalted, hcode, hchannel⟩ t h
  exact ⟨v, hv, hresult, hagree.halted, hagree.faultCode, hagree.channel⟩

/-- Settles O54: neither operation touches what the other reads (`agreeOn_of_exec`), so each answers
after the other as it does alone (`exec_agreeOn`); the two orders leave the same at both channels by
that, and at every other index by `exec_frame`. -/
theorem operationsOnChannelsCommute : Obligations.OperationsOnChannelsCommute := by
  intro i j ch ch' s t u hi hj hne ht hu hti huj
  have hst : s.AgreeOn ch' t := agreeOn_of_exec hi hne ht hti
  have hsu : s.AgreeOn ch u := agreeOn_of_exec hj hne.symm hu huj
  obtain ⟨v, hv, hvResult, huv⟩ := exec_agreeOn hj hst u hu
  obtain ⟨w, hw, hwResult, htw⟩ := exec_agreeOn hi hsu t ht
  have htv : t.AgreeOn ch v :=
    agreeOn_of_exec hj hne.symm hv (huv.halted.trans (huj.trans hti.symm))
  have huw : u.AgreeOn ch' w := agreeOn_of_exec hi hne hw (htw.halted.trans (hti.trans huj.symm))
  have hwv : w.AgreeOn ch v := htw.symm.trans htv
  have hwv' : w.AgreeOn ch' v := huw.symm.trans huv
  obtain ⟨htRequests, -, htOthers⟩ := exec_frame hi ht
  obtain ⟨huRequests, -, huOthers⟩ := exec_frame hj hu
  obtain ⟨hvRequests, -, hvOthers⟩ := exec_frame hj hv
  obtain ⟨hwRequests, -, hwOthers⟩ := exec_frame hi hw
  have hchans : v.chans = w.chans := by
    refine List.ext_getElem? fun k => ?_
    by_cases hk : k = ch.toNat
    · exact hk ▸ hwv.channel
    by_cases hk' : k = ch'.toNat
    · exact hk' ▸ hwv'.channel
    · rw [hvOthers k hk', htOthers k hk, hwOthers k hk, huOthers k hk']
  have hrequests : v.requests = w.requests := by
    rw [hvRequests, htRequests, hwRequests, huRequests]
  exact ⟨v, w, hv, hw, hvResult, hwResult, hwv.eq_but_result hchans hrequests⟩

/-- Settles O5: the two equations of a step, `step_idle` and `step_request`. -/
theorem stepPerformsTheNextRequest : Obligations.StepPerformsTheNextRequest :=
  fun _ hlegal => ⟨step_idle hlegal, fun _ _ _ => step_request hlegal⟩

end Sys2Proof
end

section
/-! Proofs about the request encoding (R67, R69, R70): operands are read back as they are written, and
what is read is written back, so that decoder and encoder undo one another; which opcode bytes and operand
values are reserved. -/

namespace Sys2Proof

/-! ### The opcode byte of an operation -/

/-- The opcode byte of the operation of a row (R69); outside the FIFO group there is no FIFO select. -/
def opcodeByte (f : FifoSel) : Op → Byte
  | .fifoInit => fifoOpcode 0x00 f
  | .fifoReset => fifoOpcode 0x01 f
  | .fifoSetOvw => fifoOpcode 0x02 f
  | .put => fifoOpcode 0x03 f
  | .putSpan => fifoOpcode 0x04 f
  | .get => fifoOpcode 0x05 f
  | .peek => fifoOpcode 0x06 f
  | .getSpan => fifoOpcode 0x07 f
  | .size => fifoOpcode 0x08 f
  | .tmrInit => 0x20
  | .tmrArm => 0x21
  | .tmrCancel => 0x22
  | .tick => 0x23
  | .crc16 => 0x30
  | .fpProcess => 0x40
  | .chInit => 0x50
  | .rxByte => 0x51
  | .pump => 0x52

/-- The opcode byte of an operation belongs to the operation's row. -/
theorem rowOf_opcodeByte (f : FifoSel) (op : Op) :
    ∃ row, rowOf (opcodeByte f op) = some row ∧ row.op = op := by
  cases f <;> cases op <;> exact ⟨_, rfl, rfl⟩

/-- In the FIFO group the opcode byte is the row's pattern with the FIFO select, elsewhere the pattern. -/
theorem opcodeByte_of_mem (f : FifoSel) : ∀ row ∈ opcodeMap,
    row.mask = 0xEF ∧ opcodeByte f row.op = fifoOpcode row.pat f ∨
      row.mask = 0xFF ∧ opcodeByte f row.op = row.pat := by
  cases f <;> decide

/-- A byte that has a row is the opcode byte of its row's operation and its own FIFO select. -/
theorem opcodeByte_of_rowOf {byte0 : Byte} {row : OpcodeRow} (h : rowOf byte0 = some row) :
    opcodeByte (selOf byte0) row.op = byte0 := by
  obtain ⟨hfifo, hother⟩ := row_byte byte0 row h
  obtain ⟨hmask, hbyte⟩ | ⟨hmask, hbyte⟩ :=
    opcodeByte_of_mem (selOf byte0) row (List.mem_of_find?_eq_some h)
  · rw [hbyte, ← hfifo hmask]
  · rw [hbyte, ← hother hmask]

/-- Bit 4 of the opcode byte is the FIFO select (R67), where the function leaves it 0. -/
theorem selOf_fifoOpcode {fn : Byte} (hfn : fn.getLsbD 4 = false) (f : FifoSel) :
    selOf (fifoOpcode fn f) = f := by
  cases f
  · rw [fifoOpcode, selOf, hfn]
    rfl
  · rw [fifoOpcode, selOf, BitVec.getLsbD_or, hfn]
    rfl

/-! ### Operands -/

/-- What is read as operands is written back as them: `readOperands` undone, format by format. -/
theorem encode_of_readOperands {op : Op} {f : FifoSel} {ch : Byte} {args : List Byte} {i : Instr}
    (h : readOperands op f ch args = some i) :
    encode i = opcodeByte f op :: ch :: args ∧ i.WellFormed = true := by
  cases op with
  | fifoInit | fifoReset | get | peek | size | tmrInit | tmrCancel | tick | fpProcess | chInit =>
    obtain ⟨rfl, rfl⟩ := argsZ_some h
    exact ⟨rfl, rfl⟩
  | fifoSetOvw | put | rxByte =>
    obtain ⟨b, rfl, rfl⟩ := argsB_some h
    exact ⟨rfl, rfl⟩
  | getSpan | pump =>
    obtain ⟨n, rfl, rfl⟩ := argsN_some h
    exact ⟨rfl, rfl⟩
  | tmrArm =>
    obtain ⟨delay, rfl, rfl⟩ := argsD_some h
    exact ⟨rfl, rfl⟩
  | putSpan =>
    obtain ⟨d, rfl, hd, rfl⟩ := argsS_some h
    exact ⟨rfl, decide_eq_true hd⟩
  | crc16 =>
    obtain ⟨seed, d, rfl, hd, rfl⟩ := argsK_some h
    exact ⟨rfl, decide_eq_true hd⟩

/-- A well-formed operation is written as its opcode byte, a channel byte and operand bytes, which are
read back as that operation. -/
theorem exists_readOperands_encode {i : Instr} (hi : i.WellFormed = true) :
    ∃ f g ch args, encode i = opcodeByte f i.op :: ch :: args ∧ selOf (opcodeByte f i.op) = g ∧
      readOperands i.op g ch args = some i := by
  cases i with
  | fifoInit f ch | fifoReset f ch | fifoSetOvw f ch | put f ch | get f ch | peek f ch | size f ch =>
    exact ⟨f, f, ch, _, rfl, selOf_fifoOpcode rfl f, rfl⟩
  | getSpan f ch n => exact ⟨f, f, ch, _, rfl, selOf_fifoOpcode rfl f, argsN_le16 _ n⟩
  | putSpan f ch d =>
    exact ⟨f, f, ch, _, rfl, selOf_fifoOpcode rfl f, argsS_span _ (of_decide_eq_true hi)⟩
  | tmrInit ch | tmrCancel ch | tick ch | fpProcess ch | chInit ch | rxByte ch =>
    exact ⟨.rx, _, ch, _, rfl, rfl, rfl⟩
  | tmrArm ch delay => exact ⟨.rx, _, ch, _, rfl, rfl, argsD_le32 _ delay⟩
  | pump ch k => exact ⟨.rx, _, ch, _, rfl, rfl, argsN_le16 _ k⟩
  | crc16 ch seed d =>
    exact ⟨.rx, _, ch, _, rfl, rfl, argsK_span _ seed (of_decide_eq_true hi)⟩

/-! ### The decoder -/

/-- A sequence decodes to an operation exactly when byte 0 has a row and the rest is read as operands. -/
theorem decode_eq_request_iff {r : List Byte} {i : Instr} :
    decode r = .request i ↔ ∃ byte0 ch args row, r = byte0 :: ch :: args ∧ rowOf byte0 = some row ∧
      readOperands row.op (selOf byte0) ch args = some i := by
  constructor
  · intro h
    match r with
    | [] | [_] => cases h
    | byte0 :: ch :: args =>
      cases hrow : rowOf byte0 with
      | none => simp [decode, hrow] at h
      | some row =>
        rw [decode_row hrow] at h
        cases hread : readOperands row.op (selOf byte0) ch args with
        | none => simp [hread] at h
        | some j =>
          simp only [hread, Decoded.request.injEq] at h
          exact ⟨byte0, ch, args, row, rfl, hrow, h ▸ hread⟩
  · rintro ⟨byte0, ch, args, row, rfl, hrow, hread⟩
    rw [decode_row hrow, hread]

theorem decode_eq_reserved_iff (byte0 ch : Byte) (args : List Byte) :
    decode (byte0 :: ch :: args) = .reservedOpcode byte0 ↔ rowOf byte0 = none := by
  cases hrow : rowOf byte0 with
  | none => simp [decode, hrow]
  | some row =>
    rw [decode_row hrow]
    cases readOperands row.op (selOf byte0) ch args <;> simp

/-- The bytes without a row, by ranges (R70). -/
theorem rowOf_eq_none_iff : ∀ byte0 : Byte, rowOf byte0 = none ↔
    (0x09 ≤ byte0.toNat ∧ byte0.toNat ≤ 0x0F) ∨ (0x19 ≤ byte0.toNat ∧ byte0.toNat ≤ 0x1F) ∨
      (0x24 ≤ byte0.toNat ∧ byte0.toNat ≤ 0x2F) ∨ (0x31 ≤ byte0.toNat ∧ byte0.toNat ≤ 0x3F) ∨
      (0x41 ≤ byte0.toNat ∧ byte0.toNat ≤ 0x4F) ∨ (0x53 ≤ byte0.toNat ∧ byte0.toNat ≤ 0x5F) ∨
      0x60 ≤ byte0.toNat := by
  decide +kernel

/-- Settles O1: byte 0 of the request belongs to the operation's row (`rowOf_opcodeByte`), whose format
reads the operands back (`exists_readOperands_encode`). -/
theorem decodeOfEncode : Obligations.DecodeOfEncode := by
  intro i hi
  obtain ⟨f, g, ch, args, hencode, rfl, hread⟩ := exists_readOperands_encode hi
  obtain ⟨row, hrow, hop⟩ := rowOf_opcodeByte f i.op
  exact decode_eq_request_iff.2 ⟨_, ch, args, row, hencode, hrow, hop ▸ hread⟩

/-- Settles O2: what is read is written back (`encode_of_readOperands`), and byte 0 is the opcode byte
of the operation it was read as (`opcodeByte_of_rowOf`). -/
theorem encodeOfDecode : Obligations.EncodeOfDecode := by
  intro r i h
  obtain ⟨byte0, ch, args, row, rfl, hrow, hread⟩ := decode_eq_request_iff.1 h
  obtain ⟨hencode, hwf⟩ := encode_of_readOperands hread
  exact ⟨by rw [hencode, opcodeByte_of_rowOf hrow], hwf⟩

/-- Settles O3: each sequence is the request of its operation, so `decodeOfEncode` gives it back. -/
theorem requestsOfTheVectors : Obligations.RequestsOfTheVectors :=
  ⟨decodeOfEncode (.put .rx 0 0x41) rfl, decodeOfEncode (.fifoSetOvw .rx 0 2) rfl,
    decodeOfEncode (.getSpan .tx 0 300) rfl,
    decodeOfEncode (.putSpan .rx 0 [0x61, 0x62, 0x63, 0x64, 0x65, 0x66]) rfl,
    decodeOfEncode (.tmrArm 0 2147483647) rfl, decodeOfEncode (.tick 0) rfl,
    decodeOfEncode (.crc16 0 0xFFFF [0x00]) rfl, decodeOfEncode (.chInit 0) rfl,
    decodeOfEncode (.pump 0 4) rfl, decodeOfEncode (.fpProcess 0) rfl⟩

end Sys2Proof

namespace Sys2Proof.Machine

/-! ### A step on a reserved opcode, and on no request -/

theorem step_perform {s : State} (hlegal : s.tablesLegal = true) {r : List Byte}
    {rest : List (List Byte)} (hnext : s.requests = r :: rest) :
    step s = perform r { s with requests := rest } := by
  simp only [step, performNext, hlegal, if_true, fetchRequest, hnext]

theorem perform_reserved {s : State} {r : List Byte} {op : Byte} (hs : s.halted = false)
    (h : decode r = .reservedOpcode op) : perform r s = .next (s.faulted .illegalRequest) := by
  simp only [perform, h]
  exact unlessHalted_running hs _

/-- What is neither the request of a well-formed operation nor has a reserved opcode is refused. -/
theorem perform_malformed {r : List Byte} (hencode : ∀ i : Instr, i.WellFormed = true → encode i ≠ r)
    (hreserved : ∀ op, decode r ≠ .reservedOpcode op) (s : State) :
    perform r s = .refused .malformedRequest := by
  cases h : decode r with
  | request i =>
    obtain ⟨heq, hwf⟩ := encodeOfDecode r i h
    exact absurd heq (hencode i hwf)
  | reservedOpcode op => exact absurd h (hreserved op)
  | malformed => simp only [perform, h]

/-! ### Reserved operand values -/

theorem fifoSetOvw_reserved {s : State} {ch : Byte} {c : Channel} (hc : s.ready ch c) (f : FifoSel)
    {b : Byte} (hb : 1 < b.toNat) : Raises (.fifoSetOvw f ch b) s .illegalOperand := by
  simp only [Raises, exec, execFifoSetOvw, onChannel_ready hc, policyOf_reserved hb]
  rfl

theorem tmrArm_reserved {s : State} {ch : Byte} {c : Channel} (hc : s.ready ch c) {delay : Time}
    (hd : 2 ^ 31 ≤ delay.toNat) : Raises (.tmrArm ch delay) s .illegalOperand := by
  simp only [Raises, exec, execTmrArm, onChannel_ready hc, delayLegal_reserved hd]
  rfl

end Sys2Proof.Machine

namespace Sys2Proof
open Machine

/-- Settles O4: a reserved opcode is a byte without a row; a sequence that decodes to an operation is
the request of that operation (`encodeOfDecode`), so one that is no request is malformed. -/
theorem reservedEncodings : Obligations.ReservedEncodings := by
  refine ⟨fun op ch args => (decode_eq_reserved_iff op ch args).trans (rowOf_eq_none_iff op),
    fun s r rest op hlegal hs hnext hdecode => ?_,
    fun s r rest hlegal hnext hencode hreserved => ?_,
    fun s ch c hc => ⟨fun f b => fifoSetOvw_reserved hc f, fun delay => tmrArm_reserved hc⟩⟩
  · exact (step_perform hlegal hnext).trans (perform_reserved hs hdecode)
  · exact (step_perform hlegal hnext).trans (perform_malformed hencode hreserved _)

end Sys2Proof
end

section
/-! Proofs about results and frames: every operation answers in its form (R68, R161, R165), the bytes of
a result, and the layout of a frame (R61, R64, R66). -/

namespace Sys2Proof.Machine

/-! ### The form of a result -/

/-- The state `t` after the operation `i` on `s` holds a result of the operation's form: `OK` with data
of its form (R68), `FAIL` where it can fail (R161), or a fault that is recorded, and that was there before
or is one the operation can raise (R165). -/
def InForm (i : Instr) (s t : State) : Prop :=
  ∃ r : Result, t.result = some r ∧
    (∀ a, r = .ok a → answerFits i a = true) ∧
    (r = .fail → canFail i = true) ∧
    ∀ code, r = .fault code → t.halted = true ∧ t.faultCode = code ∧
      (s.halted = true ∧ s.faultCode = code ∨ s.halted = false ∧ canRaise code i = true)

theorem InForm.ok {i : Instr} {s t : State} {a : Answer} (hresult : t.result = some (.ok a))
    (h : answerFits i a = true) : InForm i s t :=
  ⟨.ok a, hresult, fun _ ha => Result.ok.inj ha ▸ h, nofun, nofun⟩

theorem InForm.fail {i : Instr} {s t : State} (hresult : t.result = some .fail)
    (h : canFail i = true) : InForm i s t :=
  ⟨.fail, hresult, nofun, fun _ => h, nofun⟩

theorem InForm.fault {i : Instr} {s t : State} {code : FaultCode}
    (hresult : t.result = some (.fault code)) (hhalted : t.halted = true) (hcode : t.faultCode = code)
    (h : s.halted = true ∧ s.faultCode = code ∨ s.halted = false ∧ canRaise code i = true) :
    InForm i s t := by
  refine ⟨.fault code, hresult, nofun, nofun, fun code' hc => ?_⟩
  obtain rfl := Result.fault.inj hc
  exact ⟨hhalted, hcode, h⟩

/-- Where the outcome of the operation `i` on `s` is a next state, its result is of the operation's
form. -/
def OutcomeInForm (i : Instr) (s : State) (o : Outcome) : Prop := ∀ t, o = .next t → InForm i s t

section
variable {i : Instr} {s : State}

theorem answer_ok_inForm {a : Answer} (h : answerFits i a = true) (u : State) :
    OutcomeInForm i s (answer u (.ok a)) := by
  intro t ht
  obtain rfl := answer_next ht
  exact .ok rfl h

theorem answer_fail_inForm (h : canFail i = true) : OutcomeInForm i s (answer s .fail) := by
  intro t ht
  obtain rfl := answer_next ht
  exact .fail rfl h

theorem commit_ok_inForm {a : Answer} (h : answerFits i a = true) (ch : Byte) (c : Channel) :
    OutcomeInForm i s (commit s ch c (.ok a)) := by
  intro t ht
  obtain rfl := commit_next ht
  exact .ok rfl h

theorem commit_fail_inForm (h : canFail i = true) (ch : Byte) (c : Channel) :
    OutcomeInForm i s (commit s ch c .fail) := by
  intro t ht
  obtain rfl := commit_next ht
  exact .fail rfl h

theorem raiseFault_inForm {code : FaultCode} (hs : s.halted = false) (h : canRaise code i = true)
    (u : State) : OutcomeInForm i s (raiseFault u code) := by
  intro t ht
  obtain rfl := raiseFault_next ht
  exact .fault rfl rfl rfl (.inr ⟨hs, h⟩)

theorem unlessHalted_inForm {k : Outcome} (hk : s.halted = false → OutcomeInForm i s k) :
    OutcomeInForm i s (unlessHalted s k) := by
  intro t ht
  obtain ⟨hs, rfl⟩ | ⟨hs, ht⟩ := unlessHalted_next ht
  · exact .fault rfl hs rfl (.inl ⟨hs, rfl⟩)
  · exact hk hs t ht

theorem onChannel_inForm {ch : Byte} {k : Channel → Outcome} (hi : channelOf i = some ch)
    (hk : ∀ c, s.ready ch c → OutcomeInForm i s (k c)) : OutcomeInForm i s (onChannel s ch k) := by
  refine unlessHalted_inForm fun hs => ?_
  cases hc : s.chans[ch.toNat]? with
  | none => exact raiseFault_inForm hs (by rw [canRaise, hi]; rfl) s
  | some c => exact hk c ⟨hs, hc⟩

theorem whenInited_inForm {b : Bool} {k : Outcome} (hs : s.halted = false)
    (hi : canRaise .assertUninit i = true) (hk : OutcomeInForm i s k) :
    OutcomeInForm i s (whenInited s b k) := by
  cases b with
  | false => exact raiseFault_inForm hs hi s
  | true => exact hk

theorem whenAddressable_inForm {b : Bool} {k : Outcome} (hk : OutcomeInForm i s k) :
    OutcomeInForm i s (whenAddressable b k) :=
  fun t ht => hk t (whenAddressable_next ht).2

theorem onFifo_inForm {f : FifoSel} {ch : Byte} {k : Channel → Fifo → Outcome}
    (hi : channelOf i = some ch) (hraise : canRaise .assertUninit i = true)
    (hk : ∀ c F, OutcomeInForm i s (k c F)) : OutcomeInForm i s (onFifo s f ch k) :=
  onChannel_inForm hi fun c hc => whenInited_inForm hc.1 hraise (hk c _)

theorem onStorage_inForm {f : FifoSel} {ch : Byte} {k : Channel → Fifo → Outcome}
    (hi : channelOf i = some ch) (hraise : canRaise .assertUninit i = true)
    (hk : ∀ c F, OutcomeInForm i s (k c F)) : OutcomeInForm i s (onStorage s f ch k) :=
  onFifo_inForm hi hraise fun c F => whenAddressable_inForm (hk c F)

end

/-! ### The operations with more than one form of result -/

theorem execFifoSetOvw_inForm (f : FifoSel) (ch b : Byte) (s : State) :
    OutcomeInForm (.fifoSetOvw f ch b) s (execFifoSetOvw f ch b s) := by
  refine onChannel_inForm rfl fun c hc => ?_
  by_cases hb : b.toNat ≤ 1
  · rw [policyOf_legal hb]
    exact whenInited_inForm hc.1 rfl (commit_ok_inForm rfl ch _)
  · have hb : 1 < b.toNat := Nat.lt_of_not_le hb
    rw [policyOf_reserved hb]
    exact raiseFault_inForm hc.1 (by simpa only [canRaise, decide_eq_true_eq] using hb) s

theorem execTmrArm_inForm (ch : Byte) (delay : Time) (s : State) :
    OutcomeInForm (.tmrArm ch delay) s (execTmrArm ch delay s) := by
  refine onChannel_inForm rfl fun c hc => ?_
  split_ifs with hd
  · exact whenInited_inForm hc.1 rfl (commit_ok_inForm rfl ch _)
  · rw [delayLegal_iff, not_lt] at hd
    exact raiseFault_inForm hc.1 (by simpa only [canRaise, decide_eq_true_eq] using hd) s

theorem Fifo.takeAll_length (cap n : Nat) (F : Fifo) : (Fifo.takeAll cap n F).1.length = n := by
  induction n generalizing F with
  | zero => rfl
  | succ n ih => rw [Fifo.takeAll, List.length_cons, ih]

theorem execGetSpan_inForm (f : FifoSel) (ch : Byte) (n : Half) (s : State) :
    OutcomeInForm (.getSpan f ch n) s (execGetSpan f ch n s) := by
  refine onStorage_inForm rfl rfl fun c F => ?_
  unfold Fifo.getSpan
  split_ifs
  · exact answer_fail_inForm rfl
  · exact commit_ok_inForm (by simp [answerFits, Fifo.takeAll_length]) ch _

theorem execTick_inForm (ch : Byte) (s : State) : OutcomeInForm (.tick ch) s (execTick ch s) := by
  intro t ht
  obtain ⟨-, he⟩ | ⟨hs, -, he⟩ | ⟨-, -, he⟩ := execTick_cases ch s <;>
    (rw [he] at ht; obtain rfl := Host.Outcome.next.inj ht)
  · exact .ok rfl rfl
  · exact .fault rfl rfl rfl (.inr ⟨hs, rfl⟩)
  · exact .ok rfl rfl

theorem execFpProcess_inForm (ch : Byte) (s : State) :
    OutcomeInForm (.fpProcess ch) s (execFpProcess ch s) := by
  refine onChannel_inForm rfl fun c hc =>
    whenInited_inForm hc.1 rfl (whenAddressable_inForm ?_)
  cases phaseOf c.cfg.table (c.rxf.contents s.cfg.capacity) with
  | awaitingTag | awaitingPayload | awaitingChecksum => exact answer_ok_inForm rfl s
  | unknownTag => exact commit_ok_inForm rfl ch _
  | validating e =>
    simp only [consumeFrame, dispatchFrame]
    split_ifs
    · exact commit_ok_inForm rfl ch _
    · exact commit_ok_inForm rfl ch _

theorem execChInit_inForm (ch : Byte) (s : State) :
    OutcomeInForm (.chInit ch) s (execChInit ch s) := by
  refine onChannel_inForm rfl fun c hc => ?_
  split_ifs
  · cases c.initFifos.tmrInit s.now with
    | none => exact raiseFault_inForm hc.1 rfl _
    | some c' => exact commit_ok_inForm rfl ch _
  · exact raiseFault_inForm hc.1 rfl s

theorem execRxByte_inForm (ch b : Byte) (s : State) :
    OutcomeInForm (.rxByte ch b) s (execRxByte ch b s) := by
  refine onChannel_inForm rfl fun c hc =>
    whenInited_inForm hc.1 rfl (whenAddressable_inForm ?_)
  cases c.rxf.put s.cfg.capacity b with
  | none => exact commit_fail_inForm rfl ch _
  | some F => exact commit_ok_inForm rfl ch _

/-- Every operation, check by check and then result by result. -/
theorem exec_inForm (i : Instr) (s : State) : OutcomeInForm i s (exec i s) := by
  cases i with
  | fifoInit f ch => exact onChannel_inForm rfl fun c _ => commit_ok_inForm rfl ch _
  | fifoReset f ch => exact onFifo_inForm rfl rfl fun c F => commit_ok_inForm rfl ch _
  | fifoSetOvw f ch b => exact execFifoSetOvw_inForm f ch b s
  | put f ch | putSpan f ch | get f ch =>
    simp only [exec, execPut, execPutSpan, execGet]
    refine onStorage_inForm rfl rfl fun c F => ?_
    split
    · exact answer_fail_inForm rfl
    · exact commit_ok_inForm rfl ch _
  | peek f ch =>
    simp only [exec, execPeek]
    refine onStorage_inForm rfl rfl fun c F => ?_
    cases F.peek with
    | none => exact answer_fail_inForm rfl
    | some b => exact answer_ok_inForm rfl s
  | getSpan f ch n => exact execGetSpan_inForm f ch n s
  | size f ch => exact onFifo_inForm rfl rfl fun c F => answer_ok_inForm rfl s
  | tmrInit ch =>
    refine onChannel_inForm rfl fun c hc => ?_
    cases c.tmrInit s.now with
    | none => exact raiseFault_inForm hc.1 rfl s
    | some c' => exact commit_ok_inForm rfl ch c'
  | tmrArm ch delay => exact execTmrArm_inForm ch delay s
  | tmrCancel ch =>
    exact onChannel_inForm rfl fun c hc => whenInited_inForm hc.1 rfl (commit_ok_inForm rfl ch _)
  | tick ch => exact execTick_inForm ch s
  | crc16 ch seed d => exact unlessHalted_inForm fun _ => answer_ok_inForm rfl s
  | fpProcess ch => exact execFpProcess_inForm ch s
  | chInit ch => exact execChInit_inForm ch s
  | rxByte ch b => exact execRxByte_inForm ch b s
  | pump ch k =>
    exact onChannel_inForm rfl fun c hc => whenInited_inForm hc.1 rfl
      (whenAddressable_inForm (commit_ok_inForm (by simp [answerFits]) ch _))

/-! ### Bytes as numbers -/

/-- A number below 65536 as the two data bytes of a result. -/
theorem le16_ofNat {n : Nat} (h : n < 65536) :
    le16 (BitVec.ofNat 16 n) = [BitVec.ofNat 8 (n % 256), BitVec.ofNat 8 (n / 256)] := by
  rw [le16_eq, BitVec.toNat_ofNat, Nat.mod_eq_of_lt h]

theorem of16_toNat (lo hi : Byte) : (of16 lo hi).toNat = lo.toNat + 256 * hi.toNat := by
  have hlo : lo.toNat < 2 ^ 8 := lo.isLt
  rw [of16, BitVec.toNat_append, Nat.shiftLeft_eq, Nat.mul_comm, ← Nat.two_pow_add_eq_or_of_lt hlo]
  omega

/-- The two checksum bytes are read back as the checksum, whatever names they have. -/
theorem dec16_of_enc16 {lsb : Bool} {v : Half} {b0 b1 : Byte} (h : enc16 lsb v = [b0, b1]) :
    dec16 lsb b0 b1 = v := by
  obtain ⟨x0, x1, hbytes, hvalue⟩ := enc16_dec16 lsb v
  obtain ⟨rfl, rfl⟩ : x0 = b0 ∧ x1 = b1 := by simpa using hbytes.symm.trans h
  exact hvalue

end Sys2Proof.Machine

namespace Sys2Proof
open Machine

/-- Settles O6: `exec_inForm`, put together from the checks of R167 and the answers of each operation. -/
theorem everyOperationAnswersInItsForm : Obligations.EveryOperationAnswersInItsForm := exec_inForm

/-- Settles O40: the frame is written as `encodeFrame` says, of the length `encodeFrame_length`; the two
checksum bytes are a low and a high byte (`of16_toNat`), read in the order they are written in. -/
theorem frameLayout : Obligations.FrameLayout := by
  refine ⟨fun cfg t payload => ⟨rfl, encodeFrame_length cfg t payload⟩, fun v => ⟨rfl, rfl⟩,
    fun b0 b1 => ⟨of16_toNat b0 b1, ?_⟩, fun lsb v b0 b1 => dec16_of_enc16⟩
  exact (of16_toNat b1 b0).trans (Nat.add_comm _ _)

/-- Settles O7: a status byte, then the data little-endian (`le16_eq`, `le16_ofNat`) or the code. -/
theorem resultBytes_eq : Obligations.ResultBytes :=
  ⟨rfl, rfl, rfl, rfl, fun _ => rfl, fun _ => rfl,
    fun _ hn => congrArg (0x00 :: ·) (le16_ofNat hn), fun _ => rfl,
    fun v => congrArg (0x00 :: ·) (le16_eq v), fun _ hm => congrArg (0x00 :: ·) (le16_ofNat hm)⟩

end Sys2Proof
end

section
/-! Proofs about the Ring Buffer operations (R80 to R90): on a ready channel each answers as the state
change of its Ring Buffer says, so its whole next state follows from the laws of that Ring Buffer; runs of
puts and gets are inductions over the queue. -/

namespace Sys2Proof.Machine

/-! ### Requests -/

/-- The opcode byte of the encoder is `000f` and the function, in numbers (R69). -/
theorem fifoOpcode_eq_fifoByte {fn : Byte} (hfn : 0x10 &&& fn = 0) (f : FifoSel) :
    fifoOpcode fn f = fifoByte fn f := by
  cases f with
  | rx => rfl
  | tx => exact (BitVec.or_comm fn 0x10).trans (BitVec.add_eq_or_of_and_eq_zero 0x10 fn hfn).symm

/-! ### `FIFO_INIT` twice -/

theorem Channel.setFifo_setFifo (c : Channel) (f : FifoSel) (F G : Fifo) :
    (c.setFifo f F).setFifo f G = c.setFifo f G := by cases f <;> rfl

theorem State.committed_committed (s : State) (ch : Byte) (c d : Channel) (r r' : Result) :
    (s.committed ch c r).committed ch d r' = s.committed ch d r' := by
  simp [State.committed]

/-- A halted block that has answered its fault answers it again, and nothing changes (R166). -/
theorem exec_of_faultAnswered {i : Instr} {ch : Byte} (hi : channelOf i = some ch) {t : State}
    (ht : t.halted = true) (hr : t.result = some (.fault t.faultCode)) : exec i t = .next t := by
  rw [exec_halted ht (ne_tick_of_channelOf hi), State.answered, ← hr]

theorem fifoInit_leaves {s : State} {ch : Byte} {c : Channel} (hc : s.ready ch c) (f : FifoSel) :
    Leaves (.fifoInit f ch) s ch (c.setFifo f (c.fifo f).init) (.ok .done) := onChannel_ready hc _

/-- `FIFO_INIT` leaves a state that it leaves again ("Idempotent", R80): a halted block, or a channel
whose Ring Buffer is as `FIFO_INIT` makes every one. -/
theorem fifoInit_idempotent {f : FifoSel} {ch : Byte} {s t : State}
    (h : exec (.fifoInit f ch) s = .next t) : exec (.fifoInit f ch) t = .next t := by
  obtain ⟨hs, rfl⟩ | ⟨-, -, rfl⟩ | ⟨c, hc, hk⟩ := onChannel_next h
  · exact exec_of_faultAnswered rfl hs rfl
  · exact exec_of_faultAnswered rfl rfl rfl
  · obtain rfl := commit_next hk
    refine (fifoInit_leaves (State.ready_committed hc _ _) f).trans (congrArg Host.Outcome.next ?_)
    exact (State.committed_committed ..).trans (by rw [Channel.setFifo_setFifo]; rfl)

/-! ### The operations that access storage, on an initialised Ring Buffer

Each lemma takes the checks of R89 as passed and the state change of the Ring Buffer as known. -/

section
variable {s : State} {ch : Byte} {c : Channel} {f : FifoSel} (hc : s.ready ch c)
  (hi : (c.fifo f).inited = true) (hr : (c.fifo f).Ring s.cfg.capacity)
include hc hi hr

theorem put_leaves {b : Byte} {G : Fifo} (h : (c.fifo f).put s.cfg.capacity b = some G) :
    Leaves (.put f ch b) s ch (c.setFifo f G) (.ok .done) := by
  rw [Leaves, exec, execPut, onStorage_ready hc hi hr.addressable, h]
  rfl

theorem put_fails {b : Byte} (h : (c.fifo f).put s.cfg.capacity b = none) :
    Answers (.put f ch b) s .fail := by
  rw [Answers, exec, execPut, onStorage_ready hc hi hr.addressable, h]
  rfl

theorem putSpan_leaves {d : List Byte} {G : Fifo}
    (h : (c.fifo f).putSpan s.cfg.capacity d = some G) :
    Leaves (.putSpan f ch d) s ch (c.setFifo f G) (.ok .done) := by
  rw [Leaves, exec, execPutSpan, onStorage_ready hc hi hr.addressable, h]
  rfl

theorem putSpan_fails {d : List Byte} (h : (c.fifo f).putSpan s.cfg.capacity d = none) :
    Answers (.putSpan f ch d) s .fail := by
  rw [Answers, exec, execPutSpan, onStorage_ready hc hi hr.addressable, h]
  rfl

theorem get_leaves (hl : 0 < (c.fifo f).length) :
    Leaves (.get f ch) s ch (c.setFifo f ((c.fifo f).dropped s.cfg.capacity))
      (.ok (.byte (c.fifo f).oldest)) := by
  rw [Leaves, exec, execGet, onStorage_ready hc hi hr.addressable, Fifo.get, if_neg hl.ne']
  rfl

theorem get_fails (hl : (c.fifo f).length = 0) : Answers (.get f ch) s .fail := by
  rw [Answers, exec, execGet, onStorage_ready hc hi hr.addressable, Fifo.get, if_pos hl]
  rfl

theorem peek_answers (hl : 0 < (c.fifo f).length) :
    Answers (.peek f ch) s (.ok (.byte (c.fifo f).oldest)) := by
  rw [Answers, exec, execPeek, onStorage_ready hc hi hr.addressable, Fifo.peek, if_neg hl.ne']
  rfl

theorem peek_fails (hl : (c.fifo f).length = 0) : Answers (.peek f ch) s .fail := by
  rw [Answers, exec, execPeek, onStorage_ready hc hi hr.addressable, Fifo.peek, if_pos hl]
  rfl

theorem getSpan_leaves {n : Half} (hn : n.toNat ≤ (c.fifo f).length) :
    Leaves (.getSpan f ch n) s ch
      (c.setFifo f (Fifo.takeAll s.cfg.capacity n.toNat (c.fifo f)).2)
      (.ok (.span (Fifo.takeAll s.cfg.capacity n.toNat (c.fifo f)).1)) := by
  rw [Leaves, exec, execGetSpan, onStorage_ready hc hi hr.addressable, Fifo.getSpan, if_neg hn.not_gt]
  rfl

theorem getSpan_fails {n : Half} (hn : (c.fifo f).length < n.toNat) :
    Answers (.getSpan f ch n) s .fail := by
  rw [Answers, exec, execGetSpan, onStorage_ready hc hi hr.addressable, Fifo.getSpan, if_pos hn]
  rfl

end

/-- The policy operand is a legal one, so `FIFO_SETOVW` answers by the check of `inited` alone. -/
theorem exec_fifoSetOvw_legal {s : State} {ch : Byte} {c : Channel} (hc : s.ready ch c) (f : FifoSel)
    {b : Byte} (hb : b.toNat ≤ 1) :
    exec (.fifoSetOvw f ch b) s = whenInited s (c.fifo f).inited
      (commit s ch (c.setFifo f ((c.fifo f).setOverwrite (decide (b.toNat = 1)))) (.ok .done)) := by
  rw [exec, execFifoSetOvw, onChannel_ready hc, policyOf_legal hb]

/-- A queue that is not empty starts with the oldest byte; `GET` leaves the others. -/
theorem Fifo.Ring.of_contents_eq_cons {cap : Nat} {F : Fifo} (h : F.Ring cap) {b : Byte}
    {q : List Byte} (hq : F.contents cap = b :: q) :
    0 < F.length ∧ F.oldest = b ∧ (F.dropped cap).contents cap = q := by
  have hl : 0 < F.length := by simp [← F.contents_length cap, hq]
  exact ⟨hl, List.cons.inj ((h.contents_cons hl).symm.trans hq)⟩

/-- The length of an accepted span's queue: what fits of both, `C` at most. -/
theorem Fifo.Ring.putAll_length {cap : Nat} {F : Fifo} (h : F.Ring cap) {d : List Byte}
    (hd : F.allowOverwrite = true ∨ F.length + d.length ≤ cap) :
    (F.putAll cap d).length = min cap (F.length + d.length) := by
  obtain ⟨-, hcontents, -⟩ := h.putAll hd
  have hlength := congrArg List.length hcontents
  simp only [Fifo.contents_length, List.length_drop, List.length_append] at hlength
  omega

/-! ### Runs of puts and gets -/

/-- The block is ready on channel `ch`, whose Ring Buffer `f` is initialised, meets R16 and holds the
queue `q`. -/
def State.Queued (s : State) (ch : Byte) (f : FifoSel) (q : List Byte) : Prop :=
  ∃ c, s.ready ch c ∧ (c.fifo f).inited = true ∧ (c.fifo f).Ring s.cfg.capacity ∧
    (c.fifo f).contents s.cfg.capacity = q

/-- An operation that leaves a Ring Buffer `G` leaves the queue of `G`. -/
theorem State.queued_committed {s : State} {ch : Byte} {c : Channel} (hc : s.ready ch c)
    {f : FifoSel} {G : Fifo} (hi : G.inited = true) (hr : G.Ring s.cfg.capacity) (r : Result) :
    (s.committed ch (c.setFifo f G) r).Queued ch f (G.contents s.cfg.capacity) :=
  ⟨c.setFifo f G, State.ready_committed hc _ r, by rw [Channel.fifo_setFifo]; exact ⟨hi, hr, rfl⟩⟩

theorem State.Queued.put {s : State} {ch : Byte} {f : FifoSel} {q : List Byte}
    (h : s.Queued ch f q) (hroom : q.length < s.cfg.capacity) (b : Byte) :
    ∃ t, exec (.put f ch b) s = .next t ∧ t.result = some (.ok .done) ∧ t.cfg = s.cfg ∧
      t.Queued ch f (q ++ [b]) := by
  obtain ⟨c, hc, hi, hr, rfl⟩ := h
  rw [Fifo.contents_length] at hroom
  obtain ⟨G, hput, hG, hcontents, -⟩ := hr.put_room hroom b
  have hGi : G.inited = true := (hr.put_some hput).2.1.trans hi
  exact ⟨_, put_leaves hc hi hr hput, rfl, rfl, hcontents ▸ State.queued_committed hc hGi hG _⟩

theorem State.Queued.get {s : State} {ch : Byte} {f : FifoSel} {b : Byte} {q : List Byte}
    (h : s.Queued ch f (b :: q)) :
    ∃ t, exec (.get f ch) s = .next t ∧ t.result = some (.ok (.byte b)) ∧ t.Queued ch f q := by
  obtain ⟨c, hc, hi, hr, hq⟩ := h
  obtain ⟨hl, rfl, rfl⟩ := hr.of_contents_eq_cons hq
  exact ⟨_, get_leaves hc hi hr hl, rfl,
    State.queued_committed hc (G := (c.fifo f).dropped _) hi (hr.dropped hl) _⟩

theorem runResults_cons {i : Instr} {is : List Instr} {s t u : State} {r : Option Result}
    {rs : List (Option Result)} (h : exec i s = .next t) (hr : t.result = r)
    (hrest : runResults is t = some (rs, u)) : runResults (i :: is) s = some (r :: rs, u) := by
  rw [runResults, h]
  simp [hrest, hr]

/-- Gets return the whole queue, oldest byte first. -/
theorem State.Queued.gets {s : State} {ch : Byte} {f : FifoSel} {q : List Byte}
    (h : s.Queued ch f q) :
    ∃ t, runResults (List.replicate q.length (.get f ch)) s =
      some (q.map fun b => some (.ok (.byte b)), t) := by
  induction q generalizing s with
  | nil => exact ⟨s, rfl⟩
  | cons b q ih =>
    obtain ⟨t, hget, hresult, hq⟩ := h.get
    obtain ⟨u, hgets⟩ := ih hq
    exact ⟨u, runResults_cons hget hresult hgets⟩

/-- Puts that fit all succeed, and the bytes join the queue in order. -/
theorem State.Queued.puts {s : State} {ch : Byte} {f : FifoSel} {q d : List Byte}
    (h : s.Queued ch f q) (hfits : q.length + d.length ≤ s.cfg.capacity) :
    ∃ t, runResults (d.map (.put f ch)) s = some (d.map fun _ => some (.ok .done), t) ∧
      t.Queued ch f (q ++ d) := by
  induction d generalizing s q with
  | nil => exact ⟨s, rfl, (List.append_nil q).symm ▸ h⟩
  | cons b d ih =>
    rw [List.length_cons] at hfits
    obtain ⟨t, hput, hresult, hcfg, hq⟩ := h.put (by omega) b
    obtain ⟨u, hputs, hu⟩ := ih hq (by
      rw [hcfg, List.length_append, List.length_singleton]
      omega)
    exact ⟨u, runResults_cons hput hresult hputs, by simpa using hu⟩

end Sys2Proof.Machine

namespace Sys2Proof
open Machine

/-- Settles O19: `fifoInit_leaves` and `fifoInit_idempotent`; the storage of `Fifo.init` lists no byte. -/
theorem fifoInitZeroesAndEmpties : Obligations.FifoInitZeroesAndEmpties := fun f ch _ =>
  ⟨congrArg (· :: [ch]) (fifoOpcode_eq_fifoByte rfl f), checksFirst rfl _,
    fun _ hc => ⟨_, fifoInit_leaves hc f, fun _ => rfl, rfl, rfl, rfl, rfl, rfl, rfl⟩,
    fun _ => fifoInit_idempotent⟩

/-- Settles O20: the checks of R89, then the state change of `Fifo.reset`. -/
theorem fifoResetKeepsStorage : Obligations.FifoResetKeepsStorage := fun f ch _ =>
  ⟨congrArg (· :: [ch]) (fifoOpcode_eq_fifoByte rfl f), checksFirst rfl _,
    fun _ hc => ⟨fun hi => onFifo_uninit hc hi fun _ _ => _, fun hi => onFifo_ready hc hi fun _ _ => _⟩⟩

/-- Settles O21: a reserved operand faults first (`fifoSetOvw_reserved`); a legal one leaves the check of
`inited` (`exec_fifoSetOvw_legal`). -/
theorem fifoSetOvwWritesThePolicy : Obligations.FifoSetOvwWritesThePolicy := fun f ch b _ =>
  ⟨congrArg (· :: [ch, b]) (fifoOpcode_eq_fifoByte rfl f), checksFirst rfl _,
    fun _ hc => ⟨fifoSetOvw_reserved hc f,
      fun hb hi => (exec_fifoSetOvw_legal hc f hb).trans (by rw [hi]; rfl),
      fun hb hi => (exec_fifoSetOvw_legal hc f hb).trans (by rw [hi]; rfl)⟩⟩

/-- Settles O22: with room `Fifo.Ring.put_room`, full under the policy `Fifo.Ring.put_over`, full without
it `Fifo.put_full`; one storage byte is written (O18). -/
theorem putStoresOrFails : Obligations.PutStoresOrFails := by
  refine fun f ch b s => ⟨congrArg (· :: [ch, b]) (fifoOpcode_eq_fifoByte rfl f), checksFirst rfl s,
    fun c hc => ⟨fun hi => onStorage_uninit hc hi fun _ _ => _, fun hi hw => ?_⟩⟩
  have hr := Fifo.ring_of_wf hw hi
  have hread : ∀ a, ((c.fifo f).storage.write (c.fifo f).putIndex b).read a =
      if a = (c.fifo f).putIndex then b else (c.fifo f).storage.read a :=
    fun a => storageWritesOneByte.1 _ _ a b hr.storage_wf
  refine ⟨fun hroom => ?_, fun hfull hpol => put_fails hc hi hr (Fifo.put_full hfull hpol b),
    fun hfull hpol => ?_⟩
  · obtain ⟨_, hput, -, hcontents, rfl⟩ := hr.put_room hroom b
    exact ⟨_, put_leaves hc hi hr hput, hread, rfl, rfl, rfl, rfl, hi, hcontents⟩
  · obtain ⟨_, hput, -, hcontents, rfl⟩ := hr.put_over hfull hpol b
    exact ⟨_, put_leaves hc hi hr hput, hread, rfl, hfull, rfl, hpol, hi, hcontents⟩

/-- Settles O23: the capacity check (`Fifo.putSpan_eq`), then the puts in order (`Fifo.Ring.putAll`), which
write the slots after `putIndex` only (`Fifo.Ring.putAll_frame`). -/
theorem putSpanIsAllOrNothing : Obligations.PutSpanIsAllOrNothing := by
  refine fun f ch d s => ⟨fun hd => ?_, checksFirst rfl s,
    fun c hc => ⟨fun hi => onStorage_uninit hc hi fun _ _ => _, fun hi hw => ?_⟩⟩
  · rw [encode, spanCount, le16_ofNat hd, fifoOpcode_eq_fifoByte rfl]
    rfl
  have hr := Fifo.ring_of_wf hw hi
  refine ⟨fun hpol hlong => putSpan_fails hc hi hr ?_, fun hfits => ?_⟩
  · rw [Fifo.putSpan_eq, if_neg (by simp [hpol, hlong])]
  · obtain ⟨-, hcontents, hinited, hpolicy, hput, hget⟩ := hr.putAll hfits
    exact ⟨_, putSpan_leaves hc hi hr ((Fifo.putSpan_eq ..).trans (if_pos hfits)), hcontents,
      hr.putAll_length hfits, hput, hget, hpolicy, hinited.trans hi, hr.putAll_frame d,
      fun hnil => hnil ▸ rfl⟩

/-- Settles O24: the oldest byte is the head of the queue (`Fifo.Ring.contents_cons`). -/
theorem getRemovesTheOldest : Obligations.GetRemovesTheOldest := by
  refine fun f ch s => ⟨congrArg (· :: [ch]) (fifoOpcode_eq_fifoByte rfl f), checksFirst rfl s,
    fun c hc => ⟨fun hi => onStorage_uninit hc hi fun _ _ => _, fun hi hw => ?_⟩⟩
  have hr := Fifo.ring_of_wf hw hi
  exact ⟨get_fails hc hi hr,
    fun hl => ⟨_, _, get_leaves hc hi hr hl, rfl, hr.contents_cons hl, rfl⟩⟩

/-- Settles O25: the byte answered is the head of the queue (`Fifo.Ring.of_contents_eq_cons`). -/
theorem peekChangesNothing : Obligations.PeekChangesNothing := by
  refine fun f ch s => ⟨congrArg (· :: [ch]) (fifoOpcode_eq_fifoByte rfl f), checksFirst rfl s,
    fun c hc => ⟨fun hi => onStorage_uninit hc hi fun _ _ => _, fun hi hw => ?_⟩⟩
  have hr := Fifo.ring_of_wf hw hi
  refine ⟨peek_fails hc hi hr, fun b q hq => ?_⟩
  obtain ⟨hl, rfl, -⟩ := hr.of_contents_eq_cons hq
  exact peek_answers hc hi hr hl

/-- Settles O26: the gets of a span take the oldest bytes in order (`Fifo.Ring.takeAll`). -/
theorem getSpanIsAllOrNothing : Obligations.GetSpanIsAllOrNothing := by
  refine fun f ch n s => ⟨?_, checksFirst rfl s,
    fun c hc => ⟨fun hi => onStorage_uninit hc hi fun _ _ => _, fun hi hw => ?_⟩⟩
  · rw [encode, le16_eq, fifoOpcode_eq_fifoByte rfl]
  have hr := Fifo.ring_of_wf hw hi
  refine ⟨getSpan_fails hc hi hr, fun hn => ?_⟩
  obtain ⟨hbytes, hcontents, heq, -⟩ := hr.takeAll hn
  exact ⟨_, hbytes ▸ getSpan_leaves hc hi hr hn, hcontents, heq, fun h0 => h0 ▸ rfl⟩

/-- Settles O27: the checks of R89, then the length, which I1 of R16 bounds. -/
theorem sizeReturnsTheLength : Obligations.SizeReturnsTheLength := fun f ch _ =>
  ⟨congrArg (· :: [ch]) (fifoOpcode_eq_fifoByte rfl f), checksFirst rfl _,
    fun _ hc => ⟨fun hi => onFifo_uninit hc hi fun _ _ => _,
      fun hi => ⟨onFifo_ready hc hi fun _ _ => _, fun hw => (Fifo.ring_of_wf hw hi).length_le⟩⟩⟩

/-- Settles O29: the puts queue the span (`State.Queued.puts`), the gets return the whole queue
(`State.Queued.gets`). -/
theorem bytesComeOutInOrder : Obligations.BytesComeOutInOrder := by
  intro s ch c f d hc hi hw hfits
  have hqueued : s.Queued ch f ((c.fifo f).contents s.cfg.capacity) :=
    ⟨c, hc, hi, Fifo.ring_of_wf hw hi, rfl⟩
  obtain ⟨t, hputs, ht⟩ := hqueued.puts (d := d) (by rwa [Fifo.contents_length])
  obtain ⟨u, hgets⟩ := ht.gets
  rw [List.length_append, Fifo.contents_length] at hgets
  exact ⟨u, by rw [runResults_append, hputs, Option.bind_some, hgets, Option.map_some]⟩

/-- Settles O30: the put drops the oldest byte (`Fifo.Ring.put_over`) and the length stays `C`, so `C`
gets return the whole queue (`State.Queued.gets`). -/
theorem overwriteDropsTheOldest : Obligations.OverwriteDropsTheOldest := by
  intro s ch c f x hc hi hw hfull hpol
  have hr := Fifo.ring_of_wf hw hi
  obtain ⟨G, hput, hG, hcontents, hGeq⟩ := hr.put_over hfull hpol x
  have hlength : (((c.fifo f).contents s.cfg.capacity).drop 1 ++ [x]).length = s.cfg.capacity := by
    rw [← hcontents, Fifo.contents_length, hGeq]
    exact hfull
  have hqueued := State.queued_committed hc (f := f) ((hr.put_some hput).2.1.trans hi) hG (.ok .done)
  rw [hcontents] at hqueued
  obtain ⟨t, hgets⟩ := hqueued.gets
  rw [hlength] at hgets
  exact ⟨t, runResults_cons (put_leaves hc hi hr hput) rfl hgets⟩

end Sys2Proof
end

section
/-! Proofs about the idle-timeout timer (R100 to R107): times are compared by their difference, so a
deadline ahead of `now` is reached in the `TICK` that brings `now` to it; what `TICK` does to a channel
is said once (`State.Ticking.tick`), and a pending deadline is followed by induction over the `TICK`s. -/

namespace Sys2Proof.Machine

/-! ### The comparison of times (R101) -/

theorem reached_eq_false_iff {now d : Time} :
    reached now d = false ↔ 2 ^ 31 ≤ (now - d).toNat := by
  rw [Bool.eq_false_iff, ne_eq, reached_iff, not_lt]

/-- A time up to 2^31 ms ahead is not reached. -/
theorem reached_ahead {now x : Time} (h0 : 0 < x.toNat) (h : x.toNat ≤ 2 ^ 31) :
    reached now (now + x) = false := by
  rw [reached_eq_false_iff, sub_add_cancel_left, BitVec.toNat_neg]
  omega

/-- A time `x` behind `now` reads as reached for `x` below 2^31 only. -/
theorem reached_behind {now x : Time} : reached now (now - x) = true ↔ x.toNat < 2 ^ 31 := by
  rw [reached_iff, sub_sub_cancel]

/-- A count below 2^31 is a time as it stands. -/
theorem toNat_ofNat_count {n : Nat} (hn : n < 2 ^ 31) : (BitVec.ofNat 32 n).toNat = n :=
  Nat.mod_eq_of_lt (by omega)

/-- Two times counted from the same start compare as their counts do, across the wrap too. -/
theorem reached_since (start : Time) {m d : Nat} (hm : m < 2 ^ 31) (hd : d < 2 ^ 31) :
    reached (start + BitVec.ofNat 32 m) (start + BitVec.ofNat 32 d) = decide (d ≤ m) := by
  rw [Bool.eq_iff_iff, reached_iff, add_sub_add_left_eq_sub, BitVec.toNat_sub,
    toNat_ofNat_count hm, toNat_ofNat_count hd, decide_eq_true_eq]
  omega

/-- The deadline that `TMR_CANCEL` leaves reads as not reached for the next 2^31 ms (R103). -/
theorem reached_cancelled {now x : Time} (hx : x.toNat < 2 ^ 31) :
    reached (now + x) (now - 0x80000000#32) = false := by
  have hsum : now + x - (now - 0x80000000#32) = x + 0x80000000#32 := by abel
  rw [reached_eq_false_iff, hsum, BitVec.toNat_add, BitVec.toNat_ofNat]
  omega

/-! ### Pending deadlines stay ahead (R105) -/

/-- A timer that plans nothing has no deadline to keep ahead. -/
theorem Timer.ahead_of_not_planned {now : Time} {tmr : Timer} (h : tmr.planned = false) :
    tmr.ahead now = true := by
  simp [Timer.ahead, h]

/-- A legal delay arms a deadline that lies ahead. -/
theorem Timer.ahead_arm {now delay : Time} (h : delayLegal delay = true) (tmr : Timer) :
    (tmr.arm now delay).ahead now = true := by
  refine Timer.ahead_iff.2 fun _ _ => ?_
  rw [Timer.arm_deadline, add_sub_cancel_left]
  exact delayLegal_iff.1 h

/-- A deadline ahead of `now` is due one millisecond later, or still ahead then. -/
theorem Timer.ahead_succ {now : Time} {tmr : Timer} (h : tmr.ahead now = true)
    (hdue : tmr.due (now + 1#32) = false) : tmr.ahead (now + 1#32) = true := by
  rw [Timer.ahead_iff] at h ⊢
  intro hengaged hplanned
  have hahead := h hengaged hplanned
  have hnot : ¬ (now + 1#32 - tmr.deadline).toNat < 2 ^ 31 := fun hlt => by
    simp [Timer.due_iff.2 ⟨hengaged, hplanned, hlt⟩] at hdue
  bv_omega

/-- An operation leaves the timer of its channel as it was, not planned, or armed with a legal delay. -/
theorem Channel.After.ahead {i : Instr} {s : State} {c d : Channel} (hafter : Channel.After i s c d)
    (hidle : delayLegal s.cfg.idleDelay = true) (h : c.tmr.ahead s.now = true) :
    d.tmr.ahead s.now = true := by
  obtain hsame | hunplanned | ⟨delay, hlegal | rfl, -, harmed⟩ := hafter.tmr
  · exact hsame ▸ h
  · exact Timer.ahead_of_not_planned hunplanned
  · exact harmed ▸ Timer.ahead_arm hlegal c.tmr
  · exact harmed ▸ Timer.ahead_arm hidle c.tmr

/-- A `TICK` that does not halt the block has fired every deadline that it reached. -/
theorem execTick_deadlinesAhead {ch : Byte} {s t : State} (h : s.deadlinesAhead = true)
    (hexec : exec (.tick ch) s = .next t) : t.deadlinesAhead = true := by
  rw [State.deadlinesAhead_iff] at h ⊢
  rw [exec] at hexec
  obtain ⟨hs, he⟩ | ⟨-, -, he⟩ | ⟨hs, hnofault, he⟩ := execTick_cases ch s <;>
    (rw [he] at hexec; obtain rfl := Host.Outcome.next.inj hexec; intro ht k d hd)
  · exact absurd (hs.symm.trans ht) (by decide)
  · exact absurd ht (by simp)
  · obtain ⟨c, hc, ⟨rfl, hnotdue⟩ | ⟨rfl, -, -⟩⟩ := (fireDue_spec _ _).2 k d hd
    · exact Timer.ahead_succ (h hs k d hc) (hnotdue hnofault)
    · exact Timer.ahead_of_not_planned rfl

/-- Every operation keeps pending deadlines ahead of `now` (R105). -/
theorem exec_deadlinesAhead {i : Instr} {s t : State} (hw : s.wf = true)
    (h : s.deadlinesAhead = true) (hexec : exec i s = .next t) : t.deadlinesAhead = true := by
  by_cases hi : ∃ ch, i = .tick ch
  · obtain ⟨ch, rfl⟩ := hi
    exact execTick_deadlinesAhead h hexec
  rw [State.deadlinesAhead_iff] at h ⊢
  intro ht k d hd
  have hs : s.halted = false := by
    by_contra hs
    rw [(exec_of_halted (by simpa using hs) hexec).1] at ht
    exact hs ht
  obtain ⟨-, -, hchans⟩ := exec_channels hexec
  obtain ⟨c, hc, -⟩ := hchans k d hd
  rw [exec_now (fun ch hch => hi ⟨ch, hch⟩) hexec]
  obtain rfl | ⟨-, -, -, hafter⟩ | rfl := exec_channel_cases hexec hc hd
  · exact h hs k d hc
  · exact hafter.ahead (State.wf_idleDelay hw) (h hs k c hc)
  · exact Timer.ahead_of_not_planned rfl

/-! ### The operations on a ready channel -/

theorem Channel.tmrInit_engaged {now : Time} {c : Channel} (h : c.tmr.engaged = true) :
    c.tmrInit now = some c := by
  simp [Channel.tmrInit, h]

theorem Channel.tmrInit_unslotted {now : Time} {c : Channel} (h : c.tmr.engaged = false)
    (hslot : c.cfg.timerSlot = false) : c.tmrInit now = none := by
  simp [Channel.tmrInit, h, hslot]

theorem Channel.tmrInit_slotted {now : Time} {c : Channel} (h : c.tmr.engaged = false)
    (hslot : c.cfg.timerSlot = true) : c.tmrInit now = some { c with tmr := c.tmr.engage now } := by
  simp [Channel.tmrInit, h, hslot]

theorem tmrInit_leaves {s : State} {ch : Byte} {c d : Channel} (hc : s.ready ch c)
    (h : c.tmrInit s.now = some d) : Leaves (.tmrInit ch) s ch d (.ok .done) := by
  rw [Leaves, exec, execTmrInit, onChannel_ready hc, h]
  rfl

theorem tmrInit_raises {s : State} {ch : Byte} {c : Channel} (hc : s.ready ch c)
    (h : c.tmrInit s.now = none) : Raises (.tmrInit ch) s .timerAllocFail := by
  rw [Raises, exec, execTmrInit, onChannel_ready hc, h]
  rfl

/-- The channel with its timer armed at `now` (R102). -/
def Channel.armed (c : Channel) (now delay : Time) : Channel :=
  { c with tmr := c.tmr.arm now delay }

/-- A legal delay leaves the check of `engaged` (R102, R167). -/
theorem exec_tmrArm_legal {s : State} {ch : Byte} {c : Channel} (hc : s.ready ch c) {delay : Time}
    (hd : delay.toNat < 2 ^ 31) : exec (.tmrArm ch delay) s = whenInited s c.tmr.engaged
      (commit s ch (c.armed s.now delay) (.ok .done)) := by
  rw [exec, execTmrArm, onChannel_ready hc, if_pos (delayLegal_iff.2 hd)]
  rfl

theorem exec_tmrCancel_ready {s : State} {ch : Byte} {c : Channel} (hc : s.ready ch c) :
    exec (.tmrCancel ch) s = whenInited s c.tmr.engaged
      (commit s ch { c with tmr := c.tmr.cancel s.now } (.ok .done)) := by
  rw [exec, execTmrCancel, onChannel_ready hc]

/-! ### `TICK` (R104) -/

/-- The walk over the channels in the words of a statement. -/
theorem fireDue_dueAt {now : Time} {l : List Channel}
    (h : ∀ c ∈ l, c.dueAt now = true → c.rxf.inited = true) :
    fireDue now l =
      (l.map fun c => if c.dueAt now then c.afterFire else c, l.countP fun c => c.dueAt now, false) := by
  simp only [Channel.dueAt_eq, Channel.afterFire_eq, List.countP_eq_length_filter] at h ⊢
  exact fireDue_all h

theorem execTick_all {s : State} (ch : Byte) (hs : s.halted = false)
    (h : ∀ c ∈ s.chans, c.dueAt (s.now + 1#32) = true → c.rxf.inited = true) :
    exec (.tick ch) s = .next { s with
      now := s.now + 1#32
      chans := s.chans.map fun c => if c.dueAt (s.now + 1#32) then c.afterFire else c
      result := some (.ok (.fired (BitVec.ofNat 8 (s.chans.countP fun c => c.dueAt (s.now + 1#32))))) } := by
  simp only [exec, execTick, hs, fireDue_dueAt h]
  rfl

theorem execTick_uninit {s : State} (ch : Byte) (hs : s.halted = false) {pre post : List Channel}
    {c : Channel} (hchans : s.chans = pre ++ c :: post)
    (h : ∀ d ∈ pre, d.dueAt (s.now + 1#32) = true → d.rxf.inited = true)
    (hdue : c.dueAt (s.now + 1#32) = true) (hi : c.rxf.inited = false) :
    exec (.tick ch) s = .next { s with
      now := s.now + 1#32
      chans := (pre.map fun d => if d.dueAt (s.now + 1#32) then d.afterFire else d) ++ c :: post
      halted := true
      faultCode := .assertUninit
      result := some (.fault .assertUninit) } := by
  simp only [Channel.dueAt_eq, Channel.afterFire_eq] at h hdue ⊢
  obtain ⟨hfired, hfault⟩ := fireDue_fault (post := post) h hdue hi
  simp only [exec, execTick, hs, hchans, hfired, hfault]
  rfl

/-! ### A deadline followed to its fire (R107) -/

/-- No `TICK` faults: the block runs, and every `RXF` is initialised. -/
structure State.Ticking (s : State) : Prop where
  running : s.halted = false
  inited : ∀ e ∈ s.chans, e.rxf.inited = true

/-- A `TICK` fires a channel that is due and leaves any other as it is. -/
theorem State.Ticking.tick {s : State} (h : s.Ticking) (ch : Byte) :
    ∃ t, exec (.tick ch) s = .next t ∧ t.Ticking ∧ t.now = s.now + 1#32 ∧
      ∀ (k : Nat) (c : Channel), s.chans[k]? = some c →
        t.chans[k]? = some (if c.dueAt (s.now + 1#32) then c.afterFire else c) := by
  refine ⟨_, execTick_all ch h.running fun c hc _ => h.inited c hc, ⟨h.running, fun e he => ?_⟩, rfl,
    fun k c hc => ?_⟩
  · obtain ⟨c, hc, rfl⟩ := List.mem_map.1 he
    split_ifs
    · exact h.inited c hc
    · exact h.inited c hc
  · rw [List.getElem?_map, hc]
    rfl

/-- `TICK`s in none of which the channel is due leave it as it is. -/
theorem State.Ticking.ticks {s : State} (h : s.Ticking) (ch : Byte) {k n : Nat} {c : Channel}
    (hc : s.chans[k]? = some c)
    (hnot : ∀ m, 0 < m → m ≤ n → c.dueAt (s.now + BitVec.ofNat 32 m) = false) :
    ∃ t, execList (List.replicate n (.tick ch)) s = .next t ∧ t.Ticking ∧
      t.now = s.now + BitVec.ofNat 32 n ∧ t.chans[k]? = some c := by
  induction n generalizing s with
  | zero => exact ⟨s, rfl, h, (BitVec.add_zero _).symm, hc⟩
  | succ n ih =>
    obtain ⟨t, htick, ht, hnow, hchans⟩ := h.tick ch
    have hsince : ∀ m, t.now + BitVec.ofNat 32 m = s.now + BitVec.ofNat 32 (m + 1) := fun m => by
      rw [hnow, add_assoc, Nat.add_comm m, BitVec.ofNat_add]
    have hkept : t.chans[k]? = some c := by
      rw [hchans k c hc, show c.dueAt (s.now + 1#32) = false from hnot 1 (by omega) (by omega)]
      rfl
    obtain ⟨u, hticks, hu, hunow, hucs⟩ :=
      ih ht hkept fun m _ hm => hsince m ▸ hnot (m + 1) (by omega) (by omega)
    refine ⟨u, ?_, hu, hunow.trans (hsince n), hucs⟩
    rw [List.replicate_succ, execList, htick]
    exact hticks

/-- A timer armed at `start` with delay `d` is due from `d` ms after that on. -/
theorem Channel.dueAt_armed {c : Channel} (hengaged : c.tmr.engaged = true) (start : Time) {m d : Nat}
    (hm : m < 2 ^ 31) (hd : d < 2 ^ 31) :
    (c.armed start (BitVec.ofNat 32 d)).dueAt (start + BitVec.ofNat 32 m) = decide (d ≤ m) := by
  rw [← reached_since start hm hd, Channel.dueAt_eq]
  simp [Channel.armed, Timer.due, hengaged]

end Sys2Proof.Machine

namespace Sys2Proof
open Machine

/-- Settles O11: every operation keeps pending deadlines ahead (`exec_deadlinesAhead`); the idle step and
the answer to a reserved opcode move neither `now` nor a timer. -/
theorem stepKeepsDeadlinesAhead : Obligations.StepKeepsDeadlinesAhead := by
  intro s t hw h hstep
  obtain rfl | ⟨rest, ⟨i, hexec⟩ | ⟨-, rfl⟩ | ⟨-, rfl⟩⟩ := step_cases hstep
  · exact h
  · exact exec_deadlinesAhead (s := { s with requests := rest }) hw h hexec
  · exact h
  · rfl

/-- Settles O31: the difference of the two times decides (`reached_iff`). -/
theorem reachedComparesAcrossTheWrap : Obligations.ReachedComparesAcrossTheWrap := by
  refine ⟨fun now d => ?_, fun now => ?_, fun _ _ => reached_ahead,
    fun _ _ => reached_behind.2, fun now x hx => ?_, by decide, by decide⟩
  · rw [reached_iff, BitVec.toNat_sub]
    omega
  · simp [reached_iff]
  · rw [reached_eq_false_iff, sub_sub_cancel, hx]

/-- Settles O32: the three cases of `Channel.tmrInit`; on an engaged timer the channel is written back as
it stands. -/
theorem tmrInitEngagesOnce : Obligations.TmrInitEngagesOnce := by
  refine fun ch s => ⟨rfl, checksFirst rfl s, fun c hc => ⟨fun h => ?_,
    fun h hslot => tmrInit_raises hc (Channel.tmrInit_unslotted h hslot),
    fun h hslot => tmrInit_leaves hc (Channel.tmrInit_slotted h hslot)⟩⟩
  have hsame := tmrInit_leaves hc (Channel.tmrInit_engaged h)
  rwa [Leaves, set_of_getElem? hc.2] at hsame

/-- Settles O33: a reserved delay faults first (`tmrArm_reserved`); a legal one leaves the check of
`engaged` (`exec_tmrArm_legal`). -/
theorem tmrArmReplacesTheDeadline : Obligations.TmrArmReplacesTheDeadline := by
  refine fun ch delay s => ⟨?_, checksFirst rfl s, fun c hc => ⟨tmrArm_reserved hc, fun hd h => ?_,
    fun hd h => ?_⟩⟩
  · rw [encode, le32_eq]
  · rw [Raises, exec_tmrArm_legal hc hd, h]
    rfl
  · rw [Leaves, exec_tmrArm_legal hc hd, h]
    rfl

/-- Settles O34: after the check of `engaged` the deadline is as far from `now` as it can be
(`reached_cancelled`), and a timer that plans nothing is never due. -/
theorem tmrCancelUnplans : Obligations.TmrCancelUnplans := by
  refine fun ch s => ⟨rfl, checksFirst rfl s, fun c hc => ⟨fun h => ?_, fun h =>
    ⟨?_, fun x => reached_cancelled, fun later => ?_⟩⟩⟩
  · rw [Raises, exec_tmrCancel_ready hc, h]
    rfl
  · rw [Leaves, exec_tmrCancel_ready hc, h]
    rfl
  · simp [Channel.dueAt]

/-- Settles O35: the three ways a `TICK` can end. -/
theorem tickFiresEveryDueChannel : Obligations.TickFiresEveryDueChannel := fun ch _ =>
  ⟨rfl, fun hs => execTick_halted hs ch, execTick_all ch,
    fun hs _ _ _ hchans h hdue hi => execTick_uninit ch hs hchans h hdue hi⟩

/-- Settles O36: before the last `TICK` the armed deadline is not reached (`Channel.dueAt_armed`), so the
`TICK`s keep the channel (`State.Ticking.ticks`); the last one reaches it. -/
theorem armedDeadlineFiresOnTime : Obligations.ArmedDeadlineFiresOnTime := by
  intro s ch c d hc hengaged hinited hd
  have harm : exec (.tmrArm ch (BitVec.ofNat 32 d)) s =
      .next (s.committed ch (c.armed s.now (BitVec.ofNat 32 d)) (.ok .done)) := by
    rw [exec_tmrArm_legal hc ((toNat_ofNat_count hd).trans_lt hd), hengaged]
    rfl
  have hticking : (s.committed ch (c.armed s.now (BitVec.ofNat 32 d)) (.ok .done)).Ticking := by
    refine ⟨hc.1, fun e he => ?_⟩
    obtain he | rfl := List.mem_or_eq_of_mem_set he
    · exact hinited e he
    · exact hinited c (List.mem_of_getElem? hc.2)
  obtain ⟨t, hticks, ht, hnow, hkept⟩ := hticking.ticks ch (n := d - 1)
    (State.ready_committed hc _ _).2 fun m h0 hm => by
      rw [State.committed_now, Channel.dueAt_armed hengaged _ (by omega) hd, decide_eq_false_iff_not]
      omega
  obtain ⟨u, htick, -, -, hchans⟩ := ht.tick ch
  have hdue : (c.armed s.now (BitVec.ofNat 32 d)).dueAt (t.now + 1#32) = true := by
    have hlast : t.now + 1#32 = s.now + BitVec.ofNat 32 (d - 1 + 1) := by
      rw [hnow, State.committed_now, add_assoc, BitVec.ofNat_add]
    rw [hlast, Channel.dueAt_armed hengaged _ (by omega) hd, decide_eq_true_eq]
    omega
  refine ⟨t, u, _, ?_, hkept, rfl, rfl, rfl, hnow, htick, ?_⟩
  · rw [execList, harm]
    exact hticks
  · rw [hchans _ _ hkept, hdue]
    rfl

end Sys2Proof
end

section
/-! Proofs about the checksum unit (R115 to R118): feeding the two checksum bytes to the default algorithm
cancels the checksum and nothing else does, so the checksum of a whole frame is 0 exactly when it is valid. -/

namespace Sys2Proof.Machine

/-! ### Zero residue -/

theorem of16_eq_shiftLeft_xor (lo hi : Byte) :
    of16 lo hi = hi.setWidth 16 <<< 8 ^^^ lo.setWidth 16 := by
  apply BitVec.eq_of_getLsbD_eq
  intro k hk
  rw [of16, BitVec.getLsbD_append]
  by_cases hk8 : k < 8
  · simp [hk, hk8]
  · simp [hk, hk8, BitVec.getLsbD_of_ge lo k (by omega)]

/-- Eight shifts bring the high byte down: the low byte shifted out is 0. -/
theorem crcShifts_highByte (hi : Byte) : crcShifts 8 (hi.setWidth 16 <<< 8) = hi.setWidth 16 := by
  have hlow : ∀ k < 8, (hi.setWidth 16 <<< 8 : Half).getLsbD k = false := fun k hk => by simp [hk]
  rw [crcShifts_low 8 _ hlow]
  apply BitVec.eq_of_getLsbD_eq
  intro k hk
  have hbyte : hi.getLsbD k = true → 8 + k < 16 := fun hset =>
    Nat.add_lt_add_left (BitVec.lt_of_getLsbD hset) 8
  simpa [hk] using hbyte

theorem crcShifts_inj {n : Nat} {a b : Half} : crcShifts n a = crcShifts n b ↔ a = b :=
  ⟨crcShifts_injective, congrArg _⟩

/-- A byte cancels exactly the checksum it is equal to. -/
theorem crcByte_eq_zero_iff {crc : Half} {b : Byte} : crcByte crc b = 0 ↔ crc = b.setWidth 16 := by
  have hzero : crcShifts 8 0 = 0 := crcShifts_low 8 0 fun _ _ => BitVec.getLsbD_zero
  rw [crcByte, ← hzero, crcShifts_inj]
  exact BitVec.xor_eq_zero_iff

/-- The low byte cancels the low half of the checksum and leaves the high half, shifted down. -/
theorem crcByte_eq_highByte_iff {crc : Half} {lo hi : Byte} :
    crcByte crc lo = hi.setWidth 16 ↔ crc = of16 lo hi := by
  rw [crcByte, ← crcShifts_highByte hi, crcShifts_inj, of16_eq_shiftLeft_xor,
    ← BitVec.xor_left_inj (lo.setWidth 16), BitVec.xor_assoc, BitVec.xor_self, BitVec.xor_zero]

/-- R118 (c), in both directions: two bytes after a span bring the checksum to 0 exactly when they are its
checksum, low byte first. -/
theorem crcModbus_twoBytes_eq_zero_iff {x : List Byte} {seed : Half} {lo hi : Byte} :
    crcModbus (x ++ [lo, hi]) seed = 0 ↔ crcModbus x seed = of16 lo hi := by
  rw [crcModbus_append, ← crcByte_eq_highByte_iff, ← crcByte_eq_zero_iff]
  rfl

/-! ### Frames -/

/-- A sequence that is long enough is written as a tag, a payload and two checksum bytes (R61). -/
theorem exists_frame_parts {fr : List Byte} (h : 6 ≤ fr.length) :
    ∃ t payload x0 x1, fr = tagBytes t ++ payload ++ [x0, x1] := by
  obtain ⟨t, htag⟩ := exists_tag (show 4 ≤ fr.length by omega)
  have hfield : (fr.drop (fr.length - 2)).length = 2 := by
    rw [List.length_drop]
    omega
  obtain ⟨x0, x1, hx⟩ := List.length_eq_two.1 hfield
  refine ⟨t, framePayload fr, x0, x1, ?_⟩
  have hcovered : fr.take 4 = (fr.take (fr.length - 2)).take 4 := by
    rw [List.take_take, Nat.min_eq_left (by omega)]
  rw [htag, hcovered, framePayload, List.take_append_drop, ← hx, List.take_append_drop]

/-- R118 (c) of a frame: with the default algorithm and the low checksum byte first, the frame is valid
exactly when the checksum of all of it is 0. -/
theorem frameValid_iff_crcModbus_eq_zero {cfg : Config} {fr : List Byte}
    (halg : cfg.checksum = .modbus) (hlsb : cfg.crcLsbFirst = true) (h : 6 ≤ fr.length) :
    frameValid cfg fr = true ↔ crcModbus fr cfg.crcSeed = 0 := by
  obtain ⟨t, payload, x0, x1, rfl⟩ := exists_frame_parts h
  rw [frameValid_iff, crcModbus_twoBytes_eq_zero_iff, halg, hlsb]
  rfl

end Sys2Proof.Machine

namespace Sys2Proof
open Machine

/-- Settles O39: the checksum is a fold over the bytes (`crcModbus_append`); the two checksum bytes are
read back as the checksum (`of16_of_le16`), so they cancel it (`crcModbus_twoBytes_eq_zero_iff`). The
values the rule lists are evaluated. -/
theorem defaultChecksumProperties : Obligations.DefaultChecksumProperties := by
  refine ⟨fun _ => rfl, crcModbus_append,
    fun _ _ => crcModbus_twoBytes_eq_zero_iff.2 (of16_of_le16 _).symm,
    fun _ _ => frameValid_iff_crcModbus_eq_zero, ?_⟩
  decide +kernel

/-- Settles O38: check 1 of R167 is the only one; a running block answers the configured checksum, which
for the default algorithm and an empty span is the seed. -/
theorem crcIsPure : Obligations.CrcIsPure := by
  intro ch seed d s
  have hrunning : s.halted = false →
      Answers (.crc16 ch seed d) s (.ok (.crc (crc16 s.cfg.checksum d seed))) :=
    fun hs => unlessHalted_running hs _
  refine ⟨fun hd => ?_, fun hs => unlessHalted_halted hs _, hrunning, fun hs halg hd => ?_⟩
  · rw [encode, spanCount, le16_eq, le16_ofNat hd]
    rfl
  · subst hd
    have hanswer := hrunning hs
    rw [halg] at hanswer
    exact hanswer

end Sys2Proof
end

section
/-! Proofs about the frame parser (R125 to R138): the phase is read off the queued bytes, and past its
checks `FP_PROCESS` waits, drops one byte, or consumes a whole frame, which it discards or dispatches.  That
`PROCESS_ALL` ends is an induction over its fuel; a frame fed byte by byte is one over the bytes fed. -/

namespace Sys2Proof.Machine

/-- The invariant of the machine holds of every Ring Buffer in use (R16). -/
theorem State.fifo_ring {s : State} (hw : s.wf = true) {ch : Byte} {c : Channel} (hc : s.ready ch c)
    {f : FifoSel} (hi : (c.fifo f).inited = true) : (c.fifo f).Ring s.cfg.capacity :=
  Fifo.ring_of_wf (Channel.wf_fifo (State.channel_wf hw hc.2) f) hi

/-! ### The phases of a recognised tag (R126) -/

theorem phaseOfEntry_payload {e : TableEntry} {len : Nat} (h : len < 4 + e.payloadLen) :
    phaseOfEntry e len = .awaitingPayload e := if_pos h

theorem phaseOfEntry_checksum {e : TableEntry} {len : Nat} (hp : 4 + e.payloadLen ≤ len)
    (h : len < 6 + e.payloadLen) : phaseOfEntry e len = .awaitingChecksum e :=
  (if_neg hp.not_gt).trans (if_pos h)

theorem phaseOfEntry_validating {e : TableEntry} {len : Nat} (h : 6 + e.payloadLen ≤ len) :
    phaseOfEntry e len = .validating e :=
  (if_neg (by omega)).trans (if_neg h.not_gt)

/-- A frame at the head of the queue is validated, whatever follows it. -/
theorem phaseOf_frame {table : List TableEntry} (hn : (table.map TableEntry.tag).Nodup)
    {e : TableEntry} (he : e ∈ table) {payload rest : List Byte} (hp : payload.length = e.payloadLen)
    (x0 x1 : Byte) :
    phaseOf table (tagBytes e.tag ++ payload ++ [x0, x1] ++ rest) = .validating e := by
  rw [phaseOf_known hn he (by simp [List.append_assoc, List.take_append]), phaseOfEntry_validating]
  simp only [List.length_append, tagBytes_length, hp, List.length_cons, List.length_nil]
  omega

/-! ### Channels whose queue is no frame yet (R129) -/

/-- The queued bytes are too few for a frame: for a tag, or for the frame of the tag they start with. -/
def Incomplete (table : List TableEntry) (q : List Byte) : Prop :=
  q.length < 4 ∨ ∃ e ∈ table, tagBytes e.tag = q.take 4 ∧ q.length < 6 + e.payloadLen

theorem Channel.waiting_of_incomplete {cap : Nat} {c : Channel}
    (hn : (c.cfg.table.map TableEntry.tag).Nodup)
    (h : Incomplete c.cfg.table (c.rxf.contents cap)) : c.waiting cap = true := by
  rw [Channel.waiting]
  obtain hshort | ⟨e, he, htag, hl⟩ := h
  · rw [phaseOf_short hshort]
  · rw [phaseOf_known hn he htag]
    by_cases hp : (c.rxf.contents cap).length < 4 + e.payloadLen
    · rw [phaseOfEntry_payload hp]
    · rw [phaseOfEntry_checksum (not_lt.1 hp) hl]

/-- A channel waits, holds 4 bytes that are no tag, or holds a complete candidate frame. -/
theorem Channel.waiting_cases (cap : Nat) (c : Channel) :
    c.waiting cap = true ∨ phaseOf c.cfg.table (c.rxf.contents cap) = .unknownTag ∨
      ∃ e, phaseOf c.cfg.table (c.rxf.contents cap) = .validating e := by
  unfold Channel.waiting
  cases phaseOf c.cfg.table (c.rxf.contents cap) with
  | awaitingTag => exact .inl rfl
  | awaitingPayload => exact .inl rfl
  | awaitingChecksum => exact .inl rfl
  | unknownTag => exact .inr (.inl rfl)
  | validating e => exact .inr (.inr ⟨e, rfl⟩)

/-! ### A response in `TXF` (R135) -/

/-- The Ring Buffer after a response is offered to it: whole in it, or as it was. -/
def Fifo.offered (cap : Nat) (F : Fifo) (d : List Byte) : Fifo := (F.putSpan cap d).getD F

theorem Fifo.offered_accepted {cap : Nat} {F : Fifo} {d : List Byte}
    (h : F.allowOverwrite = true ∨ F.length + d.length ≤ cap) : F.offered cap d = F.putAll cap d := by
  rw [Fifo.offered, Fifo.putSpan_eq, if_pos h, Option.getD_some]

theorem Fifo.offered_refused {cap : Nat} {F : Fifo} {d : List Byte}
    (h : ¬ (F.allowOverwrite = true ∨ F.length + d.length ≤ cap)) : F.offered cap d = F := by
  rw [Fifo.offered, Fifo.putSpan_eq, if_neg h, Option.getD_none]

/-- Accepted or refused, a response leaves the policy, and every byte outside the slots it needs. -/
theorem Fifo.Ring.offered_frame {cap : Nat} {F : Fifo} (h : F.Ring cap) (d : List Byte) :
    (F.offered cap d).allowOverwrite = F.allowOverwrite ∧
      ∀ a, (∀ k < d.length, a ≠ (F.putIndex + k) % cap) →
        (F.offered cap d).storage.read a = F.storage.read a := by
  by_cases hd : F.allowOverwrite = true ∨ F.length + d.length ≤ cap
  · obtain ⟨-, -, -, hpolicy, -, -⟩ := h.putAll hd
    rw [Fifo.offered_accepted hd]
    exact ⟨hpolicy, h.putAll_frame d⟩
  · rw [Fifo.offered_refused hd]
    exact ⟨rfl, fun _ _ => rfl⟩

/-- A response that is accepted joins the queue as a span does (R84). -/
theorem Fifo.Ring.offered_queue {cap : Nat} {F : Fifo} (h : F.Ring cap) {d : List Byte}
    (hd : F.allowOverwrite = true ∨ F.length + d.length ≤ cap) :
    (F.offered cap d).contents cap = (F.contents cap ++ d).drop (F.length + d.length - cap) ∧
      (F.offered cap d).putIndex = (F.putIndex + d.length) % cap ∧
      (F.offered cap d).getIndex = (F.getIndex + (F.length + d.length - cap)) % cap := by
  obtain ⟨-, hcontents, -, -, hput, hget⟩ := h.putAll hd
  rw [Fifo.offered_accepted hd]
  exact ⟨hcontents, hput, hget⟩

/-! ### What becomes of a complete candidate frame (R130 to R135) -/

/-- The result of the handler called for a frame on channel `ch` (R133). -/
def Channel.handlerResult (ch : Byte) (c : Channel) (e : TableEntry) (payload : List Byte) : List Byte :=
  (callHandler ch.toNat e.handler e.tag payload c.app).1

/-- The response to a frame (R135). -/
def Channel.response (cfg : Config) (ch : Byte) (c : Channel) (e : TableEntry)
    (payload : List Byte) : List Byte :=
  encodeFrame cfg e.tag (c.handlerResult ch e payload)

@[simp] theorem Channel.response_length (cfg : Config) (ch : Byte) (c : Channel) (e : TableEntry)
    (payload : List Byte) :
    (c.response cfg ch e payload).length = 6 + (c.handlerResult ch e payload).length :=
  encodeFrame_length cfg e.tag _

/-- The channel after the dispatch of a frame: the response is offered to `TXF`, and the call is recorded
(R132, R133, R135). -/
def Channel.dispatched (cfg : Config) (ch : Byte) (c : Channel) (e : TableEntry)
    (payload : List Byte) : Channel :=
  { c with
    txf := c.txf.offered cfg.capacity (c.response cfg ch e payload)
    app := { answers := c.app.answers.tail
             calls := c.app.calls ++ [⟨e.handler, e.tag, payload, c.handlerResult ch e payload⟩] } }

theorem dispatchFrame_eq (s : State) (ch : Byte) (c : Channel) (e : TableEntry)
    (payload : List Byte) (x0 x1 : Byte) :
    dispatchFrame s ch c e (tagBytes e.tag ++ payload ++ [x0, x1]) =
      commit s ch (c.dispatched s.cfg ch e payload) (.ok (.outcome .dispatch)) := by
  obtain ⟨hpayload, -, -⟩ := frame_parts s.cfg e.tag payload x0 x1
  rw [dispatchFrame, hpayload]
  rfl

/-- Valid or not, a candidate frame is taken out of `RXF` whole, and the timer is left alone. -/
theorem consumeFrame_commits (s : State) (ch : Byte) (c : Channel) (e : TableEntry) :
    ∃ (o : ParseOutcome) (d : Channel), consumeFrame s ch c e = commit s ch d (.ok (.outcome o)) ∧
      d.rxf = (Fifo.takeAll s.cfg.capacity (frameLength e) c.rxf).2 ∧ d.tmr = c.tmr ∧
      o ≠ .noFrame := by
  simp only [consumeFrame]
  split_ifs
  · exact ⟨.dispatch, _, rfl, rfl, rfl, by decide⟩
  · exact ⟨.discard, _, rfl, rfl, rfl, by decide⟩

/-! ### `FP_PROCESS` past its checks -/

section
variable {s : State} {ch : Byte} {c : Channel} (hc : s.ready ch c) (hrx : c.rxf.inited = true)
  (htx : c.txf.inited = true)
include hc

theorem fpProcess_uninit (h : c.rxf.inited = false ∨ c.txf.inited = false) :
    Raises (.fpProcess ch) s .assertUninit := by
  rw [Raises, exec, execFpProcess, onChannel_ready hc, (Bool.and_eq_false_iff).2 h]
  rfl

include hrx htx

/-- `FP_PROCESS` reaches a next state only where storage can be accessed (R32). -/
theorem fpProcess_addressable {t : State} (h : exec (.fpProcess ch) s = .next t) :
    c.txf.addressable s.cfg.capacity = true := by
  rw [exec, execFpProcess, onChannel_ready hc, hrx, htx] at h
  exact (Bool.and_eq_true_iff.1 (whenAddressable_next h).1).2

variable (hr : c.rxf.Ring s.cfg.capacity) (hx : c.txf.addressable s.cfg.capacity = true)
include hr hx

theorem fpProcess_waiting (h : c.waiting s.cfg.capacity = true) :
    Answers (.fpProcess ch) s (.ok (.outcome .noFrame)) := by
  rw [Answers, exec, execFpProcess_ready hc hrx htx hr.addressable hx]
  unfold Channel.waiting at h
  cases hphase : phaseOf c.cfg.table (c.rxf.contents s.cfg.capacity) with
  | awaitingTag => rfl
  | awaitingPayload => rfl
  | awaitingChecksum => rfl
  | unknownTag => simp [hphase] at h
  | validating => simp [hphase] at h

theorem fpProcess_unknownTag
    (h : phaseOf c.cfg.table (c.rxf.contents s.cfg.capacity) = .unknownTag) :
    Leaves (.fpProcess ch) s ch { c with rxf := c.rxf.dropped s.cfg.capacity }
      (.ok (.outcome .resync)) := by
  rw [Leaves, exec, execFpProcess_ready hc hrx htx hr.addressable hx, h]
  rfl

theorem fpProcess_validating {e : TableEntry}
    (h : phaseOf c.cfg.table (c.rxf.contents s.cfg.capacity) = .validating e) :
    exec (.fpProcess ch) s = consumeFrame s ch c e := by
  rw [exec, execFpProcess_ready hc hrx htx hr.addressable hx, h]

/-- `FP_PROCESS` with a frame at the head of the queue: the frame is consumed whole, dispatched if its
checksum matches and discarded if not. -/
theorem fpProcess_frame (hlegal : s.tablesLegal = true) {e : TableEntry} (he : e ∈ c.cfg.table)
    {payload rest : List Byte} {x0 x1 : Byte} (hp : payload.length = e.payloadLen)
    (hq : c.rxf.contents s.cfg.capacity = tagBytes e.tag ++ payload ++ [x0, x1] ++ rest) :
    ∃ R : Fifo, R.contents s.cfg.capacity = rest ∧
      R = { c.rxf with
        getIndex := (c.rxf.getIndex + (6 + e.payloadLen)) % s.cfg.capacity
        length := c.rxf.length - (6 + e.payloadLen) } ∧
      (crc16 s.cfg.checksum (tagBytes e.tag ++ payload) s.cfg.crcSeed = dec16 s.cfg.crcLsbFirst x0 x1 →
        Leaves (.fpProcess ch) s ch (Channel.dispatched s.cfg ch { c with rxf := R } e payload)
          (.ok (.outcome .dispatch))) ∧
      (crc16 s.cfg.checksum (tagBytes e.tag ++ payload) s.cfg.crcSeed ≠ dec16 s.cfg.crcLsbFirst x0 x1 →
        Leaves (.fpProcess ch) s ch { c with rxf := R } (.ok (.outcome .discard))) := by
  have hphase : phaseOf c.cfg.table (c.rxf.contents s.cfg.capacity) = .validating e := by
    rw [hq]
    exact phaseOf_frame (State.table_nodup hlegal hc.2) he hp x0 x1
  obtain ⟨R, -, hrest, hR, hconsume⟩ := consumeFrame_frame (s := s) (ch := ch) hr hp hq
  refine ⟨R, hrest, hR, fun hcrc => ?_, fun hcrc => ?_⟩
  · rw [Leaves, fpProcess_validating hc hrx htx hr hx hphase, hconsume, if_pos hcrc, dispatchFrame_eq]
    rfl
  · rw [Leaves, fpProcess_validating hc hrx htx hr hx hphase, hconsume, if_neg hcrc]
    rfl

/-- R134: `FP_PROCESS` removes the oldest bytes of `RXF`, none of them exactly when it answers `NoFrame`. -/
theorem fpProcess_progress :
    ∃ (o : ParseOutcome) (d : Channel) (n : Nat),
      Leaves (.fpProcess ch) s ch d (.ok (.outcome o)) ∧
      d.rxf.contents s.cfg.capacity = (c.rxf.contents s.cfg.capacity).drop n ∧
      n ≤ c.rxf.length ∧ (n = 0 ↔ o = .noFrame) ∧ d.tmr = c.tmr := by
  obtain ⟨hunknown, hvalid⟩ := @phaseOf_length c.cfg.table (c.rxf.contents s.cfg.capacity)
  rw [Fifo.contents_length] at hunknown hvalid
  obtain hwaits | hphase | ⟨e, hphase⟩ := c.waiting_cases s.cfg.capacity
  · refine ⟨.noFrame, c, 0, ?_, rfl, Nat.zero_le _, by simp, rfl⟩
    rw [Leaves, set_of_getElem? hc.2]
    exact fpProcess_waiting hc hrx htx hr hx hwaits
  · have hl : 0 < c.rxf.length := by
      have := hunknown hphase
      omega
    refine ⟨.resync, _, 1, fpProcess_unknownTag hc hrx htx hr hx hphase, ?_, hl, by simp, rfl⟩
    rw [hr.contents_cons hl]
    rfl
  · obtain ⟨o, d, hconsume, hd, htmr, ho⟩ := consumeFrame_commits s ch c e
    obtain ⟨-, hdrop, -, -⟩ := hr.takeAll (hvalid e hphase)
    refine ⟨o, d, frameLength e, ?_, hd ▸ hdrop, hvalid e hphase, ?_, htmr⟩
    · rw [Leaves, fpProcess_validating hc hrx htx hr hx hphase, hconsume]
      rfl
    · have hlong : frameLength e ≠ 0 := by
        rw [frameLength]
        omega
      exact iff_of_false hlong ho

end

/-! ### `PROCESS_ALL` (R74, R134) -/

/-- An outcome of `FP_PROCESS` ends the loop exactly when it is `NoFrame`. -/
theorem endsProcessing_outcome {t : State} {o : ParseOutcome}
    (h : t.result = some (.ok (.outcome o))) : endsProcessing t = decide (o = .noFrame) := by
  rw [endsProcessing, h]
  cases o <;> rfl

theorem processLoop_succ {ch : Byte} {s t : State} (h : exec (.fpProcess ch) s = .next t) (fuel : Nat) :
    processLoop (fuel + 1) ch s = if endsProcessing t then .next t else processLoop fuel ch t := by
  rw [processLoop, h]

/-- More invocations than bytes queued reach `NoFrame`: each but the last removes a byte. -/
theorem processLoop_ends {fuel : Nat} {ch : Byte} {s : State} {c : Channel} (hw : s.wf = true)
    (hc : s.ready ch c) (hrx : c.rxf.inited = true) (htx : c.txf.inited = true)
    (hfuel : c.rxf.length < fuel) :
    ∃ t, processLoop fuel ch s = .next t ∧ t.halted = false ∧
      t.result = some (.ok (.outcome .noFrame)) := by
  induction fuel generalizing s c with
  | zero => omega
  | succ fuel ih =>
    obtain ⟨o, d, n, hleaves, hcontents, hn, hnoFrame, -⟩ :=
      fpProcess_progress hc hrx htx (State.fifo_ring hw hc (f := .rx) hrx)
        (State.fifo_ring hw hc (f := .tx) htx).addressable
    have hready := State.ready_committed hc d (.ok (.outcome o))
    obtain ⟨hdrx, hdtx, -⟩ := exec_units hleaves hc.2 hready.2
    rw [processLoop_succ hleaves, endsProcessing_outcome rfl]
    by_cases ho : o = .noFrame
    · subst ho
      exact ⟨_, rfl, hc.1, rfl⟩
    · rw [decide_eq_false ho]
      have hlength := congrArg List.length hcontents
      rw [List.length_drop, Fifo.contents_length, Fifo.contents_length] at hlength
      have hn0 : n ≠ 0 := fun h0 => ho (hnoFrame.1 h0)
      exact ih (exec_wf hw hleaves) hready (hdrx hrx) (hdtx htx) (by omega)

/-! ### A frame fed byte by byte (R138) -/

/-- `RXBYTE` with room in `RXF`: the byte joins the queue and the timer is armed (R146). -/
theorem rxByte_leaves {s : State} {ch : Byte} {c : Channel} (hc : s.ready ch c)
    (hrx : c.rxf.inited = true) (htmr : c.tmr.engaged = true) (hr : c.rxf.Ring s.cfg.capacity) {b : Byte}
    {G : Fifo} (h : c.rxf.put s.cfg.capacity b = some G) :
    Leaves (.rxByte ch b) s ch { c.armed s.now s.cfg.idleDelay with rxf := G } (.ok .done) := by
  rw [Leaves, exec, execRxByte, onChannel_ready hc, hrx, htmr, hr.addressable, h]
  rfl

/-- The block is ready on channel `ch`, whose `RXF` holds the queue `q` and whose timer is engaged; in
everything else the channel is `c`, and the parameters are `cfg`. -/
structure State.Received (s : State) (ch : Byte) (cfg : Config) (c : Channel) (q : List Byte) : Prop where
  wf : s.wf = true
  cfg_eq : s.cfg = cfg
  channel : ∃ R T, s.ready ch { c with rxf := R, tmr := T } ∧ R.inited = true ∧ T.engaged = true ∧
    R.contents cfg.capacity = q

section
variable {s : State} {ch : Byte} {cfg : Config} {c : Channel} {q : List Byte}
  (h : s.Received ch cfg c q)
include h

theorem State.Received.rxByte (hroom : q.length < cfg.capacity) (b : Byte) :
    ∃ t, exec (.rxByte ch b) s = .next t ∧ t.result = some (.ok .done) ∧
      t.Received ch cfg c (q ++ [b]) := by
  obtain ⟨hw, rfl, R, T, hc, hR, hT, rfl⟩ := h
  have hr : R.Ring s.cfg.capacity := State.fifo_ring hw hc (f := .rx) hR
  rw [Fifo.contents_length] at hroom
  obtain ⟨G, hput, -, hcontents, -⟩ := hr.put_room hroom b
  have hleaves := rxByte_leaves hc hR hT hr hput
  exact ⟨_, hleaves, rfl, exec_wf hw hleaves, rfl, G, _, State.ready_committed hc _ _,
    (hr.put_some hput).2.1.trans hR, hT, hcontents⟩

variable (htx : c.txf.inited = true)
include htx

theorem State.Received.waits (hq : Incomplete c.cfg.table q) :
    ∃ t, exec (.fpProcess ch) s = .next t ∧ t.result = some (.ok (.outcome .noFrame)) ∧
      t.Received ch cfg c q := by
  obtain ⟨hw, rfl, R, T, hc, hR, hT, rfl⟩ := h
  have hanswers := fpProcess_waiting hc hR htx (State.fifo_ring hw hc (f := .rx) hR)
    (State.fifo_ring hw hc (f := .tx) htx).addressable
    (Channel.waiting_of_incomplete (State.table_nodup (State.wf_tablesLegal hw) hc.2) hq)
  exact ⟨_, hanswers, rfl, exec_wf hw hanswers, rfl, R, T, hc, hR, hT, rfl⟩

/-- A whole frame is dispatched and nothing of it is left. -/
theorem State.Received.dispatches {e : TableEntry} (he : e ∈ c.cfg.table) {payload : List Byte}
    (hp : payload.length = e.payloadLen) (hq : q = encodeFrame cfg e.tag payload) :
    ∃ t, exec (.fpProcess ch) s = .next t ∧ t.result = some (.ok (.outcome .dispatch)) ∧
      t.Received ch cfg (c.dispatched cfg ch e payload) [] := by
  obtain ⟨hw, rfl, R, T, hc, hR, hT, hcontents⟩ := h
  obtain ⟨x0, x1, henc, hdec⟩ := enc16_dec16 s.cfg.crcLsbFirst
    (frameChecksum s.cfg (tagBytes e.tag ++ payload))
  have hframe : R.contents s.cfg.capacity = tagBytes e.tag ++ payload ++ [x0, x1] ++ [] := by
    rw [hcontents, hq, encodeFrame, henc, List.append_nil]
  obtain ⟨R', hrest, hR', hdispatch, -⟩ := fpProcess_frame hc hR htx
    (State.fifo_ring hw hc (f := .rx) hR) (State.fifo_ring hw hc (f := .tx) htx).addressable
    (State.wf_tablesLegal hw) he hp hframe
  have hleaves := hdispatch hdec.symm
  exact ⟨_, hleaves, rfl, exec_wf hw hleaves, rfl, R', T, State.ready_committed hc _ _,
    hR' ▸ hR, hT, hrest⟩

end

/-- Bytes that stay too few for a frame are received one by one, with `NoFrame` after each. -/
theorem State.Received.feed {s : State} {ch : Byte} {cfg : Config} {c : Channel} {fr : List Byte}
    {n : Nat} (h : s.Received ch cfg c []) (htx : c.txf.inited = true) (hn : n ≤ fr.length)
    (hroom : fr.length ≤ cfg.capacity) (hfew : ∀ k ≤ n, Incomplete c.cfg.table (fr.take k)) :
    ∃ t, runResults ((fr.take n).flatMap fun b => [.rxByte ch b, .fpProcess ch]) s =
        some ((List.replicate n [some (.ok .done), some (.ok (.outcome .noFrame))]).flatten, t) ∧
      t.Received ch cfg c (fr.take n) := by
  induction n with
  | zero => exact ⟨s, rfl, h⟩
  | succ n ih =>
    obtain ⟨t, hfed, ht⟩ := ih (by omega) fun k hk => hfew k (by omega)
    obtain ⟨u, hput, hdone, hu⟩ := ht.rxByte (by rw [List.length_take]; omega) fr[n]
    rw [List.take_append_getElem] at hu
    obtain ⟨v, hprocess, hnoFrame, hv⟩ := hu.waits htx (hfew (n + 1) le_rfl)
    refine ⟨v, ?_, hv⟩
    rw [← List.take_append_getElem (show n < fr.length by omega), List.flatMap_append,
      runResults_append, hfed, Option.bind_some, List.flatMap_singleton,
      runResults_cons hput hdone (runResults_cons hprocess hnoFrame rfl), List.replicate_succ',
      List.flatten_append]
    rfl

/-- Fewer bytes than a frame has are too few for it. -/
theorem incomplete_take {table : List TableEntry} {e : TableEntry} (he : e ∈ table) {fr : List Byte}
    (htag : fr.take 4 = tagBytes e.tag) {k : Nat} (hk : k < 6 + e.payloadLen) :
    Incomplete table (fr.take k) := by
  have hl := List.length_take_le k fr
  by_cases h4 : k < 4
  · exact .inl (by omega)
  · refine .inr ⟨e, he, ?_, by omega⟩
    rw [List.take_take, Nat.min_eq_left (by omega), htag]

/-- The bytes of a frame before the last are received one by one, the last one completes the frame, and
nothing of it is left to process. -/
theorem State.Received.feedFrame {s : State} {ch : Byte} {cfg : Config} {c : Channel}
    (h : s.Received ch cfg c []) (htx : c.txf.inited = true) {e : TableEntry} (he : e ∈ c.cfg.table)
    {payload : List Byte} (hp : payload.length = e.payloadLen)
    (hfits : 6 + e.payloadLen ≤ cfg.capacity) :
    ∃ t, runResults (((encodeFrame cfg e.tag payload).flatMap fun b => [.rxByte ch b, .fpProcess ch]) ++
          [.fpProcess ch]) s =
        some ((List.replicate (5 + e.payloadLen)
            [some (.ok .done), some (.ok (.outcome .noFrame))]).flatten ++
          [some (.ok .done), some (.ok (.outcome .dispatch)), some (.ok (.outcome .noFrame))], t) ∧
      t.Received ch cfg (c.dispatched cfg ch e payload) [] := by
  generalize hfr : encodeFrame cfg e.tag payload = fr
  have htag : fr.take 4 = tagBytes e.tag := by rw [← hfr]; rfl
  have hlength : fr.length = 6 + e.payloadLen := by rw [← hfr, encodeFrame_length, hp]
  have hlast : 5 + e.payloadLen < fr.length := by omega
  have hwhole : fr.take (5 + e.payloadLen) ++ [fr[5 + e.payloadLen]] = fr := by
    rw [List.take_append_getElem, List.take_of_length_le (by omega)]
  obtain ⟨t, hfed, ht⟩ := h.feed htx hlast.le (by omega)
    fun k hk => incomplete_take he htag (by omega)
  obtain ⟨u, hput, hdone, hu⟩ := ht.rxByte (by rw [List.length_take]; omega) fr[5 + e.payloadLen]
  obtain ⟨v, hprocess, hdispatch, hv⟩ := hu.dispatches htx he hp (hwhole.trans hfr.symm)
  have htxd : (c.dispatched cfg ch e payload).txf.inited = true := (Fifo.putSpan_getD_keeps htx).2
  obtain ⟨w, hagain, hnoFrame, hw⟩ := hv.waits htxd (.inl (by decide))
  refine ⟨w, ?_, hw⟩
  rw [← hwhole, List.flatMap_append, List.append_assoc, runResults_append, hfed, Option.bind_some,
    List.flatMap_singleton]
  exact congrArg _ (runResults_cons hput hdone
    (runResults_cons hprocess hdispatch (runResults_cons hagain hnoFrame rfl)))

end Sys2Proof.Machine

namespace Sys2Proof
open Machine

/-- Settles O41: the tag is looked up among the first 4 bytes (`phaseOf_unknown`, `phaseOf_known`); the
number of bytes queued gives the rest. -/
theorem phaseOfTheQueuedBytes : Obligations.PhaseOfTheQueuedBytes := by
  refine fun table q => ⟨phaseOf_short, phaseOf_unknown, fun e he hn htag => ?_⟩
  have h4 : 4 ≤ q.length := by
    have := congrArg List.length htag
    rw [tagBytes_length, List.length_take] at this
    omega
  rw [phaseOf_known hn he htag]
  refine ⟨phaseOfEntry_payload, phaseOfEntry_checksum, phaseOfEntry_validating, fun h0 e' => ?_⟩
  by_cases hl : q.length < 6 + e.payloadLen
  · rw [phaseOfEntry_checksum (by omega) hl]
    exact Phase.noConfusion
  · rw [phaseOfEntry_validating (not_lt.1 hl)]
    exact Phase.noConfusion

/-- Settles O42: checks 1 and 3 of R167 are every operation's (`checksFirst`); a missing buffer fails check 5
(`fpProcess_uninit`). -/
theorem fpProcessNeedsBothBuffers : Obligations.FpProcessNeedsBothBuffers := fun _ s =>
  ⟨rfl, checksFirst rfl s, fun _ => fpProcess_uninit⟩

/-- Settles O43: an incomplete frame is a waiting phase (`Channel.waiting_of_incomplete`); a tag that is
not in the table costs the head of the queue (`Fifo.Ring.contents_cons`). -/
theorem parserWaitsOrResyncs : Obligations.ParserWaitsOrResyncs := by
  intro ch s c hc hrx htx hrw hxw hlegal
  have hr := Fifo.ring_of_wf hrw hrx
  have hx := (Fifo.ring_of_wf hxw htx).addressable
  refine ⟨fun h => fpProcess_waiting hc hrx htx hr hx
    (Channel.waiting_of_incomplete (State.table_nodup hlegal hc.2) ?_), fun h4 h => ?_⟩
  · rwa [Incomplete, Fifo.contents_length]
  · have hphase := phaseOf_unknown (by rwa [Fifo.contents_length]) h
    refine ⟨_, fpProcess_unknownTag hc hrx htx hr hx hphase, ?_, rfl⟩
    rw [hr.contents_cons (by omega)]
    rfl

/-- Settles O44: `fpProcess_frame` where the checksums differ. -/
theorem checksumMismatchDiscardsTheFrame : Obligations.ChecksumMismatchDiscardsTheFrame := by
  intro ch s c e payload rest x0 x1 hc hrx htx hrw hxw hlegal he hp hq hcrc
  obtain ⟨R, hrest, hR, -, hdiscard⟩ := fpProcess_frame hc hrx htx (Fifo.ring_of_wf hrw hrx)
    (Fifo.ring_of_wf hxw htx).addressable hlegal he hp hq
  exact ⟨R, hdiscard hcrc, hrest, hR⟩

/-- Settles O45: `fpProcess_frame` where the checksums agree; what `TXF` holds is that of a span accepted
(`Fifo.Ring.putAll`) or refused. -/
theorem validFrameIsDispatched : Obligations.ValidFrameIsDispatched := by
  intro ch s c e payload rest x0 x1 hc hrx htx hrw hxw hlegal he hp hq hcrc
  have hx := Fifo.ring_of_wf hxw htx
  obtain ⟨R, hrest, hR, hdispatch, -⟩ := fpProcess_frame hc hrx htx (Fifo.ring_of_wf hrw hrx)
    hx.addressable hlegal he hp hq
  obtain ⟨hwf, hinited⟩ := Fifo.putSpan_getD_keeps (cap := s.cfg.capacity)
    (d := c.response s.cfg ch e payload) htx
  obtain ⟨hpolicy, hframe⟩ := hx.offered_frame (c.response s.cfg ch e payload)
  have haccepted := hx.offered_queue (d := c.response s.cfg ch e payload)
  have hrefused := Fifo.offered_refused (cap := s.cfg.capacity) (F := c.txf)
    (d := c.response s.cfg ch e payload)
  rw [Channel.response_length] at hframe haccepted hrefused
  refine ⟨c.handlerResult ch e payload, R, c.txf.offered s.cfg.capacity (c.response s.cfg ch e payload),
    fun _ _ => callHandler_answer, hdispatch hcrc, hrest, hR,
    fun hpol hlong => hrefused (by simpa [hpol] using hlong), fun hfits => ?_,
    fun hpol => (haccepted (.inl hpol)).1, fun hd => (haccepted hd).2, hwf hxw, hinited, hpolicy, hframe⟩
  rw [(haccepted (.inr hfits)).1, Nat.sub_eq_zero_of_le hfits, List.drop_zero]
  rfl

/-- Settles O46: `fpProcess_progress`, and its use on the fuel of `PROCESS_ALL` (`processLoop_ends`). -/
theorem processingMakesProgressAndEnds : Obligations.ProcessingMakesProgressAndEnds := by
  refine ⟨fun ch s t c hc hrx htx hrw h => ?_, fun ch s c hw hc hrx htx => ?_⟩
  · obtain ⟨o, d, n, hleaves, hrest⟩ := fpProcess_progress hc hrx htx (Fifo.ring_of_wf hrw hrx)
      (fpProcess_addressable hc hrx htx h)
    obtain rfl := Host.Outcome.next.inj (h.symm.trans hleaves)
    exact ⟨o, d, n, rfl, getElem?_set_of_some hc.2, hrest⟩
  · refine processLoop_ends hw hc hrx htx ?_
    rw [rxLength, hc.2]
    exact Nat.lt_succ_self _

/-- Settles O47: the bytes before the last are received (`State.Received.feed`), the last one completes the
frame (`State.Received.dispatches`), and an empty queue is no frame. -/
theorem frameRoundTrip : Obligations.FrameRoundTrip := by
  intro ch s c e payload hw hc hup hempty he hp hfits
  simp only [Channel.up, Bool.and_eq_true] at hup
  obtain ⟨⟨hrx, htx⟩, htmr⟩ := hup
  have hreceived : s.Received ch s.cfg c [] :=
    ⟨hw, rfl, c.rxf, c.tmr, hc, hrx, htmr, Fifo.Ring.contents_eq_nil hempty⟩
  obtain ⟨t, hrun, _, -, R, T, ht, -, -, hR⟩ := hreceived.feedFrame htx he hp hfits
  refine ⟨t, _, _, hrun, ht.2, ?_, rfl⟩
  rw [← Fifo.contents_length s.cfg.capacity, hR, List.length_nil]

end Sys2Proof
end

section
/-! Proofs about channel initialisation, byte reception and the pump (R145 to R151): on a ready channel
each answers as the state changes of its units say.  That responses reach the wire in order is a relation
between a channel before and after (`Channel.SentInOrder`) that every operation keeps to, check by check,
and that is transitive along a run. -/

namespace Sys2Proof.Machine

/-! ### The order on the wire (R151) -/

/-- R151 from the channel `c` to the channel `d`: what left for the wire followed by what is queued in
`TXF` has grown by the responses to some of the new handler calls, whole and in the order of the calls;
the policy of `TXF` is as it was. -/
structure Channel.SentInOrder (cfg : Config) (c d : Channel) : Prop where
  policy : d.txf.allowOverwrite = c.txf.allowOverwrite
  responses : ∃ new queued : List HandlerCall,
    d.app.calls = c.app.calls ++ new ∧ queued.Sublist new ∧
    d.wireOut ++ d.txf.contents cfg.capacity =
      c.wireOut ++ c.txf.contents cfg.capacity ++
        queued.flatMap fun call => encodeFrame cfg call.tag call.response

/-- Without a change to `TXF`, the wire and the calls there is no new response. -/
theorem Channel.SentInOrder.of_same {cfg : Config} {c d : Channel} (htxf : d.txf = c.txf)
    (hwire : d.wireOut = c.wireOut) (happ : d.app = c.app) : Channel.SentInOrder cfg c d :=
  ⟨by rw [htxf], [], [], by simp [happ], .refl _, by simp [htxf, hwire]⟩

theorem Channel.SentInOrder.refl (cfg : Config) (c : Channel) : Channel.SentInOrder cfg c c :=
  .of_same rfl rfl rfl

theorem Channel.SentInOrder.trans {cfg : Config} {c d e : Channel}
    (h : Channel.SentInOrder cfg c d) (h' : Channel.SentInOrder cfg d e) :
    Channel.SentInOrder cfg c e := by
  obtain ⟨hpolicy, new, queued, hcalls, hsub, hsent⟩ := h
  obtain ⟨hpolicy', new', queued', hcalls', hsub', hsent'⟩ := h'
  refine ⟨hpolicy'.trans hpolicy, new ++ new', queued ++ queued', ?_, hsub.append hsub', ?_⟩
  · rw [hcalls', hcalls, List.append_assoc]
  · rw [hsent', hsent, List.flatMap_append, List.append_assoc]

/-- An operation that writes another Ring Buffer than `TXF` sends nothing. -/
theorem Channel.SentInOrder.setFifo (cfg : Config) (c : Channel) {f : FifoSel} (hf : f ≠ .tx)
    (F : Fifo) : Channel.SentInOrder cfg c (c.setFifo f F) := by
  cases f with
  | rx => exact .of_same rfl rfl rfl
  | tx => exact absurd rfl hf

/-- What leaves the queue joins the wire. -/
theorem Channel.SentInOrder.pumped {cfg : Config} {c : Channel} (hr : c.txf.Ring cfg.capacity) {m : Nat}
    (hm : m ≤ c.txf.length) :
    Channel.SentInOrder cfg c
      { c with
        txf := (Fifo.takeAll cfg.capacity m c.txf).2
        wireOut := c.wireOut ++ (Fifo.takeAll cfg.capacity m c.txf).1 } := by
  obtain ⟨hbytes, hrest, -, -⟩ := hr.takeAll hm
  obtain ⟨-, -, hpolicy⟩ := Fifo.takeAll_frame cfg.capacity m c.txf
  refine ⟨hpolicy, [], [], (List.append_nil _).symm, .refl _, ?_⟩
  simp only [hbytes, hrest, List.append_assoc, List.take_append_drop, List.flatMap_nil,
    List.append_nil]

/-- With the policy off a response is queued whole behind the others or dropped whole (R135). -/
theorem Channel.SentInOrder.dispatched {cfg : Config} {c : Channel} (hr : c.txf.Ring cfg.capacity)
    (hoff : c.txf.allowOverwrite = false) (R : Fifo) (ch : Byte) (e : TableEntry)
    (payload : List Byte) :
    Channel.SentInOrder cfg c (Channel.dispatched cfg ch { c with rxf := R } e payload) := by
  obtain ⟨hpolicy, -⟩ := hr.offered_frame (c.response cfg ch e payload)
  refine ⟨hpolicy, [⟨e.handler, e.tag, payload, c.handlerResult ch e payload⟩], ?_⟩
  by_cases hfits : c.txf.length + (c.response cfg ch e payload).length ≤ cfg.capacity
  · obtain ⟨hcontents, -, -⟩ := hr.offered_queue (.inr hfits)
    rw [Nat.sub_eq_zero_of_le hfits, List.drop_zero] at hcontents
    refine ⟨_, rfl, .refl _, ?_⟩
    rw [List.append_assoc, List.flatMap_singleton]
    exact congrArg (c.wireOut ++ ·) hcontents
  · have hrefused := Fifo.offered_refused (cap := cfg.capacity) (F := c.txf)
      (d := c.response cfg ch e payload) (by simp only [hoff, hfits]; decide)
    refine ⟨[], rfl, List.nil_sublist _, ?_⟩
    rw [List.flatMap_nil, List.append_nil]
    exact congrArg (c.wireOut ++ ·) (congrArg (Fifo.contents cfg.capacity) hrefused)

/-- Where the outcome of an operation on channel `ch` of `s`, which is `c`, is a next state, the channel
has sent in order. -/
def OutcomeInOrder (s : State) (ch : Byte) (c : Channel) (o : Outcome) : Prop :=
  ∀ t d, o = .next t → t.chans[ch.toNat]? = some d → Channel.SentInOrder s.cfg c d

section
variable {s : State} {ch : Byte} {c : Channel} (hc : s.chans[ch.toNat]? = some c)
include hc

theorem next_inOrder {t : State} (h : t.chans = s.chans) : OutcomeInOrder s ch c (.next t) := by
  intro t' d ht hd
  obtain rfl := Host.Outcome.next.inj ht
  obtain rfl : c = d := Option.some.inj (hc.symm.trans (h ▸ hd))
  exact .refl _ c

theorem answer_inOrder (r : Result) : OutcomeInOrder s ch c (answer s r) := next_inOrder hc rfl

theorem raiseFault_inOrder (code : FaultCode) : OutcomeInOrder s ch c (raiseFault s code) :=
  next_inOrder hc rfl

theorem commit_inOrder {d : Channel} (h : Channel.SentInOrder s.cfg c d) (r : Result) :
    OutcomeInOrder s ch c (commit s ch d r) := by
  intro t d' ht hd
  obtain rfl := commit_next ht
  obtain rfl : d = d' := Option.some.inj ((getElem?_set_of_some hc).symm.trans hd)
  exact h

theorem commit_same_inOrder {d : Channel} {r : Result} (htxf : d.txf = c.txf := by rfl)
    (hwire : d.wireOut = c.wireOut := by rfl) (happ : d.app = c.app := by rfl) :
    OutcomeInOrder s ch c (commit s ch d r) :=
  commit_inOrder hc (.of_same htxf hwire happ) r

theorem onChannel_inOrder {k : Channel → Outcome} (hk : OutcomeInOrder s ch c (k c)) :
    OutcomeInOrder s ch c (onChannel s ch k) := by
  unfold onChannel unlessHalted
  rw [hc]
  split_ifs
  · exact answer_inOrder hc _
  · exact hk

theorem whenInited_inOrder {b : Bool} {k : Outcome} (hk : b = true → OutcomeInOrder s ch c k) :
    OutcomeInOrder s ch c (whenInited s b k) := by
  cases b with
  | false => exact raiseFault_inOrder hc _
  | true => exact hk rfl

omit hc in
theorem whenAddressable_inOrder {b : Bool} {k : Outcome} (hk : OutcomeInOrder s ch c k) :
    OutcomeInOrder s ch c (whenAddressable b k) :=
  fun t d ht => hk t d (whenAddressable_next ht).2

theorem onFifo_inOrder {f : FifoSel} {k : Channel → Fifo → Outcome}
    (hk : OutcomeInOrder s ch c (k c (c.fifo f))) : OutcomeInOrder s ch c (onFifo s f ch k) :=
  onChannel_inOrder hc (whenInited_inOrder hc fun _ => hk)

theorem onStorage_inOrder {f : FifoSel} {k : Channel → Fifo → Outcome}
    (hk : OutcomeInOrder s ch c (k c (c.fifo f))) : OutcomeInOrder s ch c (onStorage s f ch k) :=
  onFifo_inOrder hc (whenAddressable_inOrder hk)

theorem execTmrInit_inOrder : OutcomeInOrder s ch c (execTmrInit ch s) := by
  refine onChannel_inOrder hc ?_
  cases h : c.tmrInit s.now with
  | none => exact raiseFault_inOrder hc _
  | some d =>
    obtain ⟨-, rfl⟩ | ⟨-, -, rfl⟩ := Channel.tmrInit_some h
    · exact commit_inOrder hc (.refl _ _) _
    · exact commit_same_inOrder hc

theorem execTmrArm_inOrder (delay : Time) : OutcomeInOrder s ch c (execTmrArm ch delay s) := by
  refine onChannel_inOrder hc ?_
  split_ifs
  · exact whenInited_inOrder hc fun _ => commit_same_inOrder hc
  · exact raiseFault_inOrder hc _

theorem execFifoSetOvw_inOrder {f : FifoSel} (hf : f ≠ .tx) (b : Byte) :
    OutcomeInOrder s ch c (execFifoSetOvw f ch b s) := by
  refine onChannel_inOrder hc ?_
  cases policyOf b with
  | none => exact raiseFault_inOrder hc _
  | some p => exact whenInited_inOrder hc fun _ => commit_inOrder hc (.setFifo _ c hf _) _

theorem execRxByte_inOrder (b : Byte) : OutcomeInOrder s ch c (execRxByte ch b s) := by
  refine onChannel_inOrder hc (whenInited_inOrder hc fun _ => whenAddressable_inOrder ?_)
  cases c.rxf.put s.cfg.capacity b with
  | none => exact commit_same_inOrder hc
  | some F => exact commit_same_inOrder hc

variable (hr : c.txf.Ring s.cfg.capacity)
include hr

theorem execPump_inOrder (k : Half) : OutcomeInOrder s ch c (execPump ch k s) :=
  onChannel_inOrder hc (whenInited_inOrder hc fun _ => whenAddressable_inOrder
    (commit_inOrder hc (.pumped hr (Nat.min_le_right _ _)) _))

/-- `FP_PROCESS` leaves `TXF`, the wire and the calls alone, or it calls a handler (R129 to R135). -/
theorem execFpProcess_inOrder (hoff : c.txf.allowOverwrite = false) :
    OutcomeInOrder s ch c (execFpProcess ch s) := by
  refine onChannel_inOrder hc (whenInited_inOrder hc fun _ => whenAddressable_inOrder ?_)
  cases phaseOf c.cfg.table (c.rxf.contents s.cfg.capacity) with
  | awaitingTag | awaitingPayload | awaitingChecksum => exact answer_inOrder hc _
  | unknownTag => exact commit_same_inOrder hc
  | validating e =>
    simp only [consumeFrame]
    split_ifs
    · exact commit_inOrder hc (.dispatched hr hoff _ ch e _) _
    · exact commit_same_inOrder hc

end

/-- The operation is none that R151 rules out on channel `ch`: none that initialises, resets, writes or
reads `TXF` or sets its policy. -/
def LeavesTxfAlone (ch : Byte) (i : Instr) : Prop :=
  i ≠ .fifoInit .tx ch ∧ i ≠ .fifoReset .tx ch ∧ (∀ b, i ≠ .fifoSetOvw .tx ch b) ∧
    (∀ b, i ≠ .put .tx ch b) ∧ (∀ x, i ≠ .putSpan .tx ch x) ∧ i ≠ .get .tx ch ∧
    (∀ n, i ≠ .getSpan .tx ch n) ∧ i ≠ .chInit ch

/-- Every operation on a channel that leaves `TXF` to the parser and the pump sends in order. -/
theorem exec_inOrder {s : State} {ch : Byte} {c : Channel} {i : Instr}
    (hi : channelOf i = some ch) (hc : s.chans[ch.toNat]? = some c) (hr : c.txf.Ring s.cfg.capacity)
    (hoff : c.txf.allowOverwrite = false) (hleft : LeavesTxfAlone ch i) :
    OutcomeInOrder s ch c (exec i s) := by
  cases i <;> cases hi
  case fifoInit f =>
    have hf : f ≠ .tx := by rintro rfl; simp [LeavesTxfAlone] at hleft
    exact onChannel_inOrder hc (commit_inOrder hc (.setFifo _ c hf _) _)
  case fifoReset f =>
    have hf : f ≠ .tx := by rintro rfl; simp [LeavesTxfAlone] at hleft
    simp only [exec, execFifoReset]
    exact onFifo_inOrder hc (commit_inOrder hc (.setFifo _ c hf _) _)
  case fifoSetOvw f b =>
    have hf : f ≠ .tx := by rintro rfl; simp [LeavesTxfAlone] at hleft
    exact execFifoSetOvw_inOrder hc hf b
  case put f _ | putSpan f _ | get f | getSpan f _ =>
    have hf : f ≠ .tx := by rintro rfl; simp [LeavesTxfAlone] at hleft
    simp only [exec, execPut, execPutSpan, execGet, execGetSpan]
    refine onStorage_inOrder hc ?_
    split
    · exact answer_inOrder hc _
    · exact commit_inOrder hc (.setFifo _ c hf _) _
  case peek f =>
    simp only [exec, execPeek]
    refine onStorage_inOrder hc ?_
    cases (c.fifo f).peek with
    | none => exact answer_inOrder hc _
    | some b => exact answer_inOrder hc _
  case size f =>
    simp only [exec, execSize]
    exact onFifo_inOrder hc (answer_inOrder hc _)
  case tmrInit => exact execTmrInit_inOrder hc
  case tmrArm delay => exact execTmrArm_inOrder hc delay
  case tmrCancel =>
    exact onChannel_inOrder hc (whenInited_inOrder hc fun _ =>
      commit_same_inOrder hc)
  case fpProcess => exact execFpProcess_inOrder hc hr hoff
  case chInit => simp [LeavesTxfAlone] at hleft
  case rxByte b => exact execRxByte_inOrder hc b
  case pump k => exact execPump_inOrder hc hr k

/-- A channel sends in order over an operation of its own that leaves `TXF` alone, over one on another
channel, and over `FIRE`. -/
theorem exec_sentInOrder {i : Instr} {s t : State} (h : exec i s = .next t) {k : Nat}
    {c d : Channel} (hc : s.chans[k]? = some c) (hd : t.chans[k]? = some d)
    (hr : c.txf.Ring s.cfg.capacity) (hoff : c.txf.allowOverwrite = false)
    (hleft : ∀ ch : Byte, ch.toNat = k → LeavesTxfAlone ch i) :
    Channel.SentInOrder s.cfg c d := by
  obtain rfl | ⟨ch, hch, rfl, -⟩ | rfl := exec_channel_cases h hc hd
  · exact .refl _ _
  · exact exec_inOrder hch hc hr hoff (hleft ch rfl) t d h hd
  · exact .of_same rfl rfl rfl

theorem execList_cons_next {i : Instr} {is : List Instr} {s t : State}
    (h : execList (i :: is) s = .next t) : ∃ u, exec i s = .next u ∧ execList is u = .next t := by
  rw [execList] at h
  cases hexec : exec i s with
  | next u => exact ⟨u, rfl, by rwa [hexec] at h⟩
  | fault r => simp [hexec] at h
  | refused r => simp [hexec] at h

/-- No operation takes a channel away. -/
theorem exec_channel_exists {i : Instr} {s t : State} (h : exec i s = .next t) {k : Nat}
    {c : Channel} (hc : s.chans[k]? = some c) : ∃ d, t.chans[k]? = some d := by
  obtain ⟨-, hlength, -⟩ := exec_channels h
  obtain ⟨hk, -⟩ := List.getElem?_eq_some_iff.1 hc
  exact ⟨_, List.getElem?_eq_getElem (hlength ▸ hk)⟩

/-- The order on the wire along a run (R151). -/
theorem execList_sentInOrder {is : List Instr} {s t : State} {k : Nat} {c d : Channel}
    (hw : s.wf = true) (hc : s.chans[k]? = some c) (htx : c.txf.inited = true)
    (hoff : c.txf.allowOverwrite = false)
    (hleft : ∀ i ∈ is, ∀ ch : Byte, ch.toNat = k → LeavesTxfAlone ch i)
    (h : execList is s = .next t) (hd : t.chans[k]? = some d) :
    Channel.SentInOrder s.cfg c d := by
  induction is generalizing s c with
  | nil =>
    obtain rfl := Host.Outcome.next.inj h
    obtain rfl := Option.some.inj (hc.symm.trans hd)
    exact .refl _ _
  | cons i is ih =>
    obtain ⟨u, hexec, hrest⟩ := execList_cons_next h
    obtain ⟨e, he⟩ := exec_channel_exists hexec hc
    have hr : c.txf.Ring s.cfg.capacity :=
      Fifo.ring_of_wf (Channel.wf_fifo (State.channel_wf hw hc) .tx) htx
    have hfirst := exec_sentInOrder hexec hc he hr hoff (hleft i List.mem_cons_self)
    obtain ⟨-, hetx, -⟩ := exec_units hexec hc he
    obtain ⟨hcfg, -, -⟩ := exec_channels hexec
    have hlater := ih (exec_wf hw hexec) he (hetx htx) (hfirst.policy.trans hoff)
      (fun j hj => hleft j (List.mem_cons_of_mem i hj)) hrest
    exact hfirst.trans (hcfg ▸ hlater)

/-! ### `CH_INIT` (R145) -/

section
variable {s : State} {ch : Byte} {c : Channel} (hc : s.ready ch c)
include hc

theorem chInit_tooLong (h : ∃ e ∈ c.cfg.table, s.cfg.capacity < 6 + e.payloadLen) :
    Raises (.chInit ch) s .configFrameTooLong := by
  have hfits : ¬ tableFits s.cfg.capacity c.cfg.table = true := by
    simpa [tableFits_iff] using h
  rw [Raises, exec, execChInit, onChannel_ready hc, if_neg hfits]
  rfl

variable (hfits : ∀ e ∈ c.cfg.table, 6 + e.payloadLen ≤ s.cfg.capacity)
include hfits

theorem chInit_leaves {d : Channel} (h : c.initFifos.tmrInit s.now = some d) :
    Leaves (.chInit ch) s ch d (.ok .done) := by
  rw [Leaves, exec, execChInit, onChannel_ready hc, if_pos (tableFits_iff.2 hfits), h]
  rfl

theorem chInit_unslotted (h : c.initFifos.tmrInit s.now = none) :
    exec (.chInit ch) s = .next
      (State.faulted { s with chans := s.chans.set ch.toNat c.initFifos } .timerAllocFail) := by
  rw [exec, execChInit, onChannel_ready hc, if_pos (tableFits_iff.2 hfits), h]
  rfl

end

/-! ### `RXBYTE` and `PUMP` (R146 to R148), where `rxByte_leaves` does not say it -/

section
variable {s : State} {ch : Byte} {c : Channel} (hc : s.ready ch c)
include hc

theorem rxByte_uninit (h : c.rxf.inited = false ∨ c.tmr.engaged = false) (b : Byte) :
    Raises (.rxByte ch b) s .assertUninit := by
  rw [Raises, exec, execRxByte, onChannel_ready hc, Bool.and_eq_false_iff.2 h]
  rfl

/-- The byte is dropped, the timer armed all the same (R147). -/
theorem rxByte_drops (hrx : c.rxf.inited = true) (htmr : c.tmr.engaged = true)
    (hr : c.rxf.Ring s.cfg.capacity) {b : Byte} (h : c.rxf.put s.cfg.capacity b = none) :
    Leaves (.rxByte ch b) s ch (c.armed s.now s.cfg.idleDelay) .fail := by
  rw [Leaves, exec, execRxByte, onChannel_ready hc, hrx, htmr, hr.addressable, h]
  rfl

theorem pump_uninit (h : c.txf.inited = false) (k : Half) : Raises (.pump ch k) s .assertUninit := by
  rw [Raises, exec, execPump, onChannel_ready hc, h]
  rfl

theorem pump_leaves (htx : c.txf.inited = true) (hr : c.txf.Ring s.cfg.capacity) (k : Half) :
    Leaves (.pump ch k) s ch
      { c with
        txf := (Fifo.takeAll s.cfg.capacity (min k.toNat c.txf.length) c.txf).2
        wireOut :=
          c.wireOut ++ (Fifo.takeAll s.cfg.capacity (min k.toNat c.txf.length) c.txf).1 }
      (.ok (.moved (min k.toNat c.txf.length))) := by
  rw [Leaves, exec, execPump, onChannel_ready hc, htx, hr.addressable]
  rfl

end

/-- `PUT` where it does not fail, with room or over the oldest byte: the queue is the last `C` bytes of
the old queue and the new byte, which is the one storage byte written (R83). -/
theorem Fifo.Ring.put_accepted {cap : Nat} {F : Fifo} (h : F.Ring cap)
    (hput : F.length < cap ∨ F.allowOverwrite = true) (b : Byte) :
    ∃ G, F.put cap b = some G ∧ G.Ring cap ∧
      G.contents cap = (F.contents cap ++ [b]).drop (F.length + 1 - cap) ∧
      G.storage = F.storage.write F.putIndex b ∧ G.putIndex = nextIndex cap F.putIndex := by
  by_cases hroom : F.length < cap
  · obtain ⟨G, hG, hR, hcontents, rfl⟩ := h.put_room hroom b
    refine ⟨_, hG, hR, ?_, rfl, rfl⟩
    rw [hcontents, Nat.sub_eq_zero_of_le hroom, List.drop_zero]
  · have hfull : F.length = cap := le_antisymm h.length_le (not_lt.1 hroom)
    have hpos := h.cap_pos
    obtain ⟨G, hG, hR, hcontents, rfl⟩ := h.put_over hfull (hput.resolve_left hroom) b
    refine ⟨_, hG, hR, ?_, rfl, rfl⟩
    rw [hcontents, List.drop_append_of_le_length (by rw [Fifo.contents_length]; omega), hfull,
      Nat.add_sub_cancel_left]

end Sys2Proof.Machine

namespace Sys2Proof
open Machine

/-- Settles O51: every operation that leaves `TXF` alone sends in order, and so does a run of them
(`execList_sentInOrder`). -/
theorem responsesLeaveInOrder : Obligations.ResponsesLeaveInOrder := by
  intro is s t k c d hw hc htx hoff hleft h hd
  exact (execList_sentInOrder hw hc htx hoff hleft h hd).responses

/-- Settles O48: the table check, then the three cases of `TMR_INIT` on the channel with both Ring Buffers
initialised. -/
theorem chInitBringsTheChannelUp : Obligations.ChInitBringsTheChannelUp := by
  refine fun ch s => ⟨rfl, checksFirst rfl s, fun c hc => ⟨chInit_tooLong hc, fun hfits =>
    ⟨_, _, rfl, rfl, fun _ => rfl, fun h => ?_, fun h hslot => ?_, fun h hslot => ?_⟩⟩⟩
  · exact chInit_leaves hc hfits (Channel.tmrInit_engaged h)
  · exact chInit_leaves hc hfits (Channel.tmrInit_slotted h hslot)
  · exact chInit_unslotted hc hfits (Channel.tmrInit_unslotted h hslot)

/-- Settles O49: a byte that is dropped (`rxByte_drops`) and one that is queued (`rxByte_leaves`) both arm
the timer; what `RXF` holds then is `Fifo.Ring.put_accepted`. -/
theorem rxByteQueuesAndArms : Obligations.RxByteQueuesAndArms := by
  refine fun ch b s => ⟨rfl, checksFirst rfl s,
    fun c hc => ⟨fun h => rxByte_uninit hc h b, fun hrx htmr hw => ?_⟩⟩
  have hr := Fifo.ring_of_wf hw hrx
  refine ⟨fun hfull hpol => rxByte_drops hc hrx htmr hr (Fifo.put_full hfull hpol b), fun haccepted => ?_⟩
  obtain ⟨G, hput, hG, hcontents, hstorage, hindex⟩ := hr.put_accepted haccepted b
  obtain ⟨-, hinited, hpolicy⟩ := hr.put_some hput
  refine ⟨G, rxByte_leaves hc hrx htmr hr hput, hcontents, fun a => ?_, hindex, hpolicy,
    hinited.trans hrx, hG.wf⟩
  rw [hstorage]
  exact storageWritesOneByte.1 _ _ a b hr.storage_wf

/-- Settles O50: the bytes taken are the oldest, in order (`Fifo.Ring.takeAll`). -/
theorem pumpMovesTheOldestBytes : Obligations.PumpMovesTheOldestBytes := by
  refine fun ch k s => ⟨?_, checksFirst rfl s,
    fun c hc => ⟨fun h => pump_uninit hc h k, fun htx hw => ?_⟩⟩
  · rw [encode, le16_eq]
  · have hr := Fifo.ring_of_wf hw htx
    obtain ⟨hbytes, hcontents, heq, -⟩ := hr.takeAll (Nat.min_le_right k.toNat c.txf.length)
    exact ⟨_, hbytes ▸ pump_leaves hc htx hr k, hcontents, heq⟩

end Sys2Proof
end

section
/-! Proofs about the order of the checks (R167): a reserved opcode meets a halted block, and a status failure
is the answer of an operation that has passed the checks and raised no fault. -/

namespace Sys2Proof.Machine

/-- Check 1 comes before the fault of a reserved opcode. -/
theorem perform_reserved_halted {s : State} {r : List Byte} {op : Byte} (hs : s.halted = true)
    (h : decode r = .reservedOpcode op) : perform r s = .next (s.answered (.fault s.faultCode)) := by
  simp only [perform, h]
  exact unlessHalted_halted hs _

/-- `TICK` and `CRC16`, which work on no channel, never answer `FAIL` (R161). -/
theorem channelOf_of_canFail {i : Instr} (h : canFail i = true) : ∃ ch, channelOf i = some ch := by
  cases i with
  | tick | crc16 => cases h
  | _ => exact ⟨_, rfl⟩

/-- An operation on a channel that answers `FAIL` has passed the checks of the halt and of the channel. -/
theorem ready_of_exec_fail {i : Instr} {ch : Byte} {s t : State} (hi : channelOf i = some ch)
    (h : exec i s = .next t) (hfail : t.result = some .fail) : ∃ c, s.ready ch c := by
  cases hs : s.halted with
  | true =>
    rw [exec_halted hs (ne_tick_of_channelOf hi)] at h
    obtain rfl := Host.Outcome.next.inj h
    cases hfail
  | false =>
    cases hc : s.chans[ch.toNat]? with
    | none =>
      rw [exec_badChannel hs hi (List.getElem?_eq_none_iff.1 hc)] at h
      obtain rfl := Host.Outcome.next.inj h
      cases hfail
    | some c => exact ⟨c, hs, hc⟩

/-- An operation that leaves a running block halted answers with a fault, so not with `FAIL` (R166). -/
theorem halted_of_exec_fail {i : Instr} {ch : Byte} {s t : State} (hi : channelOf i = some ch)
    (h : exec i s = .next t) (hfail : t.result = some .fail) : t.halted = s.halted := by
  cases exec_channelOutcome (ne_tick_of_channelOf hi) h with
  | answered _ h | committed _ _ _ _ _ _ _ h => rw [h]; rfl
  | faulted _ _ h | unslotted _ _ _ _ _ _ h =>
    rw [h] at hfail
    cases hfail

end Sys2Proof.Machine

namespace Sys2Proof
open Machine

/-- Settles O52, level by level: each check has its lemma, and none of them asks whether a later check would
fail; a status failure is one of `canFail` (`exec_inForm`), on a channel that is ready
(`ready_of_exec_fail`). -/
theorem orderOfTheChecks : Obligations.OrderOfTheChecks := by
  refine ⟨fun s r rest op hlegal hnext hop => ?_, fun i s hi hs => exec_halted hs hi,
    fun ch s hs => execTick_halted hs ch, fun i ch s hi => (checksFirst hi s).2,
    fun _ _ _ _ _ => ⟨rfl, rfl⟩, fun s ch c hc => ?_, fun i s t h hfail => ?_⟩
  · rw [step_perform hlegal hnext]
    exact ⟨fun hs => perform_reserved_halted hs hop, fun hs => perform_reserved hs hop⟩
  · refine ⟨fun f _ => fifoSetOvw_reserved hc f, fun _ => tmrArm_reserved hc, fun f hi => ?_, fun ht => ?_,
      fpProcess_uninit hc, rxByte_uninit hc, pump_uninit hc, chInit_tooLong hc⟩
    · exact ⟨onFifo_uninit hc hi fun _ _ => _,
        fun b hb => (exec_fifoSetOvw_legal hc f hb).trans (by rw [hi]; rfl),
        fun _ => onStorage_uninit hc hi fun _ _ => _, fun _ => onStorage_uninit hc hi fun _ _ => _,
        onStorage_uninit hc hi fun _ _ => _, onStorage_uninit hc hi fun _ _ => _,
        fun _ => onStorage_uninit hc hi fun _ _ => _, onFifo_uninit hc hi fun _ _ => _⟩
    · exact ⟨fun delay hd => (exec_tmrArm_legal hc hd).trans (by rw [ht]; rfl),
        (exec_tmrCancel_ready hc).trans (by rw [ht]; rfl)⟩
  · obtain ⟨r, hr, -, hcan, -⟩ := exec_inForm i s t h
    obtain ⟨ch, hi⟩ := channelOf_of_canFail (hcan (Option.some.inj (hr.symm.trans hfail)))
    obtain ⟨c, hc⟩ := ready_of_exec_fail hi h hfail
    exact ⟨hc.1, (halted_of_exec_fail hi h hfail).trans hc.1, ch, c, hi, hc⟩

end Sys2Proof
end

section
/-! Proof about the state at power-on: what R185 fixes of a block that has just been powered on, on each of
its channels. -/

namespace Sys2Proof.Machine

/-- A channel of a block at power-on is one of the configured channels at power-on. -/
theorem State.mem_powerOn_chans {cfg : Config} {channels : List (ChannelConfig × List (List Byte))}
    {now : Time} {requests : List (List Byte)} {c : Channel} :
    c ∈ (State.powerOn cfg channels now requests).chans ↔
      ∃ p ∈ channels, Channel.powerOn p.1 p.2 = c :=
  List.mem_map

/-- The channels of a block at power-on have the configurations of the launch, in their order. -/
theorem State.powerOn_chans_cfg (cfg : Config) (channels : List (ChannelConfig × List (List Byte)))
    (now : Time) (requests : List (List Byte)) :
    (State.powerOn cfg channels now requests).chans.map Channel.cfg = channels.map Prod.fst :=
  List.map_map

/-- R33, for one channel: neither Ring Buffer is initialised, the timer is not engaged, and nothing has
been sent. -/
theorem Channel.powerOn_uninitialised (cfg : ChannelConfig) (answers : List (List Byte)) :
    (Channel.powerOn cfg answers).rxf.inited = false ∧
    (Channel.powerOn cfg answers).txf.inited = false ∧
    (Channel.powerOn cfg answers).tmr.engaged = false ∧
    (Channel.powerOn cfg answers).wireOut = [] :=
  ⟨rfl, rfl, rfl, rfl⟩

end Sys2Proof.Machine

namespace Sys2Proof
open Machine

/-- Settles O8: every channel of the block is a channel at power-on, and `State.reset` is the launch with
one default channel at the time the model names. -/
theorem powerOnLeavesEverythingUninitialised : Obligations.PowerOnLeavesEverythingUninitialised := by
  refine ⟨fun cfg channels now requests =>
      ⟨rfl, rfl, rfl, State.powerOn_chans_cfg cfg channels now requests, fun c hc => ?_⟩,
    [(ChannelConfig.default, [])], 1000#32, rfl⟩
  obtain ⟨p, -, rfl⟩ := State.mem_powerOn_chans.1 hc
  exact Channel.powerOn_uninitialised p.1 p.2

end Sys2Proof
end
